-- ==== Sys2Proof/Word.lean ====
section
/-! DEFINITION. The word types of MM-SEB (R9, R22): `uK` and `iK` values are bit vectors of width K, a `bool` is a `Bool`. -/

namespace Sys2Proof

/-- A 32-bit word: a step word or an extension word (R100), a tick count, an address, a response (R102). -/
abbrev Word := BitVec 32

/-- A 16-bit half-word: a ring cell (R29), an encoder count (R37). -/
abbrev Half := BitVec 16

/-- A byte of data memory (R70). -/
abbrev Byte := BitVec 8

end Sys2Proof
end

