-- ==== Sys2Proof/Syntax.lean ====
section
/-! DEFINITION. The step words of MM-SEB as a type: one constructor per row of the opcode map (R104), in its order.
An operand's width is carried by its type (R101), so a term with an operand that does not fit cannot be written. -/

namespace Sys2Proof

/-- The 42 rows of R104: 33 host commands and 9 events. -/
inductive Instr where
  /-- `TCK.INIT` (R130). -/
  | tckInit (fCpu : Word)
  /-- `TCK.NOW` (R131). -/
  | tckNow
  /-- `TCK.ELAPSED` (R132). -/
  | tckElapsed (since : Word)
  /-- `TCK.DELAY` (R133). -/
  | tckDelay (n : Word)
  /-- `TMR.INIT` (R134). -/
  | tmrInit (t : BitVec 2) (ar : Bool) (interval : Word)
  /-- `TMR.START` (R135). -/
  | tmrStart (t : BitVec 2)
  /-- `TMR.EXPIRED` (R136). -/
  | tmrExpired (t : BitVec 2)
  /-- `SMP.INIT` (R150). -/
  | smpInit (base len : Word)
  /-- `SMP.START` (R152). -/
  | smpStart
  /-- `SMP.READY` (R153). -/
  | smpReady
  /-- `SMP.CLEAR` (R154). -/
  | smpClear
  /-- `SMP.RDCELL` (R157). -/
  | smpRdcell (i : BitVec 16)
  /-- `SMP.GETF` (R156). -/
  | smpGetf (f : BitVec 2)
  /-- `SMP.CLRF` (R163). -/
  | smpClrf (f : BitVec 2)
  /-- `SMP.DMAEN` (R158). -/
  | smpDmaen
  /-- `SMP.DMADIS` (R159). -/
  | smpDmadis
  /-- `PRT.TICK` (R180). -/
  | prtTick
  /-- `MOT.SET` (R183). -/
  | motSet (v1 : Bool)
  /-- `MOT.GET` (R184). -/
  | motGet
  /-- `ENC.INIT` (R190). -/
  | encInit (polA polB uie : Bool) (cpr maxCount : BitVec 16)
  /-- `ENC.START` (R193). -/
  | encStart
  /-- `ENC.STOP` (R194). -/
  | encStop
  /-- `ENC.RESET` (R195). -/
  | encReset
  /-- `ENC.COUNT` (R192). -/
  | encCount
  /-- `ENC.DIR` (R196). -/
  | encDir
  /-- `ENC.UPDATE` (R197). -/
  | encUpdate
  /-- `ENC.RPM` (R201). -/
  | encRpm (nowMs : Word)
  /-- `BTN.INIT` (R220). -/
  | btnInit (b : BitVec 3) (pin port : BitVec 4) (al : Bool)
  /-- `BTN.MINIT` (R221). -/
  | btnMinit
  /-- `BTN.ADD` (R222). -/
  | btnAdd (b : BitVec 3)
  /-- `BTN.SCAN` (R223). -/
  | btnScan
  /-- `BTN.TAKE` (R225). -/
  | btnTake (b : BitVec 3)
  /-- `BTN.PRESSED` (R226). -/
  | btnPressed (b : BitVec 3)
  /-- `EV.TICK` (R137). -/
  | evTick
  /-- `EV.SAMPLE` (R155). -/
  | evSample (v12 : BitVec 12)
  /-- `EV.DMAIRQ` (R160). -/
  | evDmairq
  /-- `EV.DMATE` (R162). -/
  | evDmate
  /-- `EV.QA` (R202). -/
  | evQa (v1 : Bool)
  /-- `EV.QB` (R204). -/
  | evQb (v1 : Bool)
  /-- `EV.ENCIRQ` (R205). -/
  | evEncirq
  /-- `EV.PIN` (R227). -/
  | evPin (v1 : Bool) (pin port : BitVec 4)
  /-- `EV.RESET` (R270). -/
  | evReset
  deriving DecidableEq, Repr

/-- The formats of R101. -/
inductive Format where
  /-- No operand, no extension word. -/
  | Z
  /-- Operand fields in the step word, no extension word. -/
  | I
  /-- One extension word. -/
  | X1
  /-- Two extension words. -/
  | X2
  /-- An event, no extension word. -/
  | E
  deriving DecidableEq, Repr

end Sys2Proof
end

