-- ==== Sys2Proof/WellFormed.lean ====
section
/-! DEFINITION. The checks on an instruction's operands that need no state (R106): a field value that is legal as bits
and that the command refuses whatever the state is. An instruction that fails a check is still a legal step: it decodes,
its extension words are consumed, and it raises `InvalidArgument` (R240). -/

namespace Sys2Proof

/-- The operand checks of `TCK.INIT` (R130), `SMP.INIT` (R150: length, then alignment, then the end of the address
space), `SMP.GETF` and `SMP.CLRF` (R156, R163) and `ENC.INIT` (R190). Every other operand value names something. -/
def Instr.wellFormed : Instr → Bool
  | .tckInit fCpu => decide (1000 ≤ fCpu.toNat)
  | .smpInit base len =>
      decide (len.toNat ≠ 0) && decide (len.toNat % 2 = 0) && decide (len.toNat ≤ 65534)
        && decide (base.toNat % 2 = 0) && decide (base.toNat + 2 * len.toNat ≤ 0x100000000)
  | .smpGetf f => decide (f ≠ 3)
  | .smpClrf f => decide (f ≠ 3)
  | .encInit _ _ _ cpr maxCount => decide (cpr ≠ 0) && decide (maxCount ≠ 0)
  | .tckNow => true
  | .tckElapsed _ => true
  | .tckDelay _ => true
  | .tmrInit _ _ _ => true
  | .tmrStart _ => true
  | .tmrExpired _ => true
  | .smpStart => true
  | .smpReady => true
  | .smpClear => true
  | .smpRdcell _ => true
  | .smpDmaen => true
  | .smpDmadis => true
  | .prtTick => true
  | .motSet _ => true
  | .motGet => true
  | .encStart => true
  | .encStop => true
  | .encReset => true
  | .encCount => true
  | .encDir => true
  | .encUpdate => true
  | .encRpm _ => true
  | .btnInit _ _ _ _ => true
  | .btnMinit => true
  | .btnAdd _ => true
  | .btnScan => true
  | .btnTake _ => true
  | .btnPressed _ => true
  | .evTick => true
  | .evSample _ => true
  | .evDmairq => true
  | .evDmate => true
  | .evQa _ => true
  | .evQb _ => true
  | .evEncirq => true
  | .evPin _ _ _ => true
  | .evReset => true

end Sys2Proof
end

