-- ==== Sys2Proof/Decode.lean ====
section
/-! DEFINITION. The decoder of step words (R100, R101, R104, R105, R107, R110), total on any list of words, and after it
the encoder, written from the same tables. -/

namespace Sys2Proof

/-- R101: how many extension words follow the step word. -/
def Format.extWords : Format → Nat
  | .Z => 0
  | .I => 0
  | .X1 => 1
  | .X2 => 2
  | .E => 0

/-- `OP = W[31:24]` (R100). -/
def opOf (w : Word) : BitVec 8 := w.extractLsb' 24 8

/-- R100, R105: `OP[7:4] = 0xE`, the step is another agent's and not the host's. -/
def isEventWord (w : Word) : Bool := decide (w.extractLsb' 28 4 = 0xE#4)

/-- One row of R104: the opcode, the format, the bits of `W[23:0]` that lie in one of the row's fields, and the
instruction the fields and extension words make. -/
structure Row where
  op : BitVec 8
  format : Format
  fieldBits : Word
  make : Word → Word → Word → Instr

/-- The reserved bits of a row's operand field, which must be 0 (R101, R105). -/
def Row.reserved (r : Row) : Word := 0x00FFFFFF#32 &&& ~~~r.fieldBits

/-- R104, units 0 (tick and timers). -/
def rowsTick : List Row :=
  [ ⟨0x00, .X1, 0, fun _ a0 _ => .tckInit a0⟩,
    ⟨0x01, .Z, 0, fun _ _ _ => .tckNow⟩,
    ⟨0x02, .X1, 0, fun _ a0 _ => .tckElapsed a0⟩,
    ⟨0x03, .X1, 0, fun _ a0 _ => .tckDelay a0⟩,
    ⟨0x04, .X1, 0x000103, fun w a0 _ => .tmrInit (w.extractLsb' 0 2) (w.getLsbD 8) a0⟩,
    ⟨0x05, .I, 0x000003, fun w _ _ => .tmrStart (w.extractLsb' 0 2)⟩,
    ⟨0x06, .I, 0x000003, fun w _ _ => .tmrExpired (w.extractLsb' 0 2)⟩ ]

/-- R104, unit 1 (sampler). -/
def rowsSampler : List Row :=
  [ ⟨0x10, .X2, 0, fun _ a0 a1 => .smpInit a0 a1⟩,
    ⟨0x11, .Z, 0, fun _ _ _ => .smpStart⟩,
    ⟨0x12, .Z, 0, fun _ _ _ => .smpReady⟩,
    ⟨0x13, .Z, 0, fun _ _ _ => .smpClear⟩,
    ⟨0x14, .I, 0x00FFFF, fun w _ _ => .smpRdcell (w.extractLsb' 0 16)⟩,
    ⟨0x15, .I, 0x000003, fun w _ _ => .smpGetf (w.extractLsb' 0 2)⟩,
    ⟨0x16, .I, 0x000003, fun w _ _ => .smpClrf (w.extractLsb' 0 2)⟩,
    ⟨0x17, .Z, 0, fun _ _ _ => .smpDmaen⟩,
    ⟨0x18, .Z, 0, fun _ _ _ => .smpDmadis⟩ ]

/-- R104, unit 2 (protection and motor). -/
def rowsProtection : List Row :=
  [ ⟨0x20, .Z, 0, fun _ _ _ => .prtTick⟩,
    ⟨0x21, .I, 0x000001, fun w _ _ => .motSet (w.getLsbD 0)⟩,
    ⟨0x22, .Z, 0, fun _ _ _ => .motGet⟩ ]

/-- R104, unit 3 (encoder). `cpr = A0[15:0]`, `max_count = A0[31:16]` (R101). -/
def rowsEncoder : List Row :=
  [ ⟨0x30, .X1, 0x000007, fun w a0 _ => .encInit (w.getLsbD 0) (w.getLsbD 1) (w.getLsbD 2)
      (a0.extractLsb' 0 16) (a0.extractLsb' 16 16)⟩,
    ⟨0x31, .Z, 0, fun _ _ _ => .encStart⟩,
    ⟨0x32, .Z, 0, fun _ _ _ => .encStop⟩,
    ⟨0x33, .Z, 0, fun _ _ _ => .encReset⟩,
    ⟨0x34, .Z, 0, fun _ _ _ => .encCount⟩,
    ⟨0x35, .Z, 0, fun _ _ _ => .encDir⟩,
    ⟨0x36, .Z, 0, fun _ _ _ => .encUpdate⟩,
    ⟨0x37, .X1, 0, fun _ a0 _ => .encRpm a0⟩ ]

/-- R104, unit 4 (buttons). -/
def rowsButton : List Row :=
  [ ⟨0x40, .I, 0x001FF7, fun w _ _ => .btnInit (w.extractLsb' 0 3) (w.extractLsb' 4 4) (w.extractLsb' 8 4)
      (w.getLsbD 12)⟩,
    ⟨0x41, .Z, 0, fun _ _ _ => .btnMinit⟩,
    ⟨0x42, .I, 0x000007, fun w _ _ => .btnAdd (w.extractLsb' 0 3)⟩,
    ⟨0x43, .Z, 0, fun _ _ _ => .btnScan⟩,
    ⟨0x44, .I, 0x000007, fun w _ _ => .btnTake (w.extractLsb' 0 3)⟩,
    ⟨0x45, .I, 0x000007, fun w _ _ => .btnPressed (w.extractLsb' 0 3)⟩ ]

/-- R104, unit 0xE (events). -/
def rowsEvent : List Row :=
  [ ⟨0xE0, .E, 0, fun _ _ _ => .evTick⟩,
    ⟨0xE1, .E, 0x000FFF, fun w _ _ => .evSample (w.extractLsb' 0 12)⟩,
    ⟨0xE2, .E, 0, fun _ _ _ => .evDmairq⟩,
    ⟨0xE3, .E, 0, fun _ _ _ => .evDmate⟩,
    ⟨0xE4, .E, 0x000001, fun w _ _ => .evQa (w.getLsbD 0)⟩,
    ⟨0xE5, .E, 0x000001, fun w _ _ => .evQb (w.getLsbD 0)⟩,
    ⟨0xE6, .E, 0, fun _ _ _ => .evEncirq⟩,
    ⟨0xE7, .E, 0x000FF1, fun w _ _ => .evPin (w.getLsbD 0) (w.extractLsb' 4 4) (w.extractLsb' 8 4)⟩,
    ⟨0xEF, .E, 0, fun _ _ _ => .evReset⟩ ]

/-- The complete opcode map (R104). -/
def opcodeTable : List Row :=
  rowsTick ++ rowsSampler ++ rowsProtection ++ rowsEncoder ++ rowsButton ++ rowsEvent

/-- Step (1) of R110: the row of an opcode. -/
def rowOf (op : BitVec 8) : Option Row := opcodeTable.find? fun r => decide (r.op = op)

/-- What stands at the head of a trace. -/
inductive Decoded where
  /-- A legal step and what follows it. -/
  | step (i : Instr) (rest : List Word)
  /-- An illegal word the host issued; no extension word is consumed (R105). -/
  | illegalHost (rest : List Word)
  /-- An illegal word with `OP[7:4] = 0xE`: no agent's step, the trace is ill-formed (R105). -/
  | illegalEvent
  /-- The trace ends inside a step (R107). -/
  | truncated
  /-- No word is left. -/
  | ended
  deriving DecidableEq, Repr

/-- R105: an illegal word is the host's or ill-formed, by its unit. -/
def decodeIllegal (w : Word) (rest : List Word) : Decoded :=
  if isEventWord w then .illegalEvent else .illegalHost rest

/-- Steps (3) and (4) of R110: take the extension words the format asks for and make the instruction. -/
def decodeExt (r : Row) (w : Word) (rest : List Word) : Decoded :=
  match r.format.extWords, rest with
  | 0, rest => .step (r.make w 0 0) rest
  | 1, a0 :: rest => .step (r.make w a0 0) rest
  | 2, a0 :: a1 :: rest => .step (r.make w a0 a1) rest
  | _, _ => .truncated

/-- The decoding procedure of R110 on the words of a trace. -/
def decode : List Word → Decoded
  | [] => .ended
  | w :: rest =>
    match rowOf (opOf w) with
    | none => decodeIllegal w rest
    | some r => if w &&& r.reserved = 0 then decodeExt r w rest else decodeIllegal w rest

/-- R107: the number of words of the step a word begins; a word with no row stands alone. -/
def stepLength (w : Word) : Nat :=
  match rowOf (opOf w) with
  | none => 1
  | some r => 1 + r.format.extWords

/-- The three words of the longest step, from its bits numbered as the opcode table numbers them. -/
def tableWords (nbits w : Nat) : List Word :=
  let v := w % (1 <<< nbits)
  [BitVec.ofNat 32 v, BitVec.ofNat 32 (v >>> 32), BitVec.ofNat 32 (v >>> 64)]

/-- The host's question to the decoder: the instruction in the word `w` of a table row of `nbits` bits. -/
def decodeTableWord (nbits w : Nat) : Option Instr :=
  match decode (tableWords nbits w) with
  | .step i _ => some i
  | _ => none

/-- A field with its bit 0 at bit `lo` of a word (R101). -/
def place {n : Nat} (x : BitVec n) (lo : Nat) : Word := x.setWidth 32 <<< lo

/-- A one-bit field at bit `lo` of a word (R101). -/
def placeBit (c : Bool) (lo : Nat) : Word := place (BitVec.ofBool c) lo

/-- A step word: the opcode at `W[31:24]` and the operand field, whose reserved bits are 0 (R100, R101). -/
def stepWord (op : BitVec 8) (fields : Word) : Word := place op 24 ||| fields

/-- The words of an instruction (R101, R104). -/
def encode : Instr → List Word
  | .tckInit fCpu => [stepWord 0x00 0, fCpu]
  | .tckNow => [stepWord 0x01 0]
  | .tckElapsed since => [stepWord 0x02 0, since]
  | .tckDelay n => [stepWord 0x03 0, n]
  | .tmrInit t ar interval => [stepWord 0x04 (place t 0 ||| placeBit ar 8), interval]
  | .tmrStart t => [stepWord 0x05 (place t 0)]
  | .tmrExpired t => [stepWord 0x06 (place t 0)]
  | .smpInit base len => [stepWord 0x10 0, base, len]
  | .smpStart => [stepWord 0x11 0]
  | .smpReady => [stepWord 0x12 0]
  | .smpClear => [stepWord 0x13 0]
  | .smpRdcell i => [stepWord 0x14 (place i 0)]
  | .smpGetf f => [stepWord 0x15 (place f 0)]
  | .smpClrf f => [stepWord 0x16 (place f 0)]
  | .smpDmaen => [stepWord 0x17 0]
  | .smpDmadis => [stepWord 0x18 0]
  | .prtTick => [stepWord 0x20 0]
  | .motSet v1 => [stepWord 0x21 (placeBit v1 0)]
  | .motGet => [stepWord 0x22 0]
  | .encInit polA polB uie cpr maxCount =>
      [stepWord 0x30 (placeBit polA 0 ||| placeBit polB 1 ||| placeBit uie 2), place cpr 0 ||| place maxCount 16]
  | .encStart => [stepWord 0x31 0]
  | .encStop => [stepWord 0x32 0]
  | .encReset => [stepWord 0x33 0]
  | .encCount => [stepWord 0x34 0]
  | .encDir => [stepWord 0x35 0]
  | .encUpdate => [stepWord 0x36 0]
  | .encRpm nowMs => [stepWord 0x37 0, nowMs]
  | .btnInit b pin port al => [stepWord 0x40 (place b 0 ||| place pin 4 ||| place port 8 ||| placeBit al 12)]
  | .btnMinit => [stepWord 0x41 0]
  | .btnAdd b => [stepWord 0x42 (place b 0)]
  | .btnScan => [stepWord 0x43 0]
  | .btnTake b => [stepWord 0x44 (place b 0)]
  | .btnPressed b => [stepWord 0x45 (place b 0)]
  | .evTick => [stepWord 0xE0 0]
  | .evSample v12 => [stepWord 0xE1 (place v12 0)]
  | .evDmairq => [stepWord 0xE2 0]
  | .evDmate => [stepWord 0xE3 0]
  | .evQa v1 => [stepWord 0xE4 (placeBit v1 0)]
  | .evQb v1 => [stepWord 0xE5 (placeBit v1 0)]
  | .evEncirq => [stepWord 0xE6 0]
  | .evPin v1 pin port => [stepWord 0xE7 (placeBit v1 0 ||| place pin 4 ||| place port 8)]
  | .evReset => [stepWord 0xEF 0]

end Sys2Proof
end

