-- ==== Sys2Proof/Config.lean ====
section
/-! DEFINITION. What an implementation fixes (the configuration fields of R8, with the source's values as defaults)
and the free values: the draws of R10 that no rule fixes. -/

namespace Sys2Proof

/-- R198, R8: how the sign of a folded difference of exactly half the modulus is settled. -/
inductive FoldHalf where
  /-- The normative setting: a draw of either sign. -/
  | either
  /-- Pinned to plus half the modulus. -/
  | plus
  /-- Pinned to minus half the modulus. -/
  | minus
  deriving DecidableEq, Repr

/-- A run of consecutive byte addresses, for `MEM_REGION` (R79). -/
structure Region where
  base : Nat
  size : Nat
  deriving DecidableEq, Repr

/-- The configuration fields of R8 and R43 that no step writes and that survive `EV.RESET` (R270). -/
structure Params where
  /-- `THRESH`, the overcurrent threshold (R43, D49). -/
  thresh : BitVec 16
  /-- `te_admitted`: whether transfer errors occur (R162). -/
  teAdmitted : Bool
  /-- `fold_half` (R198). -/
  foldHalf : FoldHalf
  /-- `MEM_REGION` (R79): the data memory the stream can write, as the union of these runs of addresses. -/
  memRegion : List Region
  deriving DecidableEq, Repr

/-- The defaults the spec states: `THRESH` 3400, no transfer errors, `fold_half` either, the whole address space. -/
def Params.default : Params :=
  { thresh := 3400, teAdmitted := false, foldHalf := .either, memRegion := [⟨0, 0x100000000⟩] }

/-- DESIGN CHOICE (log 1). The `n`-th draw of a boolean (R10): `disable_attempt` (R151), the flags a disable leaves
(R159), the sign at half the modulus (R198). No value of it can be proved. -/
opaque Config.drawBool : Nat → Bool

/-- DESIGN CHOICE (log 1). The `n`-th draw of a 32-bit word (R10): a speed that does not fit (R200), a quotient whose
divisor a state written by hand made zero (log 9). No value of it can be proved. -/
opaque Config.drawWord : Nat → Word

/-- DEDUCED (log 2). The content of a byte of data memory before anything has written it: unspecified (R78). No value
of it can be proved. -/
opaque Config.initialByte : Nat → Byte

end Sys2Proof
end

