-- ==== Sys2Proof/Machine/State.lean ====
section
/-! DEFINITION. The state of MM-SEB (10_state.md), its reset (R51, R270), and the reasons a step can stop. -/

namespace Sys2Proof.Machine

/-- R240: the error kinds. The codes are the spec's numbers; 3 (`Timeout`) and 6 to 255 are never produced. -/
inductive Status where
  | success
  | invalidArgument
  | peripheralBusy
  | timeout
  | reloadTooLarge
  | uninitialized
  deriving DecidableEq, Repr

/-- `ST: u8` (R102, R240). -/
def Status.code : Status → BitVec 8
  | .success => 0
  | .invalidArgument => 1
  | .peripheralBusy => 2
  | .timeout => 3
  | .reloadTooLarge => 4
  | .uninitialized => 5

/-- What a host command returns: a status and a response (R11, R102). -/
structure Response where
  st : Status
  rsp : Word
  deriving DecidableEq, Repr

/-- `DELAY` (R26): a `TCK.DELAY` in progress. -/
structure Delay where
  active : Bool
  start : Word
  n : Word
  deriving DecidableEq, Repr

/-- The tick unit (R24 to R26). -/
structure TickUnit where
  /-- `TICK_MS` (R24). -/
  ms : Word
  /-- `SYST_EN` (R25). -/
  systEn : Bool
  /-- `SYST_RELOAD` (R25). -/
  systReload : BitVec 24
  /-- `DELAY` (R26). -/
  delay : Delay
  deriving DecidableEq, Repr

/-- One software timer `TMR[t]` (R45). -/
structure Timer where
  startMs : Word
  intervalMs : Word
  enabled : Bool
  autoReload : Bool
  deriving DecidableEq, Repr

/-- The sampler unit (R27 to R35, R43). The ring is data memory (R29) and stands in `State.mem`. -/
structure Sampler where
  /-- `SMP_INITED` (R27). -/
  inited : Bool
  /-- `SMP_BASE` (R28). -/
  base : Word
  /-- `SMP_N` (R28). -/
  n : Half
  /-- `ADC_ON` (R30). -/
  adcOn : Bool
  /-- `ADC_RUN` (R30). -/
  adcRun : Bool
  /-- `ADC_DR` (R31). -/
  adcDr : Half
  /-- `ADC_CONT` (R43, R161). -/
  adcCont : Bool
  /-- `ADC_ALIGN_RIGHT` (R43, R161). -/
  adcAlignRight : Bool
  /-- `ADC_RES12` (R43, R161). -/
  adcRes12 : Bool
  /-- `ADC_DMA` (R43, R161). -/
  adcDma : Bool
  /-- `ADC_DDS` (R43, R161). -/
  adcDds : Bool
  /-- `DMA_CIRC` (R43, R161). -/
  dmaCirc : Bool
  /-- `DMA_MINC` (R43, R161). -/
  dmaMinc : Bool
  /-- `DMA_HTIE` (R43). -/
  htie : Bool
  /-- `DMA_TCIE` (R43). -/
  tcie : Bool
  /-- `DMA_TEIE` (R43). -/
  teie : Bool
  /-- `DMA_EN` (R32). -/
  dmaEn : Bool
  /-- `DMA_WIDX` (R33). -/
  widx : Half
  /-- `DMA_TCIF` (R34). -/
  tcif : Bool
  /-- `DMA_HTIF` (R34). -/
  htif : Bool
  /-- `DMA_TEIF` (R34). -/
  teif : Bool
  /-- `BATCH_READY` (R35). -/
  batchReady : Bool
  deriving DecidableEq, Repr

/-- The encoder unit (R37 to R43). -/
structure Encoder where
  /-- `ENC_CNT` (R37). -/
  cnt : Half
  /-- `ENC_ARR` (R38). -/
  arr : Half
  /-- `ENC_QA` (R39). -/
  qa : Bool
  /-- `ENC_QB` (R39). -/
  qb : Bool
  /-- `ENC.hw_count` (R40). -/
  hwCount : Half
  /-- `ENC.total` (R40), the bits of an `i32`. -/
  total : Word
  /-- `ENC.last_hw` (R40). -/
  lastHw : Half
  /-- `ENC.last_total` (R40), the bits of an `i32`. -/
  lastTotal : Word
  /-- `ENC.last_tick_ms` (R40). -/
  lastTickMs : Word
  /-- `ENC.speed_rpm` (R40), the bits of an `i32`. -/
  speedRpm : Word
  /-- `ENC.cpr` (R40). -/
  cpr : Half
  /-- `ENC.max_count` (R40). -/
  maxCount : Half
  /-- `ENC_SEEDED` (R41). -/
  seeded : Bool
  /-- `ENC_INITED` (R42). -/
  inited : Bool
  /-- `ENC_CEN` (R43). -/
  cen : Bool
  /-- `ENC_DIR` (R43): false up (forward), true down (reverse). -/
  dir : Bool
  /-- `ENC_UIF` (R43). -/
  uif : Bool
  /-- `ENC_UIE` (R43). -/
  uie : Bool
  /-- `ENC_POLA` (R43): false rising, true falling. -/
  pola : Bool
  /-- `ENC_POLB` (R43): false rising, true falling. -/
  polb : Bool
  deriving DecidableEq, Repr

/-- One button handle `BTN[b]` (R46, R47). -/
structure Button where
  port : BitVec 4
  pin : BitVec 4
  activeLevel : Bool
  current : Bool
  last : Bool
  pressLatch : Bool
  shiftReg : BitVec 8
  initialized : Bool
  deriving DecidableEq, Repr

/-- The button manager `MGR` and `MGR_INITED` (R48). -/
structure Manager where
  count : BitVec 4
  slot : Vector (BitVec 3) 8
  inited : Bool
  deriving DecidableEq, Repr

/-- The rest of a host command whose sub-steps other agents' steps may fall between (R50, R249): what it has read so
far and the sub-step it takes next. -/
inductive Progress where
  /-- `ENC.UPDATE` after U1 with the folded difference; U2 is next (R197). -/
  | updateU2 (delta : Int)
  /-- `ENC.UPDATE` after U2 with the `total` it read; U3 is next (R197). -/
  | updateU3 (delta : Int) (t : Word)
  /-- `PRT.TICK` after P1 found the timer expired; P2 is next (R180). -/
  | protP2
  /-- `PRT.TICK` in P3 with the sum of the cells before `i`; the read of cell `i` is next (R180, R181). -/
  | protRead (i sum : Nat)
  /-- `PRT.TICK` after the last read of P3; P4 and P5 are next (R180). -/
  | protP5 (sum : Nat)
  /-- `PRT.TICK` after P5 with the average; P6 is next (R180). -/
  | protP6 (avg : Nat)
  deriving DecidableEq, Repr

/-- The whole state. The fields down to `mem` are the spec's (10_state.md); the rest carries the run: what the host was
answered (R274), the steps still to come (R100), and the model's own bookkeeping. -/
structure State where
  /-- R24 to R26. -/
  tick : TickUnit
  /-- `TMR[0..3]` (R45). -/
  tmr : Vector Timer 4
  /-- R27 to R35. -/
  smp : Sampler
  /-- `MOTOR_EN` (R36). -/
  motorEn : Bool
  /-- R37 to R43. -/
  enc : Encoder
  /-- `BTN[0..7]` (R46). -/
  btn : Vector Button 8
  /-- `MGR`, `MGR_INITED` (R48). -/
  mgr : Manager
  /-- `GPIO_IN[port][pin]` (R49). -/
  gpioIn : Vector (Vector Bool 16) 16
  /-- `THRESH` and the configuration switches (R8, R43, R270): no step writes them. -/
  cfg : Params
  /-- Data memory (R70): the bytes something has written. -/
  mem : List Host.Cell
  /-- R50, R249: the sub-stepped host command in progress. -/
  inProgress : Option Progress
  /-- R274: the status and response of every host command that has returned, the latest first. -/
  responses : List Response
  /-- R100: the step words and extension words still to come, given from outside. -/
  trace : List Word
  /-- The model's own (log 4): who moves next while a sub-stepped command is in progress (R249), `true` another agent,
  `false` the host; given from outside, the earliest first. -/
  preempt : List Bool
  /-- The model's own (log 1): how many draws (R10) have been made. -/
  draws : Nat
  deriving DecidableEq, Repr

/-- R45: "created stopped". -/
def Timer.reset : Timer := { startMs := 0, intervalMs := 0, enabled := false, autoReload := false }

/-- R24 to R26: all 0. -/
def TickUnit.reset : TickUnit :=
  { ms := 0, systEn := false, systReload := 0, delay := { active := false, start := 0, n := 0 } }

/-- R27 to R35, R43: all 0. -/
def Sampler.reset : Sampler :=
  { inited := false, base := 0, n := 0, adcOn := false, adcRun := false, adcDr := 0, adcCont := false,
    adcAlignRight := false, adcRes12 := false, adcDma := false, adcDds := false, dmaCirc := false, dmaMinc := false,
    htie := false, tcie := false, teie := false, dmaEn := false, widx := 0, tcif := false, htif := false, teif := false,
    batchReady := false }

/-- R37 to R43: all 0. -/
def Encoder.reset : Encoder :=
  { cnt := 0, arr := 0, qa := false, qb := false, hwCount := 0, total := 0, lastHw := 0, lastTotal := 0,
    lastTickMs := 0, speedRpm := 0, cpr := 0, maxCount := 0, seeded := false, inited := false, cen := false,
    dir := false, uif := false, uie := false, pola := false, polb := false }

/-- R46: all 0, so not initialised. -/
def Button.reset : Button :=
  { port := 0, pin := 0, activeLevel := false, current := false, last := false, pressLatch := false, shiftReg := 0,
    initialized := false }

/-- R48: empty and not initialised. -/
def Manager.reset : Manager := { count := 0, slot := Vector.replicate 8 0, inited := false }

/-- R51: every element 0 or false, `THRESH` 3400 and the other configuration fields at their defaults, memory with
nothing written, no command in progress, and no step to come: a trace is given from outside (log 3). The values of
`preempt` and `draws` are the model's (logs 1 and 4, DESIGN CHOICE). -/
def State.reset : State :=
  { tick := .reset, tmr := Vector.replicate 4 .reset, smp := .reset, motorEn := false, enc := .reset,
    btn := Vector.replicate 8 .reset, mgr := .reset, gpioIn := Vector.replicate 16 (Vector.replicate 16 false),
    cfg := .default, mem := [], inProgress := none, responses := [], trace := [], preempt := [], draws := 0 }

/-- Why the machine stops with a fault. -/
inductive Fault where
  /-- Raised by a 16-bit access (`EV.SAMPLE`, `SMP.RDCELL`, a read of `PRT.TICK`) whose bytes do not both lie in the
  32-bit address space (R70). No admissible state reaches it (`SMP.INIT` checks the ring, R150). Safe: the machine
  stops where the spec defines nothing. -/
  | addressOutsideMemory
  deriving DecidableEq, Repr

/-- Why a step has no meaning. -/
inductive Refusal where
  /-- Raised by an arm of `exec` whose instruction has no meaning yet; no arm is left. Safe. -/
  | notModelled (mnemonic : String)
  /-- Raised by an event whose enabling condition is false: such a step cannot occur and is not a no-op (R11). Safe. -/
  | eventNotEnabled
  /-- Raised by `step` for a host word while a `TCK.DELAY` holds the host: it issues no command then (R26, R133). Safe. -/
  | hostHeld
  /-- Raised by `step` for an illegal word with `OP[7:4] = 0xE`: the trace is ill-formed (R105). Safe. -/
  | illFormedEvent
  /-- Raised by `step` for a trace that ends inside a step (R107). Safe. -/
  | truncatedStep
  /-- Raised by `step` when no word is left and no sub-stepped command is in progress: the run is over (R274). Safe. -/
  | endOfTrace
  deriving DecidableEq, Repr

/-- The outcome of one step of this machine. -/
abbrev Result := Host.Outcome State Fault Refusal

end Sys2Proof.Machine
end

