-- ==== Sys2Proof/Machine/Ops.lean ====
section
/-! DEFINITION. The operations the meanings share: data memory (20_memory.md), draws (R10), completing and raising
(R11, R241), the register files (R10), the software timer's test (R136), the host's hold (R133) and its turns (R249). -/

namespace Sys2Proof.Machine

/-! ## Data memory -/

/-- The canonical form: addresses strictly rising and inside the 32-bit space (R70). An unlisted address holds no
value, so no entry can equal what an unlisted address reads as. -/
abbrev Memory.wf (m : List Host.Cell) : Prop :=
  m.Pairwise (fun c d => c.1 < d.1) ∧ ∀ c ∈ m, c.1 < 0x100000000

/-- What is written at a byte address; `none` where nothing has written (R78). -/
def Memory.read : List Host.Cell → Nat → Option Byte
  | [], _ => none
  | (a, b) :: m, x => if x = a then some b else Memory.read m x

/-- Write one byte, in address order. -/
def Memory.write : List Host.Cell → Nat → Byte → List Host.Cell
  | [], x, v => [(x, v)]
  | (a, b) :: m, x, v =>
    if x < a then (x, v) :: (a, b) :: m
    else if x = a then (x, v) :: m
    else (a, b) :: Memory.write m x v

/-- The byte at an address: what was written last, or the unspecified initial content (R76, R78; log 2). -/
def Memory.byteAt (m : List Host.Cell) (a : Nat) : Byte := (Memory.read m a).getD (Config.initialByte a)

/-- `MemRead(a, 2)`, little-endian (R72); `none` outside the address space (R70). -/
def Memory.read16 (m : List Host.Cell) (a : Nat) : Option Half :=
  if a + 1 < 0x100000000 then some (Memory.byteAt m (a + 1) ++ Memory.byteAt m a) else none

/-- `MemWrite(a, 2, v)`, little-endian (R72); `none` outside the address space (R70). -/
def Memory.write16 (m : List Host.Cell) (a : Nat) (v : Half) : Option (List Host.Cell) :=
  if a + 1 < 0x100000000 then
    some (Memory.write (Memory.write m a (v.extractLsb' 0 8)) (a + 1) (v.extractLsb' 8 8))
  else none

/-- The parts of the half-open interval `[lo, hi)` outside one region. -/
def regionCut (r : Region) (p : Nat × Nat) : List (Nat × Nat) :=
  [(p.1, min p.2 r.base), (max p.1 (r.base + r.size), p.2)].filter fun q => decide (q.1 < q.2)

/-- The parts of the given intervals that no region covers. -/
def uncovered : List Region → List (Nat × Nat) → List (Nat × Nat)
  | [], ps => ps
  | r :: rs, ps => uncovered rs (ps.flatMap (regionCut r))

/-- R79: every byte of `[lo, hi)` lies in `MEM_REGION`. -/
def inRegion (rs : List Region) (lo hi : Nat) : Bool :=
  (uncovered rs ([(lo, hi)].filter fun q => decide (q.1 < q.2))).isEmpty

/-! ## Draws -/

/-- `draw({true, false})` (R10; log 1). -/
def drawBool (s : State) : Bool × State := (Config.drawBool s.draws, { s with draws := s.draws + 1 })

/-- `draw` of a 32-bit value (R10; log 1). -/
def drawWord (s : State) : Word × State := (Config.drawWord s.draws, { s with draws := s.draws + 1 })

/-! ## Completing and raising -/

/-- A host command returns a status and a response (R11, R102). -/
def State.respond (s : State) (st : Status) (rsp : Word) : State :=
  { s with responses := { st := st, rsp := rsp } :: s.responses }

/-- A command that does not raise ends with `ST = 0` and its response (R11). -/
def complete (s : State) (rsp : Word) : Result := .next (s.respond .success rsp)

/-- `raise <Kind>`: the one synchronous exception of the block. It records the status and nothing else: no cause, no
address, no saved word, `RSP` 0 (R11, R241). There is no return from it (R248). -/
def raise (s : State) (st : Status) : Result := .next (s.respond st 0)

/-- `c ? 1 : 0` (R102). -/
def flagWord (c : Bool) : Word := if c then 1 else 0

/-! ## Register files and inputs -/

/-- `TMR[t]` (R10, R45). -/
def State.timer (s : State) (t : BitVec 2) : Timer := s.tmr[t.toNat]'t.isLt

/-- `TMR[t] <- v` (R10, R45). -/
def State.setTimer (s : State) (t : BitVec 2) (v : Timer) : State := { s with tmr := s.tmr.set t.toNat v t.isLt }

/-- `BTN[b]` (R10, R46). -/
def State.button (s : State) (b : BitVec 3) : Button := s.btn[b.toNat]'b.isLt

/-- `BTN[b] <- v` (R10, R46). -/
def State.setButton (s : State) (b : BitVec 3) (v : Button) : State := { s with btn := s.btn.set b.toNat v b.isLt }

/-- `GpioIn(port, pin)` (R10, R49). -/
def State.gpioLevel (s : State) (port pin : BitVec 4) : Bool := (s.gpioIn[port.toNat]'port.isLt)[pin.toNat]'pin.isLt

/-- `GPIO_IN[port][pin] <- v` (R49). -/
def State.setGpio (s : State) (port pin : BitVec 4) (v : Bool) : State :=
  { s with gpioIn := s.gpioIn.set port.toNat ((s.gpioIn[port.toNat]'port.isLt).set pin.toNat v pin.isLt) port.isLt }

/-! ## Shared parts of commands -/

/-- `timer_expired(t)` with its side effects (R136): the answer and the state after. -/
def timerExpired (t : BitVec 2) (s : State) : Bool × State :=
  let now := s.tick.ms
  let tm := s.timer t
  if tm.enabled = false then (false, s)
  else if tm.intervalMs ≤ now - tm.startMs then
    if tm.autoReload then (true, s.setTimer t { tm with startMs := now })
    else (true, s.setTimer t { tm with enabled := false })
  else (false, s)

/-- `disable_attempt()` (R151): a draw, made only when the stream is enabled. -/
def disableAttempt (s : State) : Bool × State := drawBool s

/-- R133: the time a `TCK.DELAY` waits for has come. -/
def holdOver (s : State) : Bool := s.tick.delay.active && decide (s.tick.delay.n ≤ s.tick.ms - s.tick.delay.start)

/-- R133: a `TCK.DELAY` completes at the first point where its condition holds. -/
def releaseHold (s : State) : State :=
  if holdOver s then
    { s with tick := { s.tick with delay := { s.tick.delay with active := false } } }.respond .success 0
  else s

/-! ## Turns while a sub-stepped command is in progress -/

/-- The next word of the trace names another agent's step (R100). -/
def nextIsEvent (s : State) : Bool :=
  match s.trace with
  | [] => false
  | w :: _ => isEventWord w

/-- The next turn is another agent's (R249; log 4). -/
def othersTurn (s : State) : Bool := s.preempt.headD false

/-- R12, R100: the host issues the step; the other steps are its fellow agents' and the environment's. -/
def issuedByHost : Instr → Bool
  | .tckInit _ => true
  | .tckNow => true
  | .tckElapsed _ => true
  | .tckDelay _ => true
  | .tmrInit _ _ _ => true
  | .tmrStart _ => true
  | .tmrExpired _ => true
  | .smpInit _ _ => true
  | .smpStart => true
  | .smpReady => true
  | .smpClear => true
  | .smpRdcell _ => true
  | .smpGetf _ => true
  | .smpClrf _ => true
  | .smpDmaen => true
  | .smpDmadis => true
  | .prtTick => true
  | .motSet _ => true
  | .motGet => true
  | .encInit _ _ _ _ _ => true
  | .encStart => true
  | .encStop => true
  | .encReset => true
  | .encCount => true
  | .encDir => true
  | .encUpdate => true
  | .encRpm _ => true
  | .btnInit _ _ _ _ => true
  | .btnMinit => true
  | .btnAdd _ => true
  | .btnScan => true
  | .btnTake _ => true
  | .btnPressed _ => true
  | .evTick => false
  | .evSample _ => false
  | .evDmairq => false
  | .evDmate => false
  | .evQa _ => false
  | .evQb _ => false
  | .evEncirq => false
  | .evPin _ _ _ => false
  | .evReset => false

/-- The step that some words begin, put at the head of the trace (log 3); where a sub-stepped host command is in
progress, an event is given the turn. -/
def withStepWords (s : State) (ws : List Word) : State :=
  { s with
    trace := ws.take (stepLength (ws.headD 0)) ++ s.trace
    preempt := if s.inProgress.isSome && isEventWord (ws.headD 0) then true :: s.preempt else s.preempt }

/-- The turn has been taken. -/
def State.turnTaken (s : State) : State := { s with preempt := s.preempt.tail }

end Sys2Proof.Machine
end

