-- ==== Sys2Proof/Machine/Operands.lean ====
section
/-! DEFINITION. The values the rules compute from operands and state: cell addresses (R70), the fold of a count
difference (R198), the speed (R200), the effective quadrature levels (R203), the debounce law (R224). -/

namespace Sys2Proof.Machine

/-- R70: the byte address of cell `i`, `SMP_BASE + 2·i`. -/
def cellAddr (s : State) (i : Nat) : Nat := s.smp.base.toNat + 2 * i

/-- R38: the modulus `M = ENC_ARR + 1`. -/
def Encoder.modulus (e : Encoder) : Nat := e.arr.toNat + 1

/-- `toI32(z)`: the 32-bit pattern of `z mod 2^32` (R9). -/
def toI32 (z : Int) : Word := BitVec.ofInt 32 z

/-- `fold(r, M)` (R198). At `2·r = M` the sign is `fold_half`'s, a draw in its normative setting. -/
def fold (r m : Nat) (s : State) : Int × State :=
  if 2 * r < m then ((r : Int), s)
  else if m < 2 * r then ((r : Int) - (m : Int), s)
  else
    match s.cfg.foldHalf with
    | .plus => ((r : Int), s)
    | .minus => (-(r : Int), s)
    | .either => let d := drawBool s; (if d.1 then (r : Int) else -(r : Int), d.2)

/-- `r = (hw − last) mod M` (R197), the non-negative residue. -/
def countResidue (hw last : Half) (m : Nat) : Nat := (((hw.toNat : Int) - (last.toNat : Int)) % (m : Int)).toNat

/-- The exact quotient of R200, rounded toward zero. -/
def speedQuotient (total lastTotal : Word) (cpr : Half) (dt : Word) : Int :=
  ((total.toInt - lastTotal.toInt) * 60000).tdiv ((cpr.toNat : Int) * (dt.toNat : Int))

/-- The new speed (R200): the quotient where it fits `i32`, else a draw. A zero `cpr`, which no run from reset reaches,
leaves no quotient, and the value is a draw as well (log 9). -/
def speed (total lastTotal : Word) (cpr : Half) (dt : Word) (s : State) : Word × State :=
  let q := speedQuotient total lastTotal cpr dt
  if cpr ≠ 0 ∧ -(0x80000000 : Int) ≤ q ∧ q < 0x80000000 then (toI32 q, s) else drawWord s

/-- The average of P4 (R180): `floor(sum / SMP_N)`. With `SMP_N = 0`, which no run from reset reaches (R182), there is
no quotient, and the value is a draw (log 9). -/
def average (sum : Nat) (s : State) : Nat × State :=
  if s.smp.n = 0 then let d := drawWord s; (d.1.toNat, d.2) else (sum / s.smp.n.toNat, s)

/-- The response of a `PRT.TICK` that consumed a batch (R102, R180). -/
def protectionResponse (avg : Nat) (cut : Bool) : Word :=
  ((BitVec.ofNat 12 avg).setWidth 32 <<< 16) ||| (if cut then 2 else 0) ||| 1

/-- R203: the effective level of input A. -/
def Encoder.levelA (e : Encoder) : Bool := e.qa ^^ e.pola

/-- R203: the effective level of input B. -/
def Encoder.levelB (e : Encoder) : Bool := e.qb ^^ e.polb

/-- `sample(B)` at a pin level (R224). -/
def Button.sample (b : Button) (level : Bool) : Button :=
  let raw : BitVec 8 := if level = b.activeLevel then 1 else 0
  let shift := (b.shiftReg <<< 1) ||| raw
  let w := shift.extractLsb' 0 4
  let press := decide (w = 0b1111#4) && !b.current
  let release := decide (w = 0b0000#4) && b.current
  { b with
    shiftReg := shift
    last := b.current
    current := if press then true else if release then false else b.current
    pressLatch := if press then true else b.pressLatch }

/-- R48: the registered handles, in the order of registration. -/
def Manager.registered (m : Manager) : List (BitVec 3) := m.slot.toList.take m.count.toNat

end Sys2Proof.Machine
end

