-- ==== Sys2Proof/Machine/ButtonUnit.lean ====
section
/-! DEFINITION. The button scanner and debouncer (44_button.md). -/

namespace Sys2Proof.Machine

/-- `BTN.INIT` (R220). -/
def execBtnInit (b : BitVec 3) (pin port : BitVec 4) (al : Bool) (s : State) : Result :=
  complete (s.setButton b
    { port := port, pin := pin, activeLevel := al, current := false, last := false, pressLatch := false,
      shiftReg := 0, initialized := true }) 0

/-- `BTN.MINIT` (R221). -/
def execBtnMinit (s : State) : Result :=
  let s' := s.setTimer 1 { startMs := s.tick.ms, intervalMs := 5, enabled := true, autoReload := true }
  complete { s' with mgr := { s'.mgr with count := 0, inited := true } } 0

/-- `BTN.ADD` (R222): the four checks in their order. -/
def execBtnAdd (b : BitVec 3) (s : State) : Result :=
  if s.mgr.inited = false then raise s .uninitialized
  else if (s.button b).initialized = false then raise s .uninitialized
  else if s.mgr.count = 8 then raise s .invalidArgument
  else if b ∈ s.mgr.registered then raise s .invalidArgument
  else
    complete { s with mgr := { s.mgr with
      slot := s.mgr.slot.setIfInBounds s.mgr.count.toNat b, count := s.mgr.count + 1 } } 0

/-- One handle takes one sample of its pin (R224). -/
def sampleHandle (s : State) (b : BitVec 3) : State :=
  let h := s.button b
  s.setButton b (h.sample (s.gpioLevel h.port h.pin))

/-- `BTN.SCAN` (R223): every registered handle, in the order of registration, at one pin state. -/
def execBtnScan (s : State) : Result :=
  if s.mgr.inited = false then raise s .uninitialized
  else
    let e := timerExpired 1 s
    if e.1 then complete (e.2.mgr.registered.foldl sampleHandle e.2) 1 else complete e.2 0

/-- `BTN.TAKE` (R225): the latch is returned and cleared in one step. -/
def execBtnTake (b : BitVec 3) (s : State) : Result :=
  let h := s.button b
  if h.initialized = false then raise s .uninitialized
  else complete (s.setButton b { h with pressLatch := false }) (flagWord h.pressLatch)

/-- `BTN.PRESSED` (R226). -/
def execBtnPressed (b : BitVec 3) (s : State) : Result :=
  let h := s.button b
  if h.initialized = false then raise s .uninitialized else complete s (flagWord h.current)

/-- `EV.PIN` (R227). -/
def execEvPin (v1 : Bool) (pin port : BitVec 4) (s : State) : Result := .next (s.setGpio port pin v1)

end Sys2Proof.Machine
end

