-- ==== Sys2Proof/Machine/Flags.lean ====
section
/-! DEFINITION. The status flags (R44): the stream's sticky flags (R34), the counter's direction and update flags
(R203), and the pending conditions, which are functions of flags and enables (R50, R244). There are no arithmetic
condition codes (R44). -/

namespace Sys2Proof.Machine

/-- The enable sequence's clear of the three stream flags (R150, R152). -/
def Sampler.clearFlags (p : Sampler) : Sampler := { p with tcif := false, htif := false, teif := false }

/-- Some stream flag is set (R158). -/
def Sampler.anyFlag (p : Sampler) : Bool := p.tcif || p.htif || p.teif

/-- `(DMA_TCIF, DMA_HTIF, DMA_TEIF)[f]` (R156); `none` for `f = 3`, which names no flag. -/
def Sampler.flag (p : Sampler) (f : BitVec 2) : Option Bool :=
  if f = 0 then some p.tcif else if f = 1 then some p.htif else if f = 2 then some p.teif else none

/-- `(DMA_TCIF, DMA_HTIF, DMA_TEIF)[f] <- false` (R163); `none` for `f = 3`. -/
def Sampler.clearFlag (p : Sampler) (f : BitVec 2) : Option Sampler :=
  if f = 0 then some { p with tcif := false }
  else if f = 1 then some { p with htif := false }
  else if f = 2 then some { p with teif := false }
  else none

/-- The flag and index update after a transfer (R155): half transfer after cell `SMP_N/2 − 1`, transfer complete after
cell `SMP_N − 1` with the circular wrap; both flags sticky. -/
def Sampler.transferred (p : Sampler) : Sampler :=
  let w := p.widx.toNat + 1
  { p with
    htif := p.htif || decide (w = p.n.toNat / 2)
    tcif := p.tcif || decide (w = p.n.toNat)
    widx := if w = p.n.toNat then 0 else BitVec.ofNat 16 w }

/-- The stream's interrupt is pending (R50, R160, R244). -/
def Sampler.irqPending (p : Sampler) : Bool := (p.tcif && p.tcie) || (p.htif && p.htie)

/-- The encoder's update interrupt is pending (R50, R205, R244). -/
def Encoder.irqPending (e : Encoder) : Bool := e.uif && e.uie

/-- `count_up` (R203): the overflow wraps to 0 and sets the update flag. -/
def Encoder.countUp (e : Encoder) : Encoder :=
  if e.cnt = e.arr then { e with cnt := 0, uif := true, dir := false } else { e with cnt := e.cnt + 1, dir := false }

/-- `count_down` (R203): the underflow wraps to the top value and sets the update flag. -/
def Encoder.countDown (e : Encoder) : Encoder :=
  if e.cnt = 0 then { e with cnt := e.arr, uif := true, dir := true } else { e with cnt := e.cnt - 1, dir := true }

end Sys2Proof.Machine
end

