-- ==== Sys2Proof/Machine/SubSteps.lean ====
section
/-! DEFINITION. The sub-steps of the two host commands other agents' steps may fall between, `ENC.UPDATE` (R197, R199)
and `PRT.TICK` (R180, R181), and the host's run through them for as long as the turns are the host's (R249). -/

namespace Sys2Proof.Machine

/-- The sub-step after a read of P3, or after P2: the next cell's read, or P5 when every cell has been read. -/
def protNext (s : State) (i sum : Nat) : Progress :=
  if i < s.smp.n.toNat then .protRead i sum else .protP5 sum

/-- U2 (R197): one read of `total`. -/
def encUpdateU2 (delta : Int) (s : State) : Result :=
  .next { s with inProgress := some (.updateU3 delta s.enc.total) }

/-- U3 (R197): one write of `total`, from the value U2 read, and the response. -/
def encUpdateU3 (delta : Int) (t : Word) (s : State) : Result :=
  let total := toI32 (t.toInt + delta)
  complete { s with enc := { s.enc with total := total, lastHw := s.enc.hwCount }, inProgress := none } total

/-- P2 (R180): the batch test, and the arm no run from reset reaches (R182). -/
def protP2 (s : State) : Result :=
  if s.smp.batchReady = false then complete { s with inProgress := none } 0
  else if s.smp.inited = false then raise { s with inProgress := none } .uninitialized
  else .next { s with inProgress := some (protNext s 0 0) }

/-- One read of P3 (R180, R75). -/
def protRead (i sum : Nat) (s : State) : Result :=
  match Memory.read16 s.mem (cellAddr s i) with
  | none => .fault .addressOutsideMemory
  | some v => .next { s with inProgress := some (protNext s (i + 1) (sum + v.toNat)) }

/-- P4 and P5 (R180): the average, which touches no shared state (R181), then the clear of `BATCH_READY`. -/
def protP5 (sum : Nat) (s : State) : Result :=
  let a := average sum s
  .next { a.2 with smp := { a.2.smp with batchReady := false }, inProgress := some (.protP6 a.1) }

/-- P6 (R180): the strict comparison, the cut and the response. -/
def protP6 (avg : Nat) (s : State) : Result :=
  let cut := decide (s.cfg.thresh.toNat < avg)
  complete { s with motorEn := if cut then false else s.motorEn, inProgress := none } (protectionResponse avg cut)

/-- One sub-step of the command in progress. -/
def subStep (p : Progress) (s : State) : Result :=
  match p with
  | .updateU2 delta => encUpdateU2 delta s
  | .updateU3 delta t => encUpdateU3 delta t s
  | .protP2 => protP2 s
  | .protRead i sum => protRead i sum s
  | .protP5 sum => protP5 sum s
  | .protP6 avg => protP6 avg s

/-- The host takes the sub-steps of its command in progress while the turns are its own, at most `fuel` of them; each
takes one turn, and with no turn given the host goes on (R249; log 4). -/
def runHost : Nat → State → Result
  | 0, s => .next s
  | fuel + 1, s =>
    match s.inProgress with
    | none => .next s
    | some p =>
      if othersTurn s then .next s
      else
        match subStep p s.turnTaken with
        | .next s' => runHost fuel s'
        | .fault r => .fault r
        | .refused r => .refused r

/-- No command has more sub-steps left than this: P2, the `SMP_N` reads, P5 and P6. -/
def subStepsLeft (s : State) : Nat := s.smp.n.toNat + 3

/-- The host goes on with its command in progress. -/
def continueHost (s : State) : Result := runHost (subStepsLeft s) s

/-- The host takes this turn, and then goes on: the turn is its own, or another agent was given it and has no step to
take. -/
def resumeHost (p : Progress) (s : State) : Result :=
  match subStep p s.turnTaken with
  | .next s' => continueHost s'
  | .fault r => .fault r
  | .refused r => .refused r

end Sys2Proof.Machine
end

