-- ==== Sys2Proof/Machine/EncoderUnit.lean ====
section
/-! DEFINITION. The quadrature encoder decoder (43_encoder.md). -/

namespace Sys2Proof.Machine

/-- `ENC.INIT` (R190): the input levels are kept. -/
def execEncInit (polA polB uie : Bool) (cpr maxCount : BitVec 16) (s : State) : Result :=
  if cpr = 0 ∨ maxCount = 0 then raise s .invalidArgument
  else
    complete { s with enc := { s.enc with
      cpr := cpr, maxCount := maxCount, arr := maxCount
      hwCount := 0, lastHw := 0, total := 0, lastTotal := 0, lastTickMs := 0, speedRpm := 0, seeded := false
      cnt := 0, dir := false, uif := false, cen := false
      pola := polA, polb := polB, uie := uie, inited := true } } 0

/-- `ENC.START` (R193). -/
def execEncStart (s : State) : Result :=
  if s.enc.inited = false then raise s .uninitialized
  else complete { s with enc := { s.enc with cen := true } } 0

/-- `ENC.STOP` (R194). -/
def execEncStop (s : State) : Result :=
  if s.enc.inited = false then raise s .uninitialized
  else complete { s with enc := { s.enc with cen := false } } 0

/-- `ENC.RESET` (R195): the configuration, the enable, the direction and the input levels are kept. -/
def execEncReset (s : State) : Result :=
  if s.enc.inited = false then raise s .uninitialized
  else
    complete { s with enc := { s.enc with
      cnt := 0, uif := false, hwCount := 0, lastHw := 0, total := 0, lastTotal := 0, lastTickMs := 0,
      speedRpm := 0, seeded := false } } 0

/-- `ENC.COUNT` (R192). -/
def execEncCount (s : State) : Result :=
  if s.enc.inited = false then raise s .uninitialized else complete s s.enc.total

/-- `ENC.DIR` (R196): 1 forward, −1 reverse. -/
def execEncDir (s : State) : Result :=
  if s.enc.inited = false then raise s .uninitialized
  else complete s (if s.enc.dir = false then 0x00000001 else 0xFFFFFFFF)

/-- `ENC.UPDATE` (R197): U1, and then the sub-steps for as long as the turns are the host's (R199). -/
def execEncUpdate (s : State) : Result :=
  if s.enc.inited = false then raise s .uninitialized
  else
    let f := fold (countResidue s.enc.cnt s.enc.lastHw s.enc.modulus) s.enc.modulus s
    continueHost { f.2 with enc := { f.2.enc with hwCount := s.enc.cnt }, inProgress := some (.updateU2 f.1) }

/-- `ENC.RPM` (R201). -/
def execEncRpm (nowMs : Word) (s : State) : Result :=
  if s.enc.inited = false then raise s .uninitialized
  else if s.enc.seeded = false then
    complete { s with enc := { s.enc with lastTickMs := nowMs, lastTotal := s.enc.total, seeded := true } } 0
  else
    let dt := nowMs - s.enc.lastTickMs
    if dt = 0 then complete s s.enc.speedRpm
    else
      let v := speed s.enc.total s.enc.lastTotal s.enc.cpr dt s
      complete { v.2 with enc := { v.2.enc with
        speedRpm := v.1, lastTotal := v.2.enc.total, lastTickMs := nowMs } } v.1

/-- `EV.QA` (R202, R203): up when the effective levels differ after the change. -/
def execEvQa (v1 : Bool) (s : State) : Result :=
  if v1 = s.enc.qa then .next s
  else
    let e := { s.enc with qa := v1 }
    if e.cen then .next { s with enc := if e.levelA ≠ e.levelB then e.countUp else e.countDown }
    else .next { s with enc := e }

/-- `EV.QB` (R204, R203): up when the effective levels agree after the change. -/
def execEvQb (v1 : Bool) (s : State) : Result :=
  if v1 = s.enc.qb then .next s
  else
    let e := { s.enc with qb := v1 }
    if e.cen then .next { s with enc := if e.levelA = e.levelB then e.countUp else e.countDown }
    else .next { s with enc := e }

/-- `EV.ENCIRQ` (R205): the handler reads the direction when it runs. -/
def execEvEncirq (s : State) : Result :=
  if s.enc.irqPending then
    let m : Int := s.enc.modulus
    .next { s with enc := { s.enc with
      uif := false
      total := if s.enc.dir = false then toI32 (s.enc.total.toInt + m) else toI32 (s.enc.total.toInt - m) } }
  else .refused .eventNotEnabled

end Sys2Proof.Machine
end

