-- ==== Sys2Proof/Machine/Protection.lean ====
section
/-! DEFINITION. The protection loop and the motor-enable line (42_protection.md). -/

namespace Sys2Proof.Machine

/-- `PRT.TICK` (R180): P1, and then the sub-steps for as long as the turns are the host's (R181). -/
def execPrtTick (s : State) : Result :=
  let e := timerExpired 0 s
  if e.1 then continueHost { e.2 with inProgress := some .protP2 } else complete e.2 0

/-- `MOT.SET` (R183). -/
def execMotSet (v1 : Bool) (s : State) : Result := complete { s with motorEn := v1 } 0

/-- `MOT.GET` (R184). -/
def execMotGet (s : State) : Result := complete s (flagWord s.motorEn)

end Sys2Proof.Machine
end

