-- ==== Sys2Proof/Machine/Reset.lean ====
section
/-! DEFINITION. Reset of the block (70_reset_and_hazards.md). -/

namespace Sys2Proof.Machine

/-- `EV.RESET` (R270): every element at its reset value and the command in progress abandoned; the configuration
fields, data memory (R271) and what belongs to the run and not to the block are kept. -/
def execEvReset (s : State) : Result :=
  .next { State.reset with
    cfg := s.cfg, mem := s.mem, responses := s.responses, trace := s.trace, preempt := s.preempt, draws := s.draws }

end Sys2Proof.Machine
end

