-- ==== Sys2Proof/Machine/SamplerUnit.lean ====
section
/-! DEFINITION. The sampler (41_sampler.md). -/

namespace Sys2Proof.Machine

/-- The operand checks of `SMP.INIT` in their order: length, alignment, region (R150, R250). -/
def smpInitOperandsOk (base len : Word) (s : State) : Bool :=
  decide (len.toNat ≠ 0) && decide (len.toNat % 2 = 0) && decide (len.toNat ≤ 65534)
    && decide (base.toNat % 2 = 0)
    && decide (base.toNat + 2 * len.toNat ≤ 0x100000000)
    && inRegion s.cfg.memRegion base.toNat (base.toNat + 2 * len.toNat)

/-- What a successful `SMP.INIT` leaves (R150, R161). -/
def Sampler.configured (p : Sampler) (base len : Word) : Sampler :=
  { p.clearFlags with
    dmaEn := false, base := base, n := len.setWidth 16, widx := 0
    adcCont := true, adcAlignRight := true, adcRes12 := true, adcDma := true, adcDds := true
    dmaCirc := true, dmaMinc := true, htie := true, tcie := true, teie := false
    adcOn := false, adcRun := false, batchReady := false, inited := true }

/-- `SMP.INIT` (R150). -/
def execSmpInit (base len : Word) (s : State) : Result :=
  if smpInitOperandsOk base len s = false then raise s .invalidArgument
  else if s.smp.dmaEn then
    let d := disableAttempt s
    if d.1 then complete { d.2 with smp := d.2.smp.configured base len } 0
    else raise d.2 .peripheralBusy
  else complete { s with smp := s.smp.configured base len } 0

/-- `SMP.START` (R152): the flags are cleared as part of the enable sequence. -/
def execSmpStart (s : State) : Result :=
  if s.smp.inited = false then raise s .uninitialized
  else
    complete { s with smp := { s.smp.clearFlags with
      dmaEn := true, widx := if s.smp.dmaEn then s.smp.widx else 0, adcOn := true, adcRun := true } } 0

/-- `SMP.READY` (R153). -/
def execSmpReady (s : State) : Result := complete s (flagWord s.smp.batchReady)

/-- `SMP.CLEAR` (R154). -/
def execSmpClear (s : State) : Result := complete { s with smp := { s.smp with batchReady := false } } 0

/-- `SMP.RDCELL` (R157). -/
def execSmpRdcell (i : BitVec 16) (s : State) : Result :=
  if s.smp.inited = false then raise s .uninitialized
  else if s.smp.n ≤ i then raise s .invalidArgument
  else
    match Memory.read16 s.mem (cellAddr s i.toNat) with
    | none => .fault .addressOutsideMemory
    | some v => complete s (v.setWidth 32)

/-- `SMP.GETF` (R156). -/
def execSmpGetf (f : BitVec 2) (s : State) : Result :=
  match s.smp.flag f with
  | none => raise s .invalidArgument
  | some c => complete s (flagWord c)

/-- `SMP.CLRF` (R163). -/
def execSmpClrf (f : BitVec 2) (s : State) : Result :=
  match s.smp.clearFlag f with
  | none => raise s .invalidArgument
  | some p => complete { s with smp := p } 0

/-- `SMP.DMAEN` (R158): an enable with a flag set is refused silently, with `ST = 0`. -/
def execSmpDmaen (s : State) : Result :=
  if s.smp.inited = false then raise s .uninitialized
  else if s.smp.dmaEn || s.smp.anyFlag then complete s 0
  else complete { s with smp := { s.smp with dmaEn := true, widx := 0 } } 0

/-- `SMP.DMADIS` (R159): a disable that succeeds may leave either event flag set, each by a draw. -/
def execSmpDmadis (s : State) : Result :=
  if s.smp.dmaEn = false then complete s 0
  else
    let d := disableAttempt s
    if d.1 then
      let tc := drawBool d.2
      let ht := drawBool tc.2
      complete { ht.2 with smp := { ht.2.smp with
        dmaEn := false, tcif := ht.2.smp.tcif || tc.1, htif := ht.2.smp.htif || ht.1 } } 0
    else raise d.2 .peripheralBusy

/-- `EV.SAMPLE` (R155): the conversion, then, with the stream enabled, the cell write and after it the flags (R81). -/
def execEvSample (v12 : BitVec 12) (s : State) : Result :=
  if s.smp.adcOn && s.smp.adcRun then
    let v : Half := v12.setWidth 16
    if s.smp.dmaEn then
      match Memory.write16 s.mem (cellAddr s s.smp.widx.toNat) v with
      | none => .fault .addressOutsideMemory
      | some m => .next { s with mem := m, smp := { s.smp with adcDr := v }.transferred }
    else .next { s with smp := { s.smp with adcDr := v } }
  else .refused .eventNotEnabled

/-- `EV.DMAIRQ` (R160): one handler run serves whichever of the two flags is set and enabled. -/
def execEvDmairq (s : State) : Result :=
  if s.smp.irqPending then
    .next { s with smp := { s.smp with
      htif := s.smp.htif && !s.smp.htie
      tcif := s.smp.tcif && !s.smp.tcie
      batchReady := s.smp.batchReady || (s.smp.tcif && s.smp.tcie) } }
  else .refused .eventNotEnabled

/-- `EV.DMATE` (R162). -/
def execEvDmate (s : State) : Result :=
  if s.cfg.teAdmitted && s.smp.dmaEn then
    .next { s with smp := { s.smp with teif := true, dmaEn := false } }
  else .refused .eventNotEnabled

end Sys2Proof.Machine
end

