-- ==== Sys2Proof/Machine/Tick.lean ====
section
/-! DEFINITION. The tick source and the software timers (40_tick.md). -/

namespace Sys2Proof.Machine

/-- `TCK.INIT` (R130). `ReloadTooLarge` cannot be reached with a 32-bit `f_cpu`; it is kept because the rule has it. -/
def execTckInit (fCpu : Word) (s : State) : Result :=
  if fCpu.toNat < 1000 then raise s .invalidArgument
  else
    let reload := fCpu.toNat / 1000 - 1
    if 0xFFFFFF < reload then raise s .reloadTooLarge
    else complete { s with tick := { s.tick with systReload := BitVec.ofNat 24 reload, systEn := true } } 0

/-- `TCK.NOW` (R131). -/
def execTckNow (s : State) : Result := complete s s.tick.ms

/-- `TCK.ELAPSED` (R132). -/
def execTckElapsed (since : Word) (s : State) : Result := complete s (s.tick.ms - since)

/-- `TCK.DELAY` (R133): the hold begins, and ends at once when its condition already holds. -/
def execTckDelay (n : Word) (s : State) : Result :=
  .next (releaseHold { s with tick := { s.tick with delay := { active := true, start := s.tick.ms, n := n } } })

/-- `TMR.INIT` (R134). -/
def execTmrInit (t : BitVec 2) (ar : Bool) (interval : Word) (s : State) : Result :=
  complete (s.setTimer t { startMs := 0, intervalMs := interval, enabled := false, autoReload := ar }) 0

/-- `TMR.START` (R135). -/
def execTmrStart (t : BitVec 2) (s : State) : Result :=
  complete (s.setTimer t { s.timer t with startMs := s.tick.ms, enabled := true }) 0

/-- `TMR.EXPIRED` (R136). -/
def execTmrExpired (t : BitVec 2) (s : State) : Result :=
  let e := timerExpired t s
  complete e.2 (flagWord e.1)

/-- `EV.TICK` (R137), and the end of a `TCK.DELAY` that this tick was the last of (R133). -/
def execEvTick (s : State) : Result :=
  if s.tick.systEn then .next (releaseHold { s with tick := { s.tick with ms := s.tick.ms + 1 } })
  else .refused .eventNotEnabled

end Sys2Proof.Machine
end

