-- ==== Sys2Proof/Machine/Dispatch.lean ====
section
/-! DEFINITION. The dispatch: one arm per constructor, each one call of the instruction's meaning. -/

namespace Sys2Proof.Machine

/-- One step word's meaning (R104). -/
def exec (i : Instr) (s : State) : Host.Outcome State Fault Refusal :=
  match i with
  | .tckInit fCpu => Sys2Proof.Machine.execTckInit fCpu s
  | .tckNow => Sys2Proof.Machine.execTckNow s
  | .tckElapsed since => Sys2Proof.Machine.execTckElapsed since s
  | .tckDelay n => Sys2Proof.Machine.execTckDelay n s
  | .tmrInit t ar interval => Sys2Proof.Machine.execTmrInit t ar interval s
  | .tmrStart t => Sys2Proof.Machine.execTmrStart t s
  | .tmrExpired t => Sys2Proof.Machine.execTmrExpired t s
  | .smpInit base len => Sys2Proof.Machine.execSmpInit base len s
  | .smpStart => Sys2Proof.Machine.execSmpStart s
  | .smpReady => Sys2Proof.Machine.execSmpReady s
  | .smpClear => Sys2Proof.Machine.execSmpClear s
  | .smpRdcell j => Sys2Proof.Machine.execSmpRdcell j s
  | .smpGetf f => Sys2Proof.Machine.execSmpGetf f s
  | .smpClrf f => Sys2Proof.Machine.execSmpClrf f s
  | .smpDmaen => Sys2Proof.Machine.execSmpDmaen s
  | .smpDmadis => Sys2Proof.Machine.execSmpDmadis s
  | .prtTick => Sys2Proof.Machine.execPrtTick s
  | .motSet v1 => Sys2Proof.Machine.execMotSet v1 s
  | .motGet => Sys2Proof.Machine.execMotGet s
  | .encInit polA polB uie cpr maxCount => Sys2Proof.Machine.execEncInit polA polB uie cpr maxCount s
  | .encStart => Sys2Proof.Machine.execEncStart s
  | .encStop => Sys2Proof.Machine.execEncStop s
  | .encReset => Sys2Proof.Machine.execEncReset s
  | .encCount => Sys2Proof.Machine.execEncCount s
  | .encDir => Sys2Proof.Machine.execEncDir s
  | .encUpdate => Sys2Proof.Machine.execEncUpdate s
  | .encRpm nowMs => Sys2Proof.Machine.execEncRpm nowMs s
  | .btnInit b pin port al => Sys2Proof.Machine.execBtnInit b pin port al s
  | .btnMinit => Sys2Proof.Machine.execBtnMinit s
  | .btnAdd b => Sys2Proof.Machine.execBtnAdd b s
  | .btnScan => Sys2Proof.Machine.execBtnScan s
  | .btnTake b => Sys2Proof.Machine.execBtnTake b s
  | .btnPressed b => Sys2Proof.Machine.execBtnPressed b s
  | .evTick => Sys2Proof.Machine.execEvTick s
  | .evSample v12 => Sys2Proof.Machine.execEvSample v12 s
  | .evDmairq => Sys2Proof.Machine.execEvDmairq s
  | .evDmate => Sys2Proof.Machine.execEvDmate s
  | .evQa v1 => Sys2Proof.Machine.execEvQa v1 s
  | .evQb v1 => Sys2Proof.Machine.execEvQb v1 s
  | .evEncirq => Sys2Proof.Machine.execEvEncirq s
  | .evPin v1 pin port => Sys2Proof.Machine.execEvPin v1 pin port s
  | .evReset => Sys2Proof.Machine.execEvReset s

end Sys2Proof.Machine
end

