-- ==== Sys2Proof/Machine/Trace.lean ====
section
/-! DEFINITION. Taking steps from the trace (R100), and whose step comes next while a sub-stepped host command is in
progress (R249). -/

namespace Sys2Proof.Machine

/-- Take the next step of the trace (R100, R105, R107). While a `TCK.DELAY` holds the host it issues nothing (R133), so
a trace that has a host word there is refused. -/
def runTrace (s : State) : Result :=
  match decode s.trace with
  | .step i rest => if s.tick.delay.active && issuedByHost i then .refused .hostHeld else exec i { s with trace := rest }
  | .illegalHost rest =>
    if s.tick.delay.active then .refused .hostHeld else raise { s with trace := rest } .invalidArgument
  | .illegalEvent => .refused .illFormedEvent
  | .truncated => .refused .truncatedStep
  | .ended => .refused .endOfTrace

/-- The next step of the run. While a sub-stepped host command is in progress, the turn says whether another agent's
step comes first (R249; log 4); the host issues no other command before this one is complete (R85). -/
def nextStep (s : State) : Result :=
  match s.inProgress with
  | none => runTrace s
  | some p => if othersTurn s && nextIsEvent s then runTrace s.turnTaken else resumeHost p s

end Sys2Proof.Machine
end

