-- ==== Sys2Proof/Machine/Step.lean ====
section
/-! DEFINITION. One step of the machine. -/

namespace Sys2Proof.Machine

/-- One step: the next step word of the trace (R100), or the host's command in progress going on (R249). -/
def step (s : State) : Host.Outcome State Fault Refusal := nextStep s

/-- The words of a table row's instruction stored at the head of the trace, as many as its format has (R107), so that
the next step runs it. The trace is how a program comes to run: it is given from outside the machine (log 3). -/
def State.withFetchWord (s : State) (nbits w : Nat) : State := withStepWords s (tableWords nbits w)

end Sys2Proof.Machine
end

