-- ==== Sys2Proof/Safety.lean ====
section
/-! DEFINITION. What counts as an admissible state (the invariants the spec states and the start states it refuses,
93_implementation_defined.md U23), a safe outcome, and a run of instructions. -/

namespace Sys2Proof.Machine

/-- R26, R133: a hold has a time still to come, and the held host has no other command in progress. -/
abbrev State.delayOk (s : State) : Prop :=
  s.tick.delay.active = true → s.inProgress = none ∧ holdOver s = false

/-- R28, R33, R70, R73, R79, R150: the ring of an initialised sampler. -/
abbrev State.ringOk (s : State) : Prop :=
  s.smp.inited = true →
    2 ≤ s.smp.n.toNat ∧ s.smp.n.toNat % 2 = 0 ∧ s.smp.n.toNat ≤ 65534 ∧ s.smp.base.toNat % 2 = 0
      ∧ s.smp.base.toNat + 2 * s.smp.n.toNat ≤ 0x100000000
      ∧ inRegion s.cfg.memRegion s.smp.base.toNat (s.smp.base.toNat + 2 * s.smp.n.toNat) = true
      ∧ s.smp.widx.toNat < s.smp.n.toNat

/-- R43, R161: what a successful `SMP.INIT` fixes, and nothing else sets; R30, R32, R182: nothing of the sampler runs
before it; R31: a sample has 12 bits. -/
abbrev State.samplerOk (s : State) : Prop :=
  s.smp.adcCont = s.smp.inited ∧ s.smp.adcAlignRight = s.smp.inited ∧ s.smp.adcRes12 = s.smp.inited
    ∧ s.smp.adcDma = s.smp.inited ∧ s.smp.adcDds = s.smp.inited ∧ s.smp.dmaCirc = s.smp.inited
    ∧ s.smp.dmaMinc = s.smp.inited ∧ s.smp.htie = s.smp.inited ∧ s.smp.tcie = s.smp.inited
    ∧ s.smp.teie = false ∧ s.smp.adcOn = s.smp.adcRun
    ∧ (s.smp.inited = false → s.smp.adcOn = false ∧ s.smp.dmaEn = false ∧ s.smp.batchReady = false)
    ∧ s.smp.adcDr.toNat < 4096

/-- R37, R38, R190: the counter and its copies lie within the top value, and the configuration is what `ENC.INIT`
accepted; R42, R193: nothing counts before it. -/
abbrev State.encoderOk (s : State) : Prop :=
  s.enc.cnt.toNat ≤ s.enc.arr.toNat ∧ s.enc.hwCount.toNat ≤ s.enc.arr.toNat
    ∧ s.enc.lastHw.toNat ≤ s.enc.arr.toNat
    ∧ (s.enc.inited = true → s.enc.arr = s.enc.maxCount ∧ s.enc.maxCount ≠ 0 ∧ s.enc.cpr ≠ 0)
    ∧ (s.enc.inited = false →
        s.enc.arr = 0 ∧ s.enc.cen = false ∧ s.enc.uif = false ∧ s.enc.uie = false ∧ s.enc.seeded = false)

/-- R48, R222: at most 8 handles are registered, each once, each initialised, and none before `BTN.MINIT`. -/
abbrev State.managerOk (s : State) : Prop :=
  s.mgr.count.toNat ≤ 8 ∧ (s.mgr.inited = false → s.mgr.count = 0)
    ∧ s.mgr.registered.Nodup ∧ ∀ b ∈ s.mgr.registered, (s.button b).initialized = true

/-- R29, R74: the canonical form, and no half-word above 4095: a high byte holds the top four bits of a 12-bit sample. -/
abbrev State.memoryOk (s : State) : Prop :=
  Memory.wf s.mem ∧ ∀ c ∈ s.mem, c.1 % 2 = 1 → c.2.toNat < 16

/-- R180, R181, R197, R198: what a sub-stepped command in progress has read fits the unit it reads. -/
def State.progressOk (s : State) : Bool :=
  match s.inProgress with
  | none => true
  | some (.updateU2 d) => s.enc.inited && decide (2 * d.natAbs ≤ s.enc.modulus)
  | some (.updateU3 d _) => s.enc.inited && decide (2 * d.natAbs ≤ s.enc.modulus)
  | some .protP2 => true
  | some (.protRead i sum) => s.smp.inited && decide (i < s.smp.n.toNat) && decide (sum ≤ i * 65535)
  | some (.protP5 sum) => s.smp.inited && decide (sum ≤ s.smp.n.toNat * 65535)
  | some (.protP6 avg) => s.smp.inited && decide (avg ≤ 65535)

/-- A state the spec admits: every state a run from reset reaches, whatever its trace, its turns and its configuration,
and no start state that U23 refuses. -/
structure State.Admissible (s : State) : Prop where
  delay : s.delayOk
  ring : s.ringOk
  sampler : s.samplerOk
  encoder : s.encoderOk
  manager : s.managerOk
  memory : s.memoryOk
  progress : s.progressOk = true

/-- A step is safe when it does not end in a fault: it goes on, or the trace asked for a step that cannot occur. -/
def safe (o : Result) : Prop := ∀ r, o ≠ .fault r

/-- R249, log 4: what comes of a sub-step of the host that leaves a state: the step ends there where the command is
complete or the next turn is another agent's, and otherwise goes on as the next step would. -/
def hostGoesOn (t : State) : Result :=
  if t.inProgress = none ∨ t.preempt.headD false = true then .next t else step t

/-- The half-word in cell `i` of the ring, as a number (R70, R72, R75). -/
def cellValue (s : State) (i : Nat) : Nat :=
  (Memory.byteAt s.mem (cellAddr s i + 1)).toNat * 256 + (Memory.byteAt s.mem (cellAddr s i)).toNat

/-- Several instructions one after another, with nothing between them. -/
def execAll : List Instr → State → Result
  | [], s => .next s
  | i :: is, s =>
    match exec i s with
    | .next t => execAll is t
    | .fault r => .fault r
    | .refused r => .refused r

/-- `EV.QSTEP +1` (R112): the one input event that counts up from the present levels. -/
def quadratureUp (e : Encoder) : Instr :=
  if e.levelA = e.levelB then .evQa (!e.qa) else .evQb (!e.qb)

/-- `EV.QSTEP −1` (R112): the one input event that counts down from the present levels. -/
def quadratureDown (e : Encoder) : Instr :=
  if e.levelA = e.levelB then .evQb (!e.qb) else .evQa (!e.qa)

/-- A run of `EV.QSTEP` (R112), one count for each entry, `true` up and `false` down; the event is chosen from the
levels at each. -/
def quadratureRun : List Bool → State → Result
  | [], s => .next s
  | up :: ds, s =>
    match exec (if up then quadratureUp s.enc else quadratureDown s.enc) s with
    | .next t => quadratureRun ds t
    | .fault r => .fault r
    | .refused r => .refused r

/-- The net number of counts of such a run, ups less downs (R206). -/
def netCounts : List Bool → Int
  | [] => 0
  | up :: ds => (if up then 1 else -1) + netCounts ds

/-- `BTN.POLL` (R112): five ticks and one scan. -/
def buttonPoll : List Instr := [.evTick, .evTick, .evTick, .evTick, .evTick, .btnScan]

/-- R101, R104: the words an encoding line gives are the instruction's, whatever follows them. -/
def DecodesTo (ws : List Word) (i : Instr) : Prop := ∀ rest, decode (ws ++ rest) = .step i rest

end Sys2Proof.Machine
end

