-- ==== Sys2Proof/Certificates/Slice0/Obligations.lean ====
section
/-! DEFINITION. The statements about MM-SEB for the provers. -/

open Sys2Proof Sys2Proof.Machine

/-! ## Encoding -/

/-- R100, R101, R104, R110: the words of every instruction decode to it, whatever follows them. -/
def Obligations.DecodeOfEncode : Prop := ∀ i : Instr, DecodesTo (encode i) i

/-- R105: no encoding executes as another: a decoded step's words are the words of its instruction. -/
def Obligations.EncodeOfDecode : Prop :=
  ∀ (ws rest : List Word) (i : Instr), decode ws = .step i rest → ws = encode i ++ rest

/-- Words of 96_test_programs.md (section 2.6) and of the rules' examples, with the instructions they stand for. -/
def Obligations.SpecWordsDecode : Prop :=
  decode [0x00000000, 0x0A037A00] = .step (.tckInit 168000000) []
    ∧ decode [0x04000101, 5] = .step (.tmrInit 1 true 5) []
    ∧ decode [0x10000000, 0x20000000, 200] = .step (.smpInit 0x20000000 200) []
    ∧ decode [0x20000000] = .step .prtTick []
    ∧ decode [0x30000000, 0xFFFF03E8] = .step (.encInit false false false 1000 65535) []
    ∧ decode [0x40000130] = .step (.btnInit 0 3 1 false) []
    ∧ decode [0xE1000DAC] = .step (.evSample 3500) []
    ∧ decode [0xE7000131] = .step (.evPin true 3 1) []
    ∧ decode [0xEF000000] = .step .evReset []

/-- R105: an illegal word of the host completes with `InvalidArgument`, changes no state and consumes no extension word;
an illegal event word makes the trace ill-formed. -/
def Obligations.IllegalWordOutcome : Prop :=
  ∀ (s : State) (w : Word) (rest : List Word),
    s.inProgress = none → s.tick.delay.active = false → s.trace = w :: rest →
    (∀ r ∈ opcodeTable, r.op = w.extractLsb' 24 8 → w &&& (0x00FFFFFF#32 &&& ~~~r.fieldBits) ≠ 0) →
    step s = if w.extractLsb' 28 4 = 0xE#4 then .refused .illFormedEvent
      else .next ({ s with trace := rest }.respond .invalidArgument 0)

/-- R107: a trace that ends inside a step is refused. -/
def Obligations.TruncatedStepRefused : Prop :=
  ∀ (s : State) (w : Word) (rest : List Word) (r : Row),
    s.inProgress = none → s.trace = w :: rest → rowOf (w.extractLsb' 24 8) = some r →
    w &&& (0x00FFFFFF#32 &&& ~~~r.fieldBits) = 0 → rest.length < r.format.extWords →
    step s = .refused .truncatedStep

/-- R106, R240: an operand that is legal as bits and fails its command's check decodes, and raises `InvalidArgument`
whatever the state is. -/
def Obligations.IllFormedOperandsRaise : Prop :=
  ∀ (i : Instr) (s : State), i.wellFormed = false →
    DecodesTo (encode i) i ∧ exec i s = .next (s.respond .invalidArgument 0)

/-! ## The step -/

/-- R100, R85: with no command in progress, and no hold where the step is the host's, a step is the decoded instruction
run on the state from which its words are taken. -/
def Obligations.StepRunsDecodedInstruction : Prop :=
  ∀ (s : State) (i : Instr) (rest : List Word),
    s.inProgress = none → decode s.trace = .step i rest → (issuedByHost i = true → s.tick.delay.active = false) →
    step s = exec i { s with trace := rest }

/-- R249, R181, R199 (the turns are the model's, log 4): while a sub-stepped command is in progress another agent's step
runs as it does anywhere else and leaves the command where it was; on the host's turn, or where another agent is given
the turn and has no step, the host takes one sub-step of R180 or R197, and goes on for as long as the turns are its own;
the first sub-step is taken in the step that issues the command. Then R181's two interleavings, at every place between
P2 and P5: a completion served inside a `PRT.TICK` is cleared with the batch, and a sample inside it is in the sum if
its cell is still to be read. A read outside the address space faults (log 10), and the average of a ring of no cells is
a draw (logs 1 and 9). -/
def Obligations.StepInsideSubSteppedCommand : Prop :=
  (∀ (s : State) (p : Progress) (i : Instr) (rest : List Word),
    s.inProgress = some p → s.preempt.headD false = true → decode s.trace = .step i rest → issuedByHost i = false →
    step s = exec i { s with preempt := s.preempt.tail, trace := rest })
  ∧ (∀ (s : State) (p : Progress) (w : Word) (rest : List Word),
      s.inProgress = some p → s.preempt.headD false = true → s.trace = w :: rest → w.extractLsb' 28 4 = 0xE#4 →
      (∀ r ∈ opcodeTable, r.op = w.extractLsb' 24 8 → w &&& (0x00FFFFFF#32 &&& ~~~r.fieldBits) ≠ 0) →
      step s = .refused .illFormedEvent)
  ∧ (∀ (i : Instr) (s t : State), issuedByHost i = false → i ≠ .evReset → exec i s = .next t →
      t.inProgress = s.inProgress)
  ∧ (∀ (s : State) (p : Progress), s.inProgress = some p →
      (s.preempt.headD false = false ∨ ∀ w rest, s.trace = w :: rest → w.extractLsb' 28 4 ≠ 0xE#4) →
      let h := { s with preempt := s.preempt.tail }
      match p with
      | .updateU2 d => step s = hostGoesOn { h with inProgress := some (.updateU3 d s.enc.total) }
      | .updateU3 d x => step s = .next ({ h with
          enc := { s.enc with total := x + BitVec.ofInt 32 d, lastHw := s.enc.hwCount }
          inProgress := none }.respond .success (x + BitVec.ofInt 32 d))
      | .protP2 =>
          (s.smp.batchReady = false → step s = .next ({ h with inProgress := none }.respond .success 0))
          ∧ (s.smp.batchReady = true → s.smp.inited = false →
              step s = .next ({ h with inProgress := none }.respond .uninitialized 0))
          ∧ (s.smp.batchReady = true → s.smp.inited = true →
              step s = hostGoesOn { h with inProgress := some (if s.smp.n = 0 then .protP5 0 else .protRead 0 0) })
      | .protRead i sum =>
          (cellAddr s i + 1 < 0x100000000 → step s = hostGoesOn { h with
            inProgress := some (if i + 1 < s.smp.n.toNat then .protRead (i + 1) (sum + cellValue s i)
              else .protP5 (sum + cellValue s i)) })
          ∧ (0x100000000 ≤ cellAddr s i + 1 → step s = .fault .addressOutsideMemory)
      | .protP5 sum =>
          (s.smp.n ≠ 0 → step s = hostGoesOn { h with
            smp := { s.smp with batchReady := false }
            inProgress := some (.protP6 (sum / s.smp.n.toNat)) })
          ∧ (s.smp.n = 0 → step s = hostGoesOn { h with
              smp := { s.smp with batchReady := false }
              inProgress := some (.protP6 (Config.drawWord s.draws).toNat)
              draws := s.draws + 1 })
      | .protP6 avg =>
          let cut := decide (s.cfg.thresh.toNat < avg)
          step s = .next ({ h with motorEn := if cut then false else s.motorEn, inProgress := none }.respond .success
            (BitVec.ofNat 32 (avg % 4096 * 65536 + (if cut then 2 else 0) + 1))))
  ∧ (∀ s : State,
      let tm := s.timer 0
      let p1 := s.setTimer 0 (if tm.autoReload then { tm with startMs := s.tick.ms } else { tm with enabled := false })
      tm.enabled = true → tm.intervalMs ≤ s.tick.ms - tm.startMs →
      exec .prtTick s = hostGoesOn { p1 with inProgress := some .protP2 })
  ∧ (∀ s : State, s.enc.inited = true →
      ∃ (d : Int) (k : Nat), 2 * d.natAbs ≤ s.enc.arr.toNat + 1
        ∧ (d - ((s.enc.cnt.toNat : Int) - s.enc.lastHw.toNat)) % (s.enc.arr.toNat + 1) = 0
        ∧ exec .encUpdate s = hostGoesOn { s with
            enc := { s.enc with hwCount := s.enc.cnt }, inProgress := some (.updateU2 d), draws := s.draws + k })
  ∧ (∀ (s : State) (k : Nat),
      s.inProgress = none → s.tick.delay.active = false →
      1 ≤ k → k ≤ s.smp.n.toNat + 1 → s.preempt = List.replicate k false ++ [true] →
      (s.timer 0).enabled = true → (s.timer 0).intervalMs ≤ s.tick.ms - (s.timer 0).startMs →
      s.smp.batchReady = true → s.smp.inited = true → s.smp.n ≠ 0 →
      s.smp.base.toNat + 2 * s.smp.n.toNat ≤ 0x100000000 →
      let endsWith := fun (cell : Nat → Nat) (t : State) =>
        let avg := ((List.range s.smp.n.toNat).map cell).sum / s.smp.n.toNat
        let cut := decide (s.cfg.thresh.toNat < avg)
        t.inProgress = none ∧ t.smp.batchReady = false ∧ t.motorEn = (if cut then false else s.motorEn)
          ∧ t.responses = ⟨.success, BitVec.ofNat 32 (avg % 4096 * 65536 + (if cut then 2 else 0) + 1)⟩ :: s.responses
      (s.trace = [0x20000000, 0xE2000000] → s.smp.tcif = true → s.smp.tcie = true →
        ∃ t1 t2 t3, step s = .next t1 ∧ step t1 = .next t2 ∧ step t2 = .next t3
          ∧ t2.smp.batchReady = true ∧ t2.smp.tcif = false ∧ t3.smp.tcif = false ∧ endsWith (cellValue s) t3)
      ∧ (∀ v : BitVec 12, s.trace = [0x20000000, 0xE1000000#32 ||| place v 0] →
          s.smp.adcOn = true → s.smp.adcRun = true → s.smp.dmaEn = true → s.smp.widx.toNat < s.smp.n.toNat →
          ∃ t1 t2 t3, step s = .next t1 ∧ step t1 = .next t2 ∧ step t2 = .next t3
            ∧ cellValue t2 s.smp.widx.toNat = v.toNat
            ∧ endsWith (fun i => if i = s.smp.widx.toNat ∧ k ≤ i + 1 then v.toNat else cellValue s i) t3))

/-! ## Invariants and whole-machine rules -/

/-- R26, R28, R31, R33, R37, R38, R48, R74, R182: what the spec says of every state a run reaches is kept by every step. -/
def Obligations.StepKeepsAdmissible : Prop :=
  ∀ s t : State, s.Admissible → step s = .next t → t.Admissible

/-- R51: the machine starts in an admissible state. -/
def Obligations.ResetAdmissible : Prop := State.reset.Admissible

/-- R70, R73, R150: from an admissible state no step accesses memory outside the address space, so none faults. -/
def Obligations.AdmissibleStepNeverFaults : Prop := ∀ s : State, s.Admissible → safe (step s)

/-- R43, R270: no step writes `THRESH` or a configuration switch. -/
def Obligations.StepKeepsConfiguration : Prop := ∀ s t : State, step s = .next t → t.cfg = s.cfg

/-- R241: a raising command records the status and changes no state, except that the unreachable arm of `PRT.TICK` comes
after the timer test. The number of draws made is the model's own count (log 1). -/
def Obligations.RaisingCommandChangesNothing : Prop :=
  ∀ (i : Instr) (s t : State) (r : Response),
    exec i s = .next t → t.responses = r :: s.responses → r.st ≠ .success →
    r.rsp = 0 ∧
      if i = .prtTick then
        t = { s with tmr := t.tmr, inProgress := none, preempt := t.preempt, responses := r :: s.responses }
          ∧ ∀ k : BitVec 2, k ≠ 0 → t.timer k = s.timer k
      else t = { s with responses := r :: s.responses, draws := t.draws }

/-- R11: an event answers nothing of its own, and a command that is one atomic step answers once. The response a tick can
record is that of the `TCK.DELAY` it ends; that it does so in the same step is the model's reading of R133 (log 6). -/
def Obligations.CommandsAnswerOnceEventsNever : Prop :=
  ∀ (i : Instr) (s t : State), exec i s = .next t →
    (issuedByHost i = false → i ≠ .evTick → t.responses = s.responses)
    ∧ (i = .evTick → t.responses = s.responses ∨
        (s.tick.delay.active = true ∧ t.tick.delay.active = false
          ∧ t.responses = { st := .success, rsp := 0 } :: s.responses))
    ∧ (issuedByHost i = true → i ≠ .prtTick → i ≠ .encUpdate → (∀ n, i ≠ .tckDelay n) →
        ∃ r, t.responses = r :: s.responses)

/-- R36: only `MOT.SET` with the value 1 drives the motor-enable line from 0 to 1. -/
def Obligations.MotorLineRaisedOnlyByMotSet : Prop :=
  ∀ s t : State, step s = .next t → s.motorEn = false → t.motorEn = true →
    ∃ rest, decode s.trace = .step (.motSet true) rest

/-- R35: only `EV.DMAIRQ` serving an enabled `DMA_TCIF` sets `BATCH_READY`. -/
def Obligations.BatchReadySetOnlyByHandler : Prop :=
  ∀ s t : State, step s = .next t → s.smp.batchReady = false → t.smp.batchReady = true →
    (∃ rest, decode s.trace = .step .evDmairq rest) ∧ s.smp.tcif = true ∧ s.smp.tcie = true

/-- R24: `TICK_MS` is written by `EV.TICK`, which adds 1, and by `EV.RESET`, which writes 0, and by nothing else. -/
def Obligations.TickCountWrittenOnlyByTickAndReset : Prop :=
  ∀ s t : State, step s = .next t → t.tick.ms ≠ s.tick.ms →
    (∃ rest, decode s.trace = .step .evTick rest ∧ t.tick.ms = s.tick.ms + 1 ∧ s.tick.systEn = true)
    ∨ (∃ rest, decode s.trace = .step .evReset rest ∧ t.tick.ms = 0)

/-- R70, R74: a byte of memory changes only by an `EV.SAMPLE` with the stream enabled, and only where the cell at
`DMA_WIDX` lies: the frame of every instruction, and of every step. -/
def Obligations.MemoryWrittenOnlyBySamples : Prop :=
  (∀ (i : Instr) (s t : State) (a : Nat), exec i s = .next t →
    (∀ v, i = .evSample v → s.smp.dmaEn = true →
      a ≠ cellAddr s s.smp.widx.toNat ∧ a ≠ cellAddr s s.smp.widx.toNat + 1) →
    Memory.byteAt t.mem a = Memory.byteAt s.mem a)
  ∧ (∀ (s t : State) (a : Nat), step s = .next t → Memory.byteAt t.mem a ≠ Memory.byteAt s.mem a →
      ∃ v rest, decode s.trace = .step (.evSample v) rest ∧ s.smp.dmaEn = true
        ∧ (a = cellAddr s s.smp.widx.toNat ∨ a = cellAddr s s.smp.widx.toNat + 1))

/-- R245: the two handlers and the tick give the same state in either order. -/
def Obligations.HandlersAndTickCommute : Prop :=
  ∀ s : State,
    execAll [.evDmairq, .evEncirq] s = execAll [.evEncirq, .evDmairq] s
    ∧ execAll [.evTick, .evDmairq] s = execAll [.evDmairq, .evTick] s
    ∧ execAll [.evTick, .evEncirq] s = execAll [.evEncirq, .evTick] s
    ∧ (s.smp.irqPending = true → s.enc.irqPending = true → s.tick.systEn = true →
        ∃ t, execAll [.evTick, .evDmairq, .evEncirq] s = .next t)

/-! ## Tick and timers -/

/-- R130. -/
def Obligations.TckInitSetsReload : Prop :=
  ∀ (f : Word) (s : State),
    DecodesTo [0x00000000, f] (.tckInit f)
    ∧ (f.toNat < 1000 → exec (.tckInit f) s = .next (s.respond .invalidArgument 0))
    ∧ (1000 ≤ f.toNat → f.toNat / 1000 - 1 ≤ 0xFFFFFF
        ∧ exec (.tckInit f) s = .next ({ s with tick := { s.tick with
            systReload := BitVec.ofNat 24 (f.toNat / 1000 - 1), systEn := true } }.respond .success 0))

/-- R131, R132. -/
def Obligations.TckNowAndElapsedRead : Prop :=
  ∀ (since : Word) (s : State),
    DecodesTo [0x01000000] .tckNow ∧ DecodesTo [0x02000000, since] (.tckElapsed since)
    ∧ exec .tckNow s = .next (s.respond .success s.tick.ms)
    ∧ exec (.tckElapsed since) s
        = .next (s.respond .success (BitVec.ofInt 32 ((s.tick.ms.toNat : Int) - (since.toNat : Int))))

/-- R138: after `TCK.NOW` and `k` ticks `TCK.ELAPSED` of the noted time is `k`; a started auto-reload timer of period
`p > 0`, tested any number of times at least once after each tick, reports 1 once every `p` ticks exactly. -/
def Obligations.TickAndTimerLaws : Prop :=
  (∀ (k : Word) (s : State), s.tick.systEn = true →
    ∃ t, execAll (List.replicate k.toNat .evTick) s = .next t
      ∧ exec (.tckElapsed s.tick.ms) t = .next (t.respond .success k))
  ∧ (∀ (n : BitVec 2) (s : State) (tests : List Nat), s.tick.systEn = true → s.tick.delay.active = false →
      (s.timer n).enabled = true → (s.timer n).autoReload = true → (s.timer n).startMs = s.tick.ms →
      0 < (s.timer n).intervalMs.toNat →
      ∃ t rs, execAll (tests.flatMap fun k => .evTick :: List.replicate (k + 1) (.tmrExpired n)) s = .next t
        ∧ t.responses = rs ++ s.responses
        ∧ rs.count { st := .success, rsp := 1 } = tests.length / (s.timer n).intervalMs.toNat)

/-- R133. The tick that ends the hold answers it in the same step (log 6). That a host word during the hold is refused
is the model's way of saying that the host issues none (log 5). -/
def Obligations.TckDelayHoldsUntilElapsed : Prop :=
  ∀ (n : Word) (s : State),
    DecodesTo [0x03000000, n] (.tckDelay n)
    ∧ (n = 0 → exec (.tckDelay n) s = .next ({ s with
        tick := { s.tick with delay := { active := false, start := s.tick.ms, n := n } } }.respond .success 0))
    ∧ (n ≠ 0 → exec (.tckDelay n) s = .next { s with
        tick := { s.tick with delay := { active := true, start := s.tick.ms, n := n } } })
    ∧ (∀ k : Nat, s.tick.systEn = true → k < n.toNat →
        execAll (.tckDelay n :: List.replicate k .evTick) s = .next { s with
          tick := { s.tick with
            ms := s.tick.ms + BitVec.ofNat 32 k, delay := { active := true, start := s.tick.ms, n := n } } })
    ∧ (s.tick.systEn = true →
        execAll (.tckDelay n :: List.replicate n.toNat .evTick) s = .next ({ s with
          tick := { s.tick with
            ms := s.tick.ms + n, delay := { active := false, start := s.tick.ms, n := n } } }.respond .success 0))
    ∧ (∀ i rest, s.tick.delay.active = true → s.inProgress = none → decode s.trace = .step i rest →
        issuedByHost i = true → step s = .refused .hostHeld)
    ∧ (s.tick.systEn = false → exec .evTick s = .refused .eventNotEnabled)

/-- R134, R135. -/
def Obligations.TmrInitAndStart : Prop :=
  ∀ (t : BitVec 2) (ar : Bool) (interval : Word) (s : State),
    let old := s.tmr[t.toNat]'t.isLt
    let stopped : Timer := { startMs := 0, intervalMs := interval, enabled := false, autoReload := ar }
    let started : Timer :=
      { startMs := s.tick.ms, intervalMs := old.intervalMs, enabled := true, autoReload := old.autoReload }
    DecodesTo [0x04000000#32 ||| place t 0 ||| placeBit ar 8, interval] (.tmrInit t ar interval)
    ∧ DecodesTo [0x05000000#32 ||| place t 0] (.tmrStart t)
    ∧ exec (.tmrInit t ar interval) s = .next ({ s with tmr := s.tmr.set t.toNat stopped t.isLt }.respond .success 0)
    ∧ exec (.tmrStart t) s = .next ({ s with tmr := s.tmr.set t.toNat started t.isLt }.respond .success 0)

/-- R136. -/
def Obligations.TmrExpiredTestsAndReloads : Prop :=
  ∀ (t : BitVec 2) (s : State),
    DecodesTo [0x06000000#32 ||| place t 0] (.tmrExpired t)
    ∧ ((s.timer t).enabled = false → exec (.tmrExpired t) s = .next (s.respond .success 0))
    ∧ ((s.timer t).enabled = true → s.tick.ms - (s.timer t).startMs < (s.timer t).intervalMs →
        exec (.tmrExpired t) s = .next (s.respond .success 0))
    ∧ ((s.timer t).enabled = true → (s.timer t).intervalMs ≤ s.tick.ms - (s.timer t).startMs →
        (s.timer t).autoReload = true →
        exec (.tmrExpired t) s
          = .next ((s.setTimer t { s.timer t with startMs := s.tick.ms }).respond .success 1))
    ∧ ((s.timer t).enabled = true → (s.timer t).intervalMs ≤ s.tick.ms - (s.timer t).startMs →
        (s.timer t).autoReload = false →
        exec (.tmrExpired t) s
          = .next ((s.setTimer t { s.timer t with enabled := false }).respond .success 1))

/-- R137, and R133 for the hold that a tick ends (in the same step: log 6). -/
def Obligations.EvTickCounts : Prop :=
  ∀ s : State,
    DecodesTo [0xE0000000] .evTick
    ∧ (s.tick.systEn = true → s.tick.delay.active = false →
        exec .evTick s = .next { s with tick := { s.tick with ms := s.tick.ms + 1 } })
    ∧ (s.tick.systEn = true → s.tick.delay.active = true →
        s.tick.ms + 1 - s.tick.delay.start < s.tick.delay.n →
        exec .evTick s = .next { s with tick := { s.tick with ms := s.tick.ms + 1 } })
    ∧ (s.tick.systEn = true → s.tick.delay.active = true →
        s.tick.delay.n ≤ s.tick.ms + 1 - s.tick.delay.start →
        exec .evTick s = .next ({ s with tick := { s.tick with
          ms := s.tick.ms + 1, delay := { s.tick.delay with active := false } } }.respond .success 0))
    ∧ (s.tick.systEn = false → exec .evTick s = .refused .eventNotEnabled)

/-! ## Sampler -/

/-- R150, R151, R161: the operand checks, the disable attempt (a draw, log 1) and what a successful init leaves. -/
def Obligations.SmpInitChecksAndConfigures : Prop :=
  ∀ (base len : Word) (s : State),
    let ok : Prop := len.toNat ≠ 0 ∧ len.toNat % 2 = 0 ∧ len.toNat ≤ 65534 ∧ base.toNat % 2 = 0
      ∧ base.toNat + 2 * len.toNat ≤ 0x100000000
      ∧ ∀ x, base.toNat ≤ x → x < base.toNat + 2 * len.toNat → ∃ r ∈ s.cfg.memRegion, r.base ≤ x ∧ x < r.base + r.size
    let configured : Sampler := {
      inited := true, base := base, n := BitVec.ofNat 16 len.toNat, widx := 0
      adcOn := false, adcRun := false, adcDr := s.smp.adcDr
      adcCont := true, adcAlignRight := true, adcRes12 := true, adcDma := true, adcDds := true
      dmaCirc := true, dmaMinc := true, htie := true, tcie := true, teie := false
      dmaEn := false, tcif := false, htif := false, teif := false, batchReady := false }
    DecodesTo [0x10000000, base, len] (.smpInit base len)
    ∧ (¬ ok → exec (.smpInit base len) s = .next (s.respond .invalidArgument 0))
    ∧ (ok → s.smp.dmaEn = false → exec (.smpInit base len) s = .next ({ s with smp := configured }.respond .success 0))
    ∧ (ok → s.smp.dmaEn = true → exec (.smpInit base len) s = .next (
        if Config.drawBool s.draws then { s with smp := configured, draws := s.draws + 1 }.respond .success 0
        else { s with draws := s.draws + 1 }.respond .peripheralBusy 0))

/-- R152. -/
def Obligations.SmpStartEnables : Prop :=
  ∀ s : State,
    DecodesTo [0x11000000] .smpStart
    ∧ (s.smp.inited = false → exec .smpStart s = .next (s.respond .uninitialized 0))
    ∧ (s.smp.inited = true → s.smp.dmaEn = false → exec .smpStart s = .next ({ s with smp := { s.smp with
        tcif := false, htif := false, teif := false, dmaEn := true, widx := 0, adcOn := true, adcRun := true
        } }.respond .success 0))
    ∧ (s.smp.inited = true → s.smp.dmaEn = true → exec .smpStart s = .next ({ s with smp := { s.smp with
        tcif := false, htif := false, teif := false, adcOn := true, adcRun := true } }.respond .success 0))

/-- R153, R154. -/
def Obligations.SmpReadyAndClear : Prop :=
  ∀ s : State,
    DecodesTo [0x12000000] .smpReady ∧ DecodesTo [0x13000000] .smpClear
    ∧ exec .smpReady s = .next (s.respond .success (if s.smp.batchReady then 1 else 0))
    ∧ exec .smpClear s = .next ({ s with smp := { s.smp with batchReady := false } }.respond .success 0)

/-- R157, R72, R75: the cell is read low byte first; the premise on the address holds of every admissible state. -/
def Obligations.SmpRdcellReadsCell : Prop :=
  ∀ (i : BitVec 16) (s : State),
    DecodesTo [0x14000000#32 ||| place i 0] (.smpRdcell i)
    ∧ (s.smp.inited = false → exec (.smpRdcell i) s = .next (s.respond .uninitialized 0))
    ∧ (s.smp.inited = true → s.smp.n.toNat ≤ i.toNat →
        exec (.smpRdcell i) s = .next (s.respond .invalidArgument 0))
    ∧ (s.smp.inited = true → i.toNat < s.smp.n.toNat → s.smp.base.toNat + 2 * i.toNat + 1 < 0x100000000 →
        exec (.smpRdcell i) s = .next (s.respond .success (BitVec.ofNat 32
          ((Memory.byteAt s.mem (s.smp.base.toNat + 2 * i.toNat + 1)).toNat * 256
            + (Memory.byteAt s.mem (s.smp.base.toNat + 2 * i.toNat)).toNat))))

/-- R156, R163. -/
def Obligations.SmpGetfAndClrf : Prop :=
  ∀ (f : BitVec 2) (s : State),
    DecodesTo [0x15000000#32 ||| place f 0] (.smpGetf f) ∧ DecodesTo [0x16000000#32 ||| place f 0] (.smpClrf f)
    ∧ exec (.smpGetf 0) s = .next (s.respond .success (if s.smp.tcif then 1 else 0))
    ∧ exec (.smpGetf 1) s = .next (s.respond .success (if s.smp.htif then 1 else 0))
    ∧ exec (.smpGetf 2) s = .next (s.respond .success (if s.smp.teif then 1 else 0))
    ∧ exec (.smpGetf 3) s = .next (s.respond .invalidArgument 0)
    ∧ exec (.smpClrf 0) s = .next ({ s with smp := { s.smp with tcif := false } }.respond .success 0)
    ∧ exec (.smpClrf 1) s = .next ({ s with smp := { s.smp with htif := false } }.respond .success 0)
    ∧ exec (.smpClrf 2) s = .next ({ s with smp := { s.smp with teif := false } }.respond .success 0)
    ∧ exec (.smpClrf 3) s = .next (s.respond .invalidArgument 0)

/-- R158: an enable with a flag set is refused silently. -/
def Obligations.SmpDmaenNeedsClearFlags : Prop :=
  ∀ s : State,
    DecodesTo [0x17000000] .smpDmaen
    ∧ (s.smp.inited = false → exec .smpDmaen s = .next (s.respond .uninitialized 0))
    ∧ (s.smp.inited = true → s.smp.dmaEn = true → exec .smpDmaen s = .next (s.respond .success 0))
    ∧ (s.smp.inited = true → s.smp.dmaEn = false →
        s.smp.tcif = true ∨ s.smp.htif = true ∨ s.smp.teif = true →
        exec .smpDmaen s = .next (s.respond .success 0))
    ∧ (s.smp.inited = true → s.smp.dmaEn = false → s.smp.tcif = false → s.smp.htif = false → s.smp.teif = false →
        exec .smpDmaen s = .next ({ s with smp := { s.smp with dmaEn := true, widx := 0 } }.respond .success 0))

/-- R159, R151: the attempt and the two flags are draws, three in a row (log 1). -/
def Obligations.SmpDmadisDraws : Prop :=
  ∀ s : State,
    DecodesTo [0x18000000] .smpDmadis
    ∧ (s.smp.dmaEn = false → exec .smpDmadis s = .next (s.respond .success 0))
    ∧ (s.smp.dmaEn = true → exec .smpDmadis s = .next (
        if Config.drawBool s.draws then
          { s with
            smp := { s.smp with
              dmaEn := false, tcif := s.smp.tcif || Config.drawBool (s.draws + 1)
              htif := s.smp.htif || Config.drawBool (s.draws + 2) }
            draws := s.draws + 3 }.respond .success 0
        else { s with draws := s.draws + 1 }.respond .peripheralBusy 0))

/-- R155, R72, R74, R81: one conversion, its transfer to the cell at `DMA_WIDX`, the flags and the wrap; the bytes
outside the cell are as before, and the memory keeps its form. -/
def Obligations.EvSampleTransfers : Prop :=
  ∀ (v : BitVec 12) (s : State),
    let a := cellAddr s s.smp.widx.toNat
    let w := s.smp.widx.toNat + 1
    DecodesTo [0xE1000000#32 ||| place v 0] (.evSample v)
    ∧ (s.smp.adcOn = true → s.smp.adcRun = true → s.smp.dmaEn = true → a + 1 < 0x100000000 →
        ∃ m, exec (.evSample v) s = .next { s with
            mem := m
            smp := { s.smp with
              adcDr := BitVec.ofNat 16 v.toNat
              htif := s.smp.htif || decide (w = s.smp.n.toNat / 2)
              tcif := s.smp.tcif || decide (w = s.smp.n.toNat)
              widx := if w = s.smp.n.toNat then 0 else BitVec.ofNat 16 w } }
          ∧ Memory.byteAt m a = BitVec.ofNat 8 (v.toNat % 256)
          ∧ Memory.byteAt m (a + 1) = BitVec.ofNat 8 (v.toNat / 256)
          ∧ (∀ x, x ≠ a → x ≠ a + 1 → Memory.byteAt m x = Memory.byteAt s.mem x)
          ∧ (Memory.wf s.mem → Memory.wf m))
    ∧ (s.smp.adcOn = true → s.smp.adcRun = true → s.smp.dmaEn = false →
        exec (.evSample v) s = .next { s with smp := { s.smp with adcDr := BitVec.ofNat 16 v.toNat } })
    ∧ (s.smp.adcOn = false ∨ s.smp.adcRun = false → exec (.evSample v) s = .refused .eventNotEnabled)

/-- R164 (first part): any number of samples, from any place in the ring, with the stream enabled and nothing between
them: the index wraps, the flags rise at the half and at the end of each lap, every cell holds the last sample that fell
on it, and nothing else changes: not a field but the converter's data register, not a byte outside those cells. -/
def Obligations.LapLaw : Prop :=
  ∀ (vs : List (BitVec 12)) (s : State),
    s.smp.adcOn = true → s.smp.adcRun = true → s.smp.dmaEn = true →
    2 ≤ s.smp.n.toNat → s.smp.widx.toNat < s.smp.n.toNat → s.smp.base.toNat + 2 * s.smp.n.toNat ≤ 0x100000000 →
    let n := s.smp.n.toNat
    let p := s.smp.widx.toNat + vs.length
    ∃ t, execAll (vs.map .evSample) s = .next t
      ∧ t.smp.widx.toNat = p % n
      ∧ t.smp.tcif = (s.smp.tcif || decide (n ≤ p))
      ∧ t.smp.htif = (s.smp.htif || decide (s.smp.widx.toNat < n / 2 ∧ n / 2 ≤ p) || decide (n + n / 2 ≤ p))
      ∧ (∀ (j : Nat) (hj : j < vs.length), vs.length ≤ j + n →
          Memory.read16 t.mem (cellAddr s ((s.smp.widx.toNat + j) % n)) = some (vs[j].setWidth 16))
      ∧ (∀ x : Nat, (∀ j, j < vs.length → x ≠ cellAddr s ((s.smp.widx.toNat + j) % n)
            ∧ x ≠ cellAddr s ((s.smp.widx.toNat + j) % n) + 1) →
          Memory.byteAt t.mem x = Memory.byteAt s.mem x)
      ∧ t = { s with mem := t.mem, smp := { s.smp with
          adcDr := t.smp.adcDr, widx := t.smp.widx, tcif := t.smp.tcif, htif := t.smp.htif } }

/-- R164 (second part): with no `SMP.DMADIS` since a successful `SMP.INIT`, `BATCH_READY` means that at least `SMP_N`
samples have been taken since. -/
def Obligations.BatchNeedsWholeLap : Prop :=
  ∀ (is : List Instr) (s t : State),
    s.smp.batchReady = false → s.smp.tcif = false → s.smp.widx = 0 →
    (∀ i ∈ is, i ≠ .smpDmadis ∧ i ≠ .evReset ∧ ∀ base len, i ≠ .smpInit base len) →
    execAll is s = .next t → t.smp.batchReady = true →
    s.smp.n.toNat ≤ is.countP fun i => match i with
      | .evSample _ => true
      | _ => false

/-- R160: both flags are served in one run, and only the transfer-complete flag sets `BATCH_READY`. -/
def Obligations.EvDmairqServesFlags : Prop :=
  ∀ s : State,
    let ht := s.smp.htif = true ∧ s.smp.htie = true
    let tc := s.smp.tcif = true ∧ s.smp.tcie = true
    DecodesTo [0xE2000000] .evDmairq
    ∧ (tc ∨ ht → exec .evDmairq s = .next { s with smp := { s.smp with
        htif := if ht then false else s.smp.htif
        tcif := if tc then false else s.smp.tcif
        batchReady := if tc then true else s.smp.batchReady } })
    ∧ (¬ tc → ¬ ht → exec .evDmairq s = .refused .eventNotEnabled)

/-- R162. -/
def Obligations.EvDmateStopsStream : Prop :=
  ∀ s : State,
    DecodesTo [0xE3000000] .evDmate
    ∧ (s.cfg.teAdmitted = true → s.smp.dmaEn = true →
        exec .evDmate s = .next { s with smp := { s.smp with teif := true, dmaEn := false } })
    ∧ (s.cfg.teAdmitted = false ∨ s.smp.dmaEn = false → exec .evDmate s = .refused .eventNotEnabled)

/-! ## Protection and motor -/

/-- R180: a pass with no other agent's turn inside it (log 4). `p1` is the state after P1, `cell i` the half-word in cell `i`. -/
def Obligations.PrtTickPass : Prop :=
  ∀ s : State, s.preempt = [] → s.inProgress = none →
    let tm := s.timer 0
    let expired := tm.enabled = true ∧ tm.intervalMs ≤ s.tick.ms - tm.startMs
    let p1 := s.setTimer 0 (if tm.autoReload then { tm with startMs := s.tick.ms } else { tm with enabled := false })
    let cell := fun i => (Memory.byteAt s.mem (cellAddr s i + 1)).toNat * 256 + (Memory.byteAt s.mem (cellAddr s i)).toNat
    let avg := ((List.range s.smp.n.toNat).map cell).sum / s.smp.n.toNat
    let cut := decide (s.cfg.thresh.toNat < avg)
    DecodesTo [0x20000000] .prtTick
    ∧ (¬ expired → exec .prtTick s = .next (s.respond .success 0))
    ∧ (expired → s.smp.batchReady = false → exec .prtTick s = .next (p1.respond .success 0))
    ∧ (expired → s.smp.batchReady = true → s.smp.inited = false →
        exec .prtTick s = .next (p1.respond .uninitialized 0))
    ∧ (expired → s.smp.batchReady = true → s.smp.inited = true → s.smp.n ≠ 0 →
        s.smp.base.toNat + 2 * s.smp.n.toNat ≤ 0x100000000 →
        exec .prtTick s = .next ({ p1 with
          smp := { s.smp with batchReady := false }
          motorEn := if cut then false else s.motorEn }.respond .success
            (BitVec.ofNat 32 (avg % 4096 * 65536 + (if cut then 2 else 0) + 1))))

/-- R180, R43: the cut follows the threshold: a ring all above it cuts, a ring nowhere above it leaves the line alone,
and the batch is consumed either way; no other agent's turn falls inside the pass (log 4). -/
def Obligations.PrtTickCutsAboveThreshold : Prop :=
  ∀ s : State, s.preempt = [] → (s.timer 0).enabled = true →
    (s.timer 0).intervalMs ≤ s.tick.ms - (s.timer 0).startMs → s.smp.batchReady = true → s.smp.inited = true →
    s.smp.n ≠ 0 → s.smp.base.toNat + 2 * s.smp.n.toNat ≤ 0x100000000 →
    ∃ t, exec .prtTick s = .next t ∧ t.smp.batchReady = false
      ∧ ((∀ i v, i < s.smp.n.toNat → Memory.read16 s.mem (cellAddr s i) = some v → s.cfg.thresh.toNat < v.toNat) →
          t.motorEn = false)
      ∧ ((∀ i v, i < s.smp.n.toNat → Memory.read16 s.mem (cellAddr s i) = some v → v.toNat ≤ s.cfg.thresh.toNat) →
          t.motorEn = s.motorEn)

/-- R183, R184. -/
def Obligations.MotSetAndGet : Prop :=
  ∀ (v : Bool) (s : State),
    DecodesTo [0x21000000#32 ||| placeBit v 0] (.motSet v) ∧ DecodesTo [0x22000000] .motGet
    ∧ exec (.motSet v) s = .next ({ s with motorEn := v }.respond .success 0)
    ∧ exec .motGet s = .next (s.respond .success (if s.motorEn then 1 else 0))

/-! ## Encoder -/

/-- R190. -/
def Obligations.EncInitConfigures : Prop :=
  ∀ (polA polB uie : Bool) (cpr maxCount : BitVec 16) (s : State),
    DecodesTo [0x30000000#32 ||| placeBit polA 0 ||| placeBit polB 1 ||| placeBit uie 2, maxCount ++ cpr]
      (.encInit polA polB uie cpr maxCount)
    ∧ (cpr = 0 ∨ maxCount = 0 →
        exec (.encInit polA polB uie cpr maxCount) s = .next (s.respond .invalidArgument 0))
    ∧ (cpr ≠ 0 → maxCount ≠ 0 →
        exec (.encInit polA polB uie cpr maxCount) s = .next ({ s with enc := {
          cnt := 0, arr := maxCount, qa := s.enc.qa, qb := s.enc.qb, hwCount := 0, total := 0, lastHw := 0
          lastTotal := 0, lastTickMs := 0, speedRpm := 0, cpr := cpr, maxCount := maxCount, seeded := false
          inited := true, cen := false, dir := false, uif := false, uie := uie, pola := polA, polb := polB
          } }.respond .success 0))

/-- R193, R194, R195. -/
def Obligations.EncStartStopReset : Prop :=
  ∀ s : State,
    DecodesTo [0x31000000] .encStart ∧ DecodesTo [0x32000000] .encStop ∧ DecodesTo [0x33000000] .encReset
    ∧ (s.enc.inited = false →
        exec .encStart s = .next (s.respond .uninitialized 0)
        ∧ exec .encStop s = .next (s.respond .uninitialized 0)
        ∧ exec .encReset s = .next (s.respond .uninitialized 0))
    ∧ (s.enc.inited = true →
        exec .encStart s = .next ({ s with enc := { s.enc with cen := true } }.respond .success 0)
        ∧ exec .encStop s = .next ({ s with enc := { s.enc with cen := false } }.respond .success 0)
        ∧ exec .encReset s = .next ({ s with enc := { s.enc with
            cnt := 0, uif := false, hwCount := 0, lastHw := 0, total := 0, lastTotal := 0, lastTickMs := 0
            speedRpm := 0, seeded := false } }.respond .success 0))

/-- R192, R196. -/
def Obligations.EncCountAndDir : Prop :=
  ∀ s : State,
    DecodesTo [0x34000000] .encCount ∧ DecodesTo [0x35000000] .encDir
    ∧ (s.enc.inited = false →
        exec .encCount s = .next (s.respond .uninitialized 0) ∧ exec .encDir s = .next (s.respond .uninitialized 0))
    ∧ (s.enc.inited = true → exec .encCount s = .next (s.respond .success s.enc.total))
    ∧ (s.enc.inited = true → s.enc.dir = false → exec .encDir s = .next (s.respond .success 0x00000001))
    ∧ (s.enc.inited = true → s.enc.dir = true → exec .encDir s = .next (s.respond .success 0xFFFFFFFF))

/-- R197, R198: an update with no other agent's turn inside it (log 4); `d` is the folded difference and `k` the draws it took
(log 1). -/
def Obligations.EncUpdateFoldsDifference : Prop :=
  ∀ s : State, s.preempt = [] → s.inProgress = none →
    let m := s.enc.arr.toNat + 1
    let r := (((s.enc.cnt.toNat : Int) - (s.enc.lastHw.toNat : Int)) % (m : Int)).toNat
    let updated := fun (d : Int) (k : Nat) => ({ s with
      enc := { s.enc with
        hwCount := s.enc.cnt, lastHw := s.enc.cnt, total := s.enc.total + BitVec.ofInt 32 d }
      draws := s.draws + k }.respond .success (s.enc.total + BitVec.ofInt 32 d))
    DecodesTo [0x36000000] .encUpdate
    ∧ (s.enc.inited = false → exec .encUpdate s = .next (s.respond .uninitialized 0))
    ∧ (s.enc.inited = true → 2 * r < m → exec .encUpdate s = .next (updated r 0))
    ∧ (s.enc.inited = true → m < 2 * r → exec .encUpdate s = .next (updated ((r : Int) - m) 0))
    ∧ (s.enc.inited = true → 2 * r = m → s.cfg.foldHalf = .plus → exec .encUpdate s = .next (updated r 0))
    ∧ (s.enc.inited = true → 2 * r = m → s.cfg.foldHalf = .minus → exec .encUpdate s = .next (updated (-(r : Int)) 0))
    ∧ (s.enc.inited = true → 2 * r = m → s.cfg.foldHalf = .either →
        exec .encUpdate s = .next (updated (if Config.drawBool s.draws then r else -(r : Int)) 1))

/-- R198: the fold is congruent to the residue, lies within half the modulus, and is the only such integer unless the
residue is exactly half. -/
def Obligations.FoldIsSignedResidue : Prop :=
  ∀ (r m : Nat) (s : State), 0 < m → r < m →
    ((fold r m s).1 - r) % m = 0
    ∧ 2 * (fold r m s).1.natAbs ≤ m
    ∧ (2 * r ≠ m → ∀ d : Int, (d - r) % m = 0 → 2 * d.natAbs ≤ m → d = (fold r m s).1)
    ∧ (2 * r ≠ m → (fold r m s).2 = s)

/-- R199: three steps of one update with the handler's step among them, where the turns say (log 4). Between U1 and U2
the handler's compensation is kept; between U2 and U3 it is overwritten. -/
def Obligations.HandlerInsideUpdateIsLost : Prop :=
  ∀ (s : State) (late : Bool),
    s.inProgress = none → s.tick.delay.active = false → s.enc.inited = true →
    s.enc.uif = true → s.enc.uie = true → s.enc.dir = false →
    s.trace = [0x36000000, 0xE6000000] → s.preempt = (if late then [false, true] else [true]) →
    let m := s.enc.arr.toNat + 1
    let r := (((s.enc.cnt.toNat : Int) - (s.enc.lastHw.toNat : Int)) % (m : Int)).toNat
    2 * r < m →
    ∃ t1 t2 t3, step s = .next t1 ∧ step t1 = .next t2 ∧ step t2 = .next t3
      ∧ t2.enc.total = s.enc.total + BitVec.ofNat 32 m
      ∧ t3.enc.total = s.enc.total + BitVec.ofNat 32 r + (if late then 0 else BitVec.ofNat 32 m)
      ∧ t3.inProgress = none ∧ t3.responses = { st := .success, rsp := t3.enc.total } :: s.responses

/-- R200, R201: the seeding call, the cached speed, the quotient rounded toward zero, and the draw where it does not fit
(log 1); both factors fit 64 bits. -/
def Obligations.EncRpmSpeed : Prop :=
  ∀ (now : Word) (s : State),
    let dt := now - s.enc.lastTickMs
    let dtotal := s.enc.total.toInt - s.enc.lastTotal.toInt
    let q := (dtotal * 60000).tdiv ((s.enc.cpr.toNat : Int) * dt.toNat)
    let moved := fun (v : Word) (k : Nat) => ({ s with
      enc := { s.enc with speedRpm := v, lastTotal := s.enc.total, lastTickMs := now }
      draws := s.draws + k }.respond .success v)
    DecodesTo [0x37000000, now] (.encRpm now)
    ∧ (dtotal * 60000).natAbs < 0x1000000000000 ∧ s.enc.cpr.toNat * dt.toNat < 0x1000000000000
    ∧ (s.enc.inited = false → exec (.encRpm now) s = .next (s.respond .uninitialized 0))
    ∧ (s.enc.inited = true → s.enc.seeded = false → exec (.encRpm now) s = .next ({ s with enc := { s.enc with
        lastTickMs := now, lastTotal := s.enc.total, seeded := true } }.respond .success 0))
    ∧ (s.enc.inited = true → s.enc.seeded = true → dt = 0 →
        exec (.encRpm now) s = .next (s.respond .success s.enc.speedRpm))
    ∧ (s.enc.inited = true → s.enc.seeded = true → dt ≠ 0 → s.enc.cpr ≠ 0 → -(0x80000000 : Int) ≤ q → q < 0x80000000 →
        exec (.encRpm now) s = .next (moved (BitVec.ofInt 32 q) 0))
    ∧ (s.enc.inited = true → s.enc.seeded = true → dt ≠ 0 → s.enc.cpr ≠ 0 → q < -(0x80000000 : Int) ∨ 0x80000000 ≤ q →
        exec (.encRpm now) s = .next (moved (Config.drawWord s.draws) 1))

/-- R202, R203, R204: every edge of either input, seen with the counter stopped, counted with it running. -/
def Obligations.QuadratureEdgesCount : Prop :=
  ∀ (v : Bool) (s : State),
    let up := fun (e : Encoder) => { e with
      cnt := if e.cnt = e.arr then 0 else e.cnt + 1, uif := if e.cnt = e.arr then true else e.uif, dir := false }
    let down := fun (e : Encoder) => { e with
      cnt := if e.cnt = 0 then e.arr else e.cnt - 1, uif := if e.cnt = 0 then true else e.uif, dir := true }
    let ea := { s.enc with qa := v }
    let eb := { s.enc with qb := v }
    DecodesTo [0xE4000000#32 ||| placeBit v 0] (.evQa v) ∧ DecodesTo [0xE5000000#32 ||| placeBit v 0] (.evQb v)
    ∧ (v = s.enc.qa → exec (.evQa v) s = .next s)
    ∧ (v = s.enc.qb → exec (.evQb v) s = .next s)
    ∧ (v ≠ s.enc.qa → s.enc.cen = false → exec (.evQa v) s = .next { s with enc := ea })
    ∧ (v ≠ s.enc.qb → s.enc.cen = false → exec (.evQb v) s = .next { s with enc := eb })
    ∧ (v ≠ s.enc.qa → s.enc.cen = true →
        exec (.evQa v) s = .next { s with enc :=
          if (v ^^ s.enc.pola) ≠ (s.enc.qb ^^ s.enc.polb) then up ea else down ea })
    ∧ (v ≠ s.enc.qb → s.enc.cen = true →
        exec (.evQb v) s = .next { s with enc :=
          if (s.enc.qa ^^ s.enc.pola) = (v ^^ s.enc.polb) then up eb else down eb })

/-- R205: the handler adds or subtracts the modulus by the direction bit as it is when it runs. -/
def Obligations.EvEncirqCompensates : Prop :=
  ∀ s : State,
    let m := s.enc.arr.toNat + 1
    DecodesTo [0xE6000000] .evEncirq
    ∧ (s.enc.uif = true → s.enc.uie = true → s.enc.dir = false → exec .evEncirq s = .next { s with enc := { s.enc with
        uif := false, total := s.enc.total + BitVec.ofNat 32 m } })
    ∧ (s.enc.uif = true → s.enc.uie = true → s.enc.dir = true → exec .evEncirq s = .next { s with enc := { s.enc with
        uif := false, total := s.enc.total - BitVec.ofNat 32 m } })
    ∧ (s.enc.uif = false ∨ s.enc.uie = false → exec .evEncirq s = .refused .eventNotEnabled)

/-- R206: with no handler step between two updates and no other agent's turn inside the later one (log 4), the later one
adds the net number of counts modulo the modulus, folded, and exactly that number while it is less than half the
modulus. -/
def Obligations.UpdateTracksNetCounts : Prop :=
  ∀ (ds : List Bool) (s : State),
    s.preempt = [] → s.enc.inited = true → s.enc.cen = true → s.enc.arr ≠ 0 →
    s.enc.cnt.toNat ≤ s.enc.arr.toNat → s.enc.lastHw = s.enc.cnt →
    ∃ (t u : State) (d : Int), quadratureRun ds s = .next t ∧ exec .encUpdate t = .next u
      ∧ u.enc.total = s.enc.total + BitVec.ofInt 32 d ∧ u.enc.lastHw = u.enc.cnt
      ∧ (d - netCounts ds) % (s.enc.arr.toNat + 1) = 0 ∧ 2 * d.natAbs ≤ s.enc.arr.toNat + 1
      ∧ (2 * (netCounts ds).natAbs < s.enc.arr.toNat + 1 → d = netCounts ds)

/-- R207, R283: with the interrupt on, a short wrap between two updates is counted by the handler and by the fold (no other
agent's turn inside the update, log 4). -/
def Obligations.ShortWrapCountedTwice : Prop :=
  ∀ s : State,
    s.preempt = [] → s.enc.inited = true → s.enc.cen = true → s.enc.uie = true → 2 ≤ s.enc.arr.toNat →
    s.enc.cnt = s.enc.arr → s.enc.lastHw = s.enc.arr →
    ∃ t, execAll [quadratureUp s.enc, .evEncirq, .encUpdate] s = .next t
      ∧ t.enc.total = s.enc.total + BitVec.ofNat 32 (s.enc.arr.toNat + 1) + 1

/-! ## Buttons -/

/-- R220, R221. -/
def Obligations.BtnInitAndMinit : Prop :=
  ∀ (b : BitVec 3) (pin port : BitVec 4) (al : Bool) (s : State),
    let handle : Button := {
      port := port, pin := pin, activeLevel := al, current := false, last := false, pressLatch := false
      shiftReg := 0, initialized := true }
    let timer : Timer := { startMs := s.tick.ms, intervalMs := 5, enabled := true, autoReload := true }
    DecodesTo [0x40000000#32 ||| place b 0 ||| place pin 4 ||| place port 8 ||| placeBit al 12]
      (.btnInit b pin port al)
    ∧ DecodesTo [0x41000000] .btnMinit
    ∧ exec (.btnInit b pin port al) s = .next ({ s with btn := s.btn.set b.toNat handle b.isLt }.respond .success 0)
    ∧ exec .btnMinit s = .next ({ s with
        tmr := s.tmr.set 1 timer
        mgr := { s.mgr with count := 0, inited := true } }.respond .success 0)

/-- R222, R250: the four checks in their order, and the registration. -/
def Obligations.BtnAddRegisters : Prop :=
  ∀ (b : BitVec 3) (s : State),
    DecodesTo [0x42000000#32 ||| place b 0] (.btnAdd b)
    ∧ (s.mgr.inited = false ∨ (s.button b).initialized = false →
        exec (.btnAdd b) s = .next (s.respond .uninitialized 0))
    ∧ (s.mgr.inited = true → (s.button b).initialized = true →
        s.mgr.count = 8 ∨ (∃ (k : Nat) (hk : k < 8), k < s.mgr.count.toNat ∧ s.mgr.slot[k] = b) →
        exec (.btnAdd b) s = .next (s.respond .invalidArgument 0))
    ∧ (∀ hc : s.mgr.count.toNat < 8, s.mgr.inited = true → (s.button b).initialized = true →
        (∀ (k : Nat) (hk : k < 8), k < s.mgr.count.toNat → s.mgr.slot[k] ≠ b) →
        exec (.btnAdd b) s = .next ({ s with mgr := { s.mgr with
          slot := s.mgr.slot.set s.mgr.count.toNat b hc, count := s.mgr.count + 1 } }.respond .success 0))

/-- R223, R224: an expired scan takes one sample of every registered handle, by the debounce law, and touches no other;
that a handle is registered once is an invariant (`StepKeepsAdmissible`). -/
def Obligations.BtnScanSamplesRegistered : Prop :=
  ∀ s : State, s.mgr.registered.Nodup →
    let tm := s.timer 1
    let expired := tm.enabled = true ∧ tm.intervalMs ≤ s.tick.ms - tm.startMs
    let p1 := s.setTimer 1 (if tm.autoReload then { tm with startMs := s.tick.ms } else { tm with enabled := false })
    let raw := fun (h : Button) => decide (s.gpioLevel h.port h.pin = h.activeLevel)
    let shifted := fun (h : Button) => h.shiftReg <<< 1 ||| if raw h then 1 else 0
    let w := fun (h : Button) => (shifted h).toNat % 16
    let sampled := fun (h : Button) => { h with
      shiftReg := shifted h
      last := h.current
      current := if w h = 0b1111 ∧ h.current = false then true
        else if w h = 0b0000 ∧ h.current = true then false else h.current
      pressLatch := if w h = 0b1111 ∧ h.current = false then true else h.pressLatch }
    DecodesTo [0x43000000] .btnScan
    ∧ (s.mgr.inited = false → exec .btnScan s = .next (s.respond .uninitialized 0))
    ∧ (s.mgr.inited = true → ¬ expired → exec .btnScan s = .next (s.respond .success 0))
    ∧ (s.mgr.inited = true → expired → ∃ btn, exec .btnScan s = .next ({ p1 with btn := btn }.respond .success 1)
        ∧ ∀ b : BitVec 3, btn[b.toNat]'b.isLt
            = if b ∈ s.mgr.registered then sampled (s.button b) else s.button b)

/-- R228: a registered button held at its active level through four polls is pressed, and its event is taken once; a
handle that is pressed latches no further event, whatever it samples. -/
def Obligations.FourPollsLatchOneEvent : Prop :=
  (∀ (s : State) (b : BitVec 3),
    s.tick.systEn = true → s.tick.delay.active = false → s.mgr.inited = true → s.mgr.registered.Nodup →
    b ∈ s.mgr.registered → (s.button b).initialized = true → (s.button b).current = false →
    s.timer 1 = { startMs := s.tick.ms, intervalMs := 5, enabled := true, autoReload := true } →
    s.gpioLevel (s.button b).port (s.button b).pin = (s.button b).activeLevel →
    ∃ t, execAll (buttonPoll ++ buttonPoll ++ buttonPoll ++ buttonPoll ++ [.btnPressed b, .btnTake b, .btnTake b]) s
        = .next t
      ∧ t.responses = [⟨.success, 0⟩, ⟨.success, 1⟩, ⟨.success, 1⟩, ⟨.success, 1⟩, ⟨.success, 1⟩, ⟨.success, 1⟩,
          ⟨.success, 1⟩] ++ s.responses)
  ∧ ∀ (h : Button) (level : Bool), h.current = true → (h.sample level).pressLatch = h.pressLatch

/-- R225, R226: the latch is returned and cleared in one step. -/
def Obligations.BtnTakeAndPressed : Prop :=
  ∀ (b : BitVec 3) (s : State),
    DecodesTo [0x44000000#32 ||| place b 0] (.btnTake b) ∧ DecodesTo [0x45000000#32 ||| place b 0] (.btnPressed b)
    ∧ ((s.button b).initialized = false →
        exec (.btnTake b) s = .next (s.respond .uninitialized 0)
        ∧ exec (.btnPressed b) s = .next (s.respond .uninitialized 0))
    ∧ ((s.button b).initialized = true →
        exec (.btnTake b) s = .next ((s.setButton b { s.button b with pressLatch := false }).respond .success
          (if (s.button b).pressLatch then 1 else 0))
        ∧ exec (.btnPressed b) s = .next (s.respond .success (if (s.button b).current then 1 else 0)))

/-- R227: one pin takes the level, every other pin keeps its own, and nothing else changes. -/
def Obligations.EvPinSetsLevel : Prop :=
  ∀ (v : Bool) (pin port : BitVec 4) (s : State),
    DecodesTo [0xE7000000#32 ||| placeBit v 0 ||| place pin 4 ||| place port 8] (.evPin v pin port)
    ∧ ∃ gpio, exec (.evPin v pin port) s = .next { s with gpioIn := gpio }
      ∧ ∀ p q : BitVec 4, (gpio[p.toNat]'p.isLt)[q.toNat]'q.isLt
          = if p = port ∧ q = pin then v else s.gpioLevel p q

/-! ## Reset -/

/-- R270, R271, R51: every element 0 or false, the command in progress abandoned, the configuration and memory kept;
afterwards no handler, tick or sample is enabled. That the draws made, the turns, the responses and the trace are kept
is the model's, not R270's (logs 1, 4, 12 and 3). -/
def Obligations.EvResetClears : Prop :=
  ∀ s : State,
    DecodesTo [0xEF000000] .evReset
    ∧ ∃ t, exec .evReset s = .next t
      ∧ t = {
          tick := { ms := 0, systEn := false, systReload := 0, delay := { active := false, start := 0, n := 0 } }
          tmr := Vector.replicate 4 { startMs := 0, intervalMs := 0, enabled := false, autoReload := false }
          smp := {
            inited := false, base := 0, n := 0, adcOn := false, adcRun := false, adcDr := 0
            adcCont := false, adcAlignRight := false, adcRes12 := false, adcDma := false, adcDds := false
            dmaCirc := false, dmaMinc := false, htie := false, tcie := false, teie := false
            dmaEn := false, widx := 0, tcif := false, htif := false, teif := false, batchReady := false }
          motorEn := false
          enc := {
            cnt := 0, arr := 0, qa := false, qb := false, hwCount := 0, total := 0, lastHw := 0, lastTotal := 0
            lastTickMs := 0, speedRpm := 0, cpr := 0, maxCount := 0, seeded := false, inited := false, cen := false
            dir := false, uif := false, uie := false, pola := false, polb := false }
          btn := Vector.replicate 8 {
            port := 0, pin := 0, activeLevel := false, current := false, last := false, pressLatch := false
            shiftReg := 0, initialized := false }
          mgr := { count := 0, slot := Vector.replicate 8 0, inited := false }
          gpioIn := Vector.replicate 16 (Vector.replicate 16 false)
          inProgress := none
          cfg := s.cfg, mem := s.mem, responses := s.responses, trace := s.trace, preempt := s.preempt
          draws := s.draws }
      ∧ (∀ a, Memory.byteAt t.mem a = Memory.byteAt s.mem a)
      ∧ exec .evTick t = .refused .eventNotEnabled ∧ exec .evDmairq t = .refused .eventNotEnabled
      ∧ exec .evEncirq t = .refused .eventNotEnabled ∧ exec .evDmate t = .refused .eventNotEnabled
      ∧ (∀ v, exec (.evSample v) t = .refused .eventNotEnabled)
      ∧ (∀ v, exec (.evQa v) t = .next { t with enc := { t.enc with qa := v } })
      ∧ (∀ v, exec (.evQb v) t = .next { t with enc := { t.enc with qb := v } })
      ∧ exec .motGet t = .next (t.respond .success 0) ∧ exec .smpReady t = .next (t.respond .success 0)
      ∧ exec .tckNow t = .next (t.respond .success 0) ∧ exec .encCount t = .next (t.respond .uninitialized 0)

/-- R270, R8: a run that starts from reset starts in the state `EV.RESET` leaves, with the configuration at its
defaults. -/
def Obligations.RunStartsInResetState : Prop :=
  exec .evReset State.reset = .next State.reset
    ∧ State.reset.cfg = { thresh := 3400, teAdmitted := false, foldHalf := .either, memRegion := [⟨0, 0x100000000⟩] }
end

