-- ==== Sys2Proof/Laws/Decode.lean ====
section
/-! SUPPORT. The opcode and the unit of an encoded step word, and what the decoder can answer. -/

namespace Sys2Proof

/-! ## Bits of a step word -/

theorem opOf_bit (w : Word) (i : Nat) (hi : i < 8) : (opOf w).getLsbD i = w.getLsbD (24 + i) := by
  simp [opOf, hi]

@[simp] theorem opOf_or (x y : Word) : opOf (x ||| y) = opOf x ||| opOf y := by
  apply BitVec.eq_of_getLsbD_eq
  intro i hi
  simp only [opOf_bit _ _ hi, BitVec.getLsbD_or]

theorem opOf_place {n : Nat} (x : BitVec n) (lo : Nat) (h : n + lo ≤ 24) : opOf (place x lo) = 0 := by
  apply BitVec.eq_of_getLsbD_eq
  intro i hi
  rw [opOf_bit _ _ hi, place]
  simp only [BitVec.getLsbD_shiftLeft, BitVec.getLsbD_setWidth]
  rw [BitVec.getLsbD_of_ge x _ (by omega)]
  simp

@[simp] theorem opOf_placeBit (c : Bool) (lo : Nat) (h : 1 + lo ≤ 24) : opOf (placeBit c lo) = 0 := opOf_place _ lo h

/-- The opcode of a step word whose operand field stays below it. -/
theorem opOf_stepWord (op : BitVec 8) (fields : Word) (h : opOf fields = 0) : opOf (stepWord op fields) = op := by
  rw [stepWord, opOf_or, h]
  apply BitVec.eq_of_getLsbD_eq
  intro i hi
  have hi' : 24 + i < 32 := by omega
  simp [opOf_bit _ _ hi, place, hi']

/-- The unit of a word is the high half of its opcode. -/
theorem isEventWord_eq (w : Word) : isEventWord w = decide ((opOf w).extractLsb' 4 4 = 0xE#4) := by
  have h : w.extractLsb' 28 4 = (opOf w).extractLsb' 4 4 := by
    apply BitVec.eq_of_getLsbD_eq
    intro i hi
    have h1 : 4 + i < 8 := by omega
    simp only [BitVec.getLsbD_extractLsb', hi, decide_true, Bool.true_and, opOf_bit _ _ h1, ← Nat.add_assoc]
  rw [isEventWord, h]

/-! ## The decoder -/

/-- What the decoder answers on a word: a step or a truncated step of the word's row, or an illegal word (R110). -/
theorem decode_cases (w : Word) (rest : List Word) :
    (∃ r, rowOf (opOf w) = some r ∧ w &&& r.reserved = 0 ∧ decode (w :: rest) = decodeExt r w rest)
      ∨ decode (w :: rest) = decodeIllegal w rest := by
  simp only [decode]
  cases hr : rowOf (opOf w) with
  | none => exact .inr rfl
  | some r =>
    by_cases h : w &&& r.reserved = 0
    · exact .inl ⟨r, rfl, h, if_pos h⟩
    · exact .inr (if_neg h)

/-- A word whose opcode has a row and whose reserved bits are 0 decodes by that row (R110). -/
theorem decode_of_row {w : Word} {r : Row} (rest : List Word) (hr : rowOf (opOf w) = some r)
    (hz : w &&& r.reserved = 0) : decode (w :: rest) = decodeExt r w rest := by
  simp only [decode, hr, hz, if_true]

/-- A row found for an opcode is a row of the table, with that opcode. -/
theorem rowOf_spec {op : BitVec 8} {r : Row} (h : rowOf op = some r) : r ∈ opcodeTable ∧ r.op = op :=
  ⟨List.mem_of_find?_eq_some h, by simpa using List.find?_some h⟩

/-- Every row of the event unit, and no other, makes a step that is not the host's (R100, R104). -/
theorem opcodeTable_units : ∀ r ∈ opcodeTable, ∀ w a0 a1,
    Machine.issuedByHost (r.make w a0 a1) = !decide (r.op.extractLsb' 4 4 = 0xE#4) := by
  simp only [opcodeTable, rowsTick, rowsSampler, rowsProtection, rowsEncoder, rowsButton, rowsEvent,
    List.cons_append, List.nil_append, List.forall_mem_cons, List.not_mem_nil, false_implies, implies_true, and_true]
  refine ⟨?_, ?_, ?_, ?_, ?_, ?_, ?_, ?_, ?_, ?_, ?_, ?_, ?_, ?_, ?_, ?_, ?_, ?_, ?_, ?_, ?_, ?_, ?_, ?_, ?_, ?_, ?_,
    ?_, ?_, ?_, ?_, ?_, ?_, ?_, ?_, ?_, ?_, ?_, ?_, ?_, ?_, ?_⟩ <;> exact fun _ _ _ => rfl

/-- A decoded step is the host's exactly when its step word is outside the event unit (R100). -/
theorem decode_unit {w : Word} {rest rest' : List Word} {i : Instr} (h : decode (w :: rest) = .step i rest') :
    Machine.issuedByHost i = !isEventWord w := by
  rcases decode_cases w rest with ⟨r, hr, -, hd⟩ | hd
  · obtain ⟨hm, ho⟩ := rowOf_spec hr
    rw [hd] at h
    have hmake : ∃ a0 a1, i = r.make w a0 a1 := by
      unfold decodeExt at h
      split at h
      · cases h; exact ⟨_, _, rfl⟩
      · cases h; exact ⟨_, _, rfl⟩
      · cases h; exact ⟨_, _, rfl⟩
      · cases h
    obtain ⟨a0, a1, rfl⟩ := hmake
    rw [opcodeTable_units r hm, isEventWord_eq, ho]
  · rw [hd, decodeIllegal] at h
    split at h <;> cases h

end Sys2Proof
end

