-- ==== Sys2Proof/Laws/Memory.lean ====
section
/-! SUPPORT. Data memory: a read after a write, the canonical form every write keeps, and what the region check says. -/

namespace Sys2Proof.Machine

/-! ## One byte -/

@[simp] theorem Memory.read_write_same (m : List Host.Cell) (x : Nat) (v : Byte) :
    Memory.read (Memory.write m x v) x = some v := by
  induction m with
  | nil => simp [Memory.write, Memory.read]
  | cons c m ih =>
    obtain ⟨a, b⟩ := c
    unfold Memory.write
    split
    · simp [Memory.read]
    · split
      · simp [Memory.read]
      · rename_i h1 h2
        simp [Memory.read, h2, ih]

theorem Memory.read_write_other (m : List Host.Cell) (x y : Nat) (v : Byte) (h : y ≠ x) :
    Memory.read (Memory.write m x v) y = Memory.read m y := by
  induction m with
  | nil => simp [Memory.write, Memory.read, h]
  | cons c m ih =>
    obtain ⟨a, b⟩ := c
    unfold Memory.write
    split
    · simp [Memory.read, h]
    · split
      · rename_i h1 h2
        subst h2
        simp [Memory.read, h]
      · simp [Memory.read, ih]

/-- Every entry after a write is the written one or stood there before. -/
theorem Memory.mem_write (m : List Host.Cell) (x : Nat) (v : Byte) (c : Host.Cell) (h : c ∈ Memory.write m x v) :
    c = (x, v) ∨ c ∈ m := by
  induction m with
  | nil => simpa [Memory.write] using h
  | cons d m ih =>
    obtain ⟨a, b⟩ := d
    unfold Memory.write at h
    split at h
    · simpa using h
    · split at h
      · simp only [List.mem_cons] at h ⊢
        rcases h with h | h
        · exact .inl h
        · exact .inr (.inr h)
      · simp only [List.mem_cons] at h ⊢
        rcases h with h | h
        · exact .inr (.inl h)
        · rcases ih h with h | h
          · exact .inl h
          · exact .inr (.inr h)

/-- A write of a byte inside the address space keeps the canonical form. -/
theorem Memory.write_wf (m : List Host.Cell) (x : Nat) (v : Byte) (hx : x < 0x100000000) (h : Memory.wf m) :
    Memory.wf (Memory.write m x v) := by
  refine ⟨?_, fun c hc => ?_⟩
  · obtain ⟨h, -⟩ := h
    induction m with
    | nil => simp [Memory.write]
    | cons d m ih =>
      obtain ⟨a, b⟩ := d
      rw [List.pairwise_cons] at h
      unfold Memory.write
      split
      · rename_i hlt
        rw [List.pairwise_cons, List.pairwise_cons]
        refine ⟨fun c hc => ?_, h⟩
        rcases List.mem_cons.mp hc with rfl | hc
        · exact hlt
        · exact Nat.lt_trans hlt (h.1 c hc)
      · split
        · rename_i heq
          rw [List.pairwise_cons]
          exact ⟨fun c hc => heq ▸ h.1 c hc, h.2⟩
        · rename_i hlt hne
          rw [List.pairwise_cons]
          refine ⟨fun c hc => ?_, ih h.2⟩
          rcases Memory.mem_write m x v c hc with rfl | hc
          · show a < x
            omega
          · exact h.1 c hc
  · rcases Memory.mem_write m x v c hc with rfl | hc
    · exact hx
    · exact h.2 c hc

/-! ## Half-words -/

/-- What a 16-bit write leaves: both bytes, the canonical form, and every other byte as before. -/
theorem Memory.write16_spec {m m' : List Host.Cell} {a : Nat} {v : Half} (h : Memory.write16 m a v = some m') :
    a + 1 < 0x100000000 ∧ Memory.read m' a = some (v.extractLsb' 0 8) ∧ Memory.read m' (a + 1) = some (v.extractLsb' 8 8)
      ∧ (∀ x, x ≠ a → x ≠ a + 1 → Memory.read m' x = Memory.read m x) ∧ (Memory.wf m → Memory.wf m')
      ∧ ∀ c ∈ m', c ∈ m ∨ c = (a, v.extractLsb' 0 8) ∨ c = (a + 1, v.extractLsb' 8 8) := by
  unfold Memory.write16 at h
  split at h
  · rename_i hlt
    cases h
    refine ⟨hlt, ?_, by simp, fun x h1 h2 => ?_, fun hw => ?_, fun c hc => ?_⟩
    · rw [Memory.read_write_other _ _ _ _ (by omega)]
      simp
    · rw [Memory.read_write_other _ _ _ _ h2, Memory.read_write_other _ _ _ _ h1]
    · exact Memory.write_wf _ _ _ hlt (Memory.write_wf _ _ _ (by omega) hw)
    · rcases Memory.mem_write _ _ _ _ hc with h | h
      · exact .inr (.inr h)
      · rcases Memory.mem_write _ _ _ _ h with h | h
        · exact .inr (.inl h)
        · exact .inl h
  · cases h

/-- A 16-bit write inside the address space succeeds. -/
theorem Memory.write16_isSome (m : List Host.Cell) (a : Nat) (v : Half) (h : a + 1 < 0x100000000) :
    ∃ m', Memory.write16 m a v = some m' := ⟨_, if_pos h⟩

/-- A 16-bit read inside the address space succeeds. -/
theorem Memory.read16_isSome (m : List Host.Cell) (a : Nat) (h : a + 1 < 0x100000000) :
    Memory.read16 m a = some (Memory.byteAt m (a + 1) ++ Memory.byteAt m a) := if_pos h

/-- The two bytes of a half-word make it again. -/
theorem half_of_bytes (v : Half) : (v.extractLsb' 8 8 ++ v.extractLsb' 0 8 : Half) = v := by
  apply BitVec.eq_of_toNat_eq
  have := v.isLt
  simp only [BitVec.toNat_append, BitVec.extractLsb'_toNat, Nat.shiftRight_eq_div_pow]
  rw [← Nat.shiftLeft_add_eq_or_of_lt (Nat.mod_lt _ (by decide)), Nat.shiftLeft_eq]
  omega

/-- A 16-bit read gives what a 16-bit write at the same address stored. -/
theorem Memory.read16_write16_same {m m' : List Host.Cell} {a : Nat} {v : Half} (h : Memory.write16 m a v = some m') :
    Memory.read16 m' a = some v := by
  obtain ⟨hlt, h0, h1, -⟩ := Memory.write16_spec h
  rw [Memory.read16_isSome m' a hlt, Memory.byteAt, Memory.byteAt, h0, h1, Option.getD_some, Option.getD_some,
    half_of_bytes]

/-- A 16-bit read of two bytes outside the written ones reads as before. -/
theorem Memory.read16_write16_other {m m' : List Host.Cell} {a x : Nat} {v : Half}
    (h : Memory.write16 m a v = some m') (hx : x + 1 < a ∨ a + 1 < x) : Memory.read16 m' x = Memory.read16 m x := by
  obtain ⟨-, -, -, hother, -⟩ := Memory.write16_spec h
  unfold Memory.read16 Memory.byteAt
  rw [hother x (by omega) (by omega), hother (x + 1) (by omega) (by omega)]

/-! ## The region check -/

/-- A byte lies in one of the intervals. -/
def inIntervals (ps : List (Nat × Nat)) (x : Nat) : Prop := ∃ p ∈ ps, p.1 ≤ x ∧ x < p.2

/-- A region holds a byte. -/
def regionHas (r : Region) (x : Nat) : Prop := r.base ≤ x ∧ x < r.base + r.size

theorem inIntervals_regionCut (r : Region) (p : Nat × Nat) (x : Nat) :
    inIntervals (regionCut r p) x ↔ (p.1 ≤ x ∧ x < p.2) ∧ ¬ regionHas r x := by
  constructor
  · rintro ⟨q, hq, h1, h2⟩
    simp only [regionCut, List.mem_filter, List.mem_cons, List.not_mem_nil, or_false] at hq
    rcases hq with ⟨rfl | rfl, -⟩ <;> simp only [regionHas] at * <;> omega
  · rintro ⟨⟨h1, h2⟩, h3⟩
    simp only [regionHas] at h3
    by_cases h : x < r.base
    · exact ⟨(p.1, min p.2 r.base), by simp [regionCut]; omega, h1, by simp; omega⟩
    · exact ⟨(max p.1 (r.base + r.size), p.2), by simp [regionCut]; omega, by simp; omega, h2⟩

theorem inIntervals_uncovered (rs : List Region) (ps : List (Nat × Nat)) (x : Nat) :
    inIntervals (uncovered rs ps) x ↔ inIntervals ps x ∧ ∀ r ∈ rs, ¬ regionHas r x := by
  induction rs generalizing ps with
  | nil => simp [uncovered]
  | cons r rs ih =>
    have hcut : inIntervals (ps.flatMap (regionCut r)) x ↔ inIntervals ps x ∧ ¬ regionHas r x := by
      constructor
      · rintro ⟨q, hq, hx⟩
        obtain ⟨p, hp, hq⟩ := List.mem_flatMap.mp hq
        have := (inIntervals_regionCut r p x).mp ⟨q, hq, hx⟩
        exact ⟨⟨p, hp, this.1⟩, this.2⟩
      · rintro ⟨⟨p, hp, hx⟩, hr⟩
        obtain ⟨q, hq, hx⟩ := (inIntervals_regionCut r p x).mpr ⟨hx, hr⟩
        exact ⟨q, List.mem_flatMap.mpr ⟨p, hp, hq⟩, hx⟩
    rw [uncovered, ih, hcut, List.forall_mem_cons, and_assoc]

theorem uncovered_nonempty_intervals (rs : List Region) (ps : List (Nat × Nat)) (h : ∀ p ∈ ps, p.1 < p.2) :
    ∀ p ∈ uncovered rs ps, p.1 < p.2 := by
  induction rs generalizing ps with
  | nil => exact h
  | cons r rs ih =>
    refine ih _ fun q hq => ?_
    obtain ⟨p, -, hq⟩ := List.mem_flatMap.mp hq
    simpa using (List.mem_filter.mp hq).2

/-- R79: the region check says that every byte of the interval lies in some region. -/
theorem inRegion_iff (rs : List Region) (lo hi : Nat) :
    inRegion rs lo hi = true ↔ ∀ x, lo ≤ x → x < hi → ∃ r ∈ rs, regionHas r x := by
  unfold inRegion
  rw [List.isEmpty_iff]
  have hne := uncovered_nonempty_intervals rs ([(lo, hi)].filter fun q => decide (q.1 < q.2))
    (fun p hp => by simpa using (List.mem_filter.mp hp).2)
  constructor
  · intro h x h1 h2
    refine Classical.byContradiction fun hno => ?_
    have hin : inIntervals ([(lo, hi)].filter fun q => decide (q.1 < q.2)) x :=
      ⟨(lo, hi), by simp; omega, h1, h2⟩
    have := (inIntervals_uncovered rs _ x).mpr ⟨hin, fun r hr hx => hno ⟨r, hr, hx⟩⟩
    rw [h] at this
    obtain ⟨p, hp, -⟩ := this
    cases hp
  · intro h
    cases hu : uncovered rs ([(lo, hi)].filter fun q => decide (q.1 < q.2)) with
    | nil => rfl
    | cons p ps =>
      rw [hu] at hne
      have hp := hne p (List.mem_cons_self ..)
      have hin : inIntervals (uncovered rs ([(lo, hi)].filter fun q => decide (q.1 < q.2))) p.1 := by
        rw [hu]; exact ⟨p, List.mem_cons_self .., Nat.le_refl _, hp⟩
      obtain ⟨⟨q, hq, hx⟩, hno⟩ := (inIntervals_uncovered rs _ p.1).mp hin
      have hq : q = (lo, hi) := by simpa using (List.mem_filter.mp hq).1
      subst hq
      obtain ⟨r, hr, hrx⟩ := h p.1 hx.1 hx.2
      exact absurd hrx (hno r hr)

end Sys2Proof.Machine
end

