-- ==== Sys2Proof/Laws/State.lean ====
section
/-! SUPPORT. One lemma per field for each update of the state, and the register files' reads after writes, so that no
later proof unfolds a record update. -/

namespace Sys2Proof.Machine

/-! ### `respond` -/

@[simp] theorem State.respond_tick (s : State) (st : Status) (rsp : Word) : (s.respond st rsp).tick = s.tick := rfl
@[simp] theorem State.respond_tmr (s : State) (st : Status) (rsp : Word) : (s.respond st rsp).tmr = s.tmr := rfl
@[simp] theorem State.respond_smp (s : State) (st : Status) (rsp : Word) : (s.respond st rsp).smp = s.smp := rfl
@[simp] theorem State.respond_motorEn (s : State) (st : Status) (rsp : Word) : (s.respond st rsp).motorEn = s.motorEn := rfl
@[simp] theorem State.respond_enc (s : State) (st : Status) (rsp : Word) : (s.respond st rsp).enc = s.enc := rfl
@[simp] theorem State.respond_btn (s : State) (st : Status) (rsp : Word) : (s.respond st rsp).btn = s.btn := rfl
@[simp] theorem State.respond_mgr (s : State) (st : Status) (rsp : Word) : (s.respond st rsp).mgr = s.mgr := rfl
@[simp] theorem State.respond_gpioIn (s : State) (st : Status) (rsp : Word) : (s.respond st rsp).gpioIn = s.gpioIn := rfl
@[simp] theorem State.respond_cfg (s : State) (st : Status) (rsp : Word) : (s.respond st rsp).cfg = s.cfg := rfl
@[simp] theorem State.respond_mem (s : State) (st : Status) (rsp : Word) : (s.respond st rsp).mem = s.mem := rfl
@[simp] theorem State.respond_inProgress (s : State) (st : Status) (rsp : Word) : (s.respond st rsp).inProgress = s.inProgress := rfl
@[simp] theorem State.respond_trace (s : State) (st : Status) (rsp : Word) : (s.respond st rsp).trace = s.trace := rfl
@[simp] theorem State.respond_preempt (s : State) (st : Status) (rsp : Word) : (s.respond st rsp).preempt = s.preempt := rfl
@[simp] theorem State.respond_draws (s : State) (st : Status) (rsp : Word) : (s.respond st rsp).draws = s.draws := rfl

/-! ### `setTimer` -/

@[simp] theorem State.setTimer_tick (s : State) (t : BitVec 2) (v : Timer) : (s.setTimer t v).tick = s.tick := rfl
@[simp] theorem State.setTimer_smp (s : State) (t : BitVec 2) (v : Timer) : (s.setTimer t v).smp = s.smp := rfl
@[simp] theorem State.setTimer_motorEn (s : State) (t : BitVec 2) (v : Timer) : (s.setTimer t v).motorEn = s.motorEn := rfl
@[simp] theorem State.setTimer_enc (s : State) (t : BitVec 2) (v : Timer) : (s.setTimer t v).enc = s.enc := rfl
@[simp] theorem State.setTimer_btn (s : State) (t : BitVec 2) (v : Timer) : (s.setTimer t v).btn = s.btn := rfl
@[simp] theorem State.setTimer_mgr (s : State) (t : BitVec 2) (v : Timer) : (s.setTimer t v).mgr = s.mgr := rfl
@[simp] theorem State.setTimer_gpioIn (s : State) (t : BitVec 2) (v : Timer) : (s.setTimer t v).gpioIn = s.gpioIn := rfl
@[simp] theorem State.setTimer_cfg (s : State) (t : BitVec 2) (v : Timer) : (s.setTimer t v).cfg = s.cfg := rfl
@[simp] theorem State.setTimer_mem (s : State) (t : BitVec 2) (v : Timer) : (s.setTimer t v).mem = s.mem := rfl
@[simp] theorem State.setTimer_inProgress (s : State) (t : BitVec 2) (v : Timer) : (s.setTimer t v).inProgress = s.inProgress := rfl
@[simp] theorem State.setTimer_responses (s : State) (t : BitVec 2) (v : Timer) : (s.setTimer t v).responses = s.responses := rfl
@[simp] theorem State.setTimer_trace (s : State) (t : BitVec 2) (v : Timer) : (s.setTimer t v).trace = s.trace := rfl
@[simp] theorem State.setTimer_preempt (s : State) (t : BitVec 2) (v : Timer) : (s.setTimer t v).preempt = s.preempt := rfl
@[simp] theorem State.setTimer_draws (s : State) (t : BitVec 2) (v : Timer) : (s.setTimer t v).draws = s.draws := rfl

/-! ### `setButton` -/

@[simp] theorem State.setButton_tick (s : State) (b : BitVec 3) (v : Button) : (s.setButton b v).tick = s.tick := rfl
@[simp] theorem State.setButton_tmr (s : State) (b : BitVec 3) (v : Button) : (s.setButton b v).tmr = s.tmr := rfl
@[simp] theorem State.setButton_smp (s : State) (b : BitVec 3) (v : Button) : (s.setButton b v).smp = s.smp := rfl
@[simp] theorem State.setButton_motorEn (s : State) (b : BitVec 3) (v : Button) : (s.setButton b v).motorEn = s.motorEn := rfl
@[simp] theorem State.setButton_enc (s : State) (b : BitVec 3) (v : Button) : (s.setButton b v).enc = s.enc := rfl
@[simp] theorem State.setButton_mgr (s : State) (b : BitVec 3) (v : Button) : (s.setButton b v).mgr = s.mgr := rfl
@[simp] theorem State.setButton_gpioIn (s : State) (b : BitVec 3) (v : Button) : (s.setButton b v).gpioIn = s.gpioIn := rfl
@[simp] theorem State.setButton_cfg (s : State) (b : BitVec 3) (v : Button) : (s.setButton b v).cfg = s.cfg := rfl
@[simp] theorem State.setButton_mem (s : State) (b : BitVec 3) (v : Button) : (s.setButton b v).mem = s.mem := rfl
@[simp] theorem State.setButton_inProgress (s : State) (b : BitVec 3) (v : Button) : (s.setButton b v).inProgress = s.inProgress := rfl
@[simp] theorem State.setButton_responses (s : State) (b : BitVec 3) (v : Button) : (s.setButton b v).responses = s.responses := rfl
@[simp] theorem State.setButton_trace (s : State) (b : BitVec 3) (v : Button) : (s.setButton b v).trace = s.trace := rfl
@[simp] theorem State.setButton_preempt (s : State) (b : BitVec 3) (v : Button) : (s.setButton b v).preempt = s.preempt := rfl
@[simp] theorem State.setButton_draws (s : State) (b : BitVec 3) (v : Button) : (s.setButton b v).draws = s.draws := rfl

/-! ### `setGpio` -/

@[simp] theorem State.setGpio_tick (s : State) (port pin : BitVec 4) (v : Bool) : (s.setGpio port pin v).tick = s.tick := rfl
@[simp] theorem State.setGpio_tmr (s : State) (port pin : BitVec 4) (v : Bool) : (s.setGpio port pin v).tmr = s.tmr := rfl
@[simp] theorem State.setGpio_smp (s : State) (port pin : BitVec 4) (v : Bool) : (s.setGpio port pin v).smp = s.smp := rfl
@[simp] theorem State.setGpio_motorEn (s : State) (port pin : BitVec 4) (v : Bool) : (s.setGpio port pin v).motorEn = s.motorEn := rfl
@[simp] theorem State.setGpio_enc (s : State) (port pin : BitVec 4) (v : Bool) : (s.setGpio port pin v).enc = s.enc := rfl
@[simp] theorem State.setGpio_btn (s : State) (port pin : BitVec 4) (v : Bool) : (s.setGpio port pin v).btn = s.btn := rfl
@[simp] theorem State.setGpio_mgr (s : State) (port pin : BitVec 4) (v : Bool) : (s.setGpio port pin v).mgr = s.mgr := rfl
@[simp] theorem State.setGpio_cfg (s : State) (port pin : BitVec 4) (v : Bool) : (s.setGpio port pin v).cfg = s.cfg := rfl
@[simp] theorem State.setGpio_mem (s : State) (port pin : BitVec 4) (v : Bool) : (s.setGpio port pin v).mem = s.mem := rfl
@[simp] theorem State.setGpio_inProgress (s : State) (port pin : BitVec 4) (v : Bool) : (s.setGpio port pin v).inProgress = s.inProgress := rfl
@[simp] theorem State.setGpio_responses (s : State) (port pin : BitVec 4) (v : Bool) : (s.setGpio port pin v).responses = s.responses := rfl
@[simp] theorem State.setGpio_trace (s : State) (port pin : BitVec 4) (v : Bool) : (s.setGpio port pin v).trace = s.trace := rfl
@[simp] theorem State.setGpio_preempt (s : State) (port pin : BitVec 4) (v : Bool) : (s.setGpio port pin v).preempt = s.preempt := rfl
@[simp] theorem State.setGpio_draws (s : State) (port pin : BitVec 4) (v : Bool) : (s.setGpio port pin v).draws = s.draws := rfl

/-! ### `turnTaken` -/

@[simp] theorem State.turnTaken_tick (s : State) : (s.turnTaken).tick = s.tick := rfl
@[simp] theorem State.turnTaken_tmr (s : State) : (s.turnTaken).tmr = s.tmr := rfl
@[simp] theorem State.turnTaken_smp (s : State) : (s.turnTaken).smp = s.smp := rfl
@[simp] theorem State.turnTaken_motorEn (s : State) : (s.turnTaken).motorEn = s.motorEn := rfl
@[simp] theorem State.turnTaken_enc (s : State) : (s.turnTaken).enc = s.enc := rfl
@[simp] theorem State.turnTaken_btn (s : State) : (s.turnTaken).btn = s.btn := rfl
@[simp] theorem State.turnTaken_mgr (s : State) : (s.turnTaken).mgr = s.mgr := rfl
@[simp] theorem State.turnTaken_gpioIn (s : State) : (s.turnTaken).gpioIn = s.gpioIn := rfl
@[simp] theorem State.turnTaken_cfg (s : State) : (s.turnTaken).cfg = s.cfg := rfl
@[simp] theorem State.turnTaken_mem (s : State) : (s.turnTaken).mem = s.mem := rfl
@[simp] theorem State.turnTaken_inProgress (s : State) : (s.turnTaken).inProgress = s.inProgress := rfl
@[simp] theorem State.turnTaken_responses (s : State) : (s.turnTaken).responses = s.responses := rfl
@[simp] theorem State.turnTaken_trace (s : State) : (s.turnTaken).trace = s.trace := rfl
@[simp] theorem State.turnTaken_draws (s : State) : (s.turnTaken).draws = s.draws := rfl

/-! ### `drawBool` -/

@[simp] theorem drawBool_tick (s : State) : (drawBool s).2.tick = s.tick := rfl
@[simp] theorem drawBool_tmr (s : State) : (drawBool s).2.tmr = s.tmr := rfl
@[simp] theorem drawBool_smp (s : State) : (drawBool s).2.smp = s.smp := rfl
@[simp] theorem drawBool_motorEn (s : State) : (drawBool s).2.motorEn = s.motorEn := rfl
@[simp] theorem drawBool_enc (s : State) : (drawBool s).2.enc = s.enc := rfl
@[simp] theorem drawBool_btn (s : State) : (drawBool s).2.btn = s.btn := rfl
@[simp] theorem drawBool_mgr (s : State) : (drawBool s).2.mgr = s.mgr := rfl
@[simp] theorem drawBool_gpioIn (s : State) : (drawBool s).2.gpioIn = s.gpioIn := rfl
@[simp] theorem drawBool_cfg (s : State) : (drawBool s).2.cfg = s.cfg := rfl
@[simp] theorem drawBool_mem (s : State) : (drawBool s).2.mem = s.mem := rfl
@[simp] theorem drawBool_inProgress (s : State) : (drawBool s).2.inProgress = s.inProgress := rfl
@[simp] theorem drawBool_responses (s : State) : (drawBool s).2.responses = s.responses := rfl
@[simp] theorem drawBool_trace (s : State) : (drawBool s).2.trace = s.trace := rfl
@[simp] theorem drawBool_preempt (s : State) : (drawBool s).2.preempt = s.preempt := rfl

/-! ### `drawWord` -/

@[simp] theorem drawWord_tick (s : State) : (drawWord s).2.tick = s.tick := rfl
@[simp] theorem drawWord_tmr (s : State) : (drawWord s).2.tmr = s.tmr := rfl
@[simp] theorem drawWord_smp (s : State) : (drawWord s).2.smp = s.smp := rfl
@[simp] theorem drawWord_motorEn (s : State) : (drawWord s).2.motorEn = s.motorEn := rfl
@[simp] theorem drawWord_enc (s : State) : (drawWord s).2.enc = s.enc := rfl
@[simp] theorem drawWord_btn (s : State) : (drawWord s).2.btn = s.btn := rfl
@[simp] theorem drawWord_mgr (s : State) : (drawWord s).2.mgr = s.mgr := rfl
@[simp] theorem drawWord_gpioIn (s : State) : (drawWord s).2.gpioIn = s.gpioIn := rfl
@[simp] theorem drawWord_cfg (s : State) : (drawWord s).2.cfg = s.cfg := rfl
@[simp] theorem drawWord_mem (s : State) : (drawWord s).2.mem = s.mem := rfl
@[simp] theorem drawWord_inProgress (s : State) : (drawWord s).2.inProgress = s.inProgress := rfl
@[simp] theorem drawWord_responses (s : State) : (drawWord s).2.responses = s.responses := rfl
@[simp] theorem drawWord_trace (s : State) : (drawWord s).2.trace = s.trace := rfl
@[simp] theorem drawWord_preempt (s : State) : (drawWord s).2.preempt = s.preempt := rfl

@[simp] theorem State.respond_responses (s : State) (st : Status) (rsp : Word) :
    (s.respond st rsp).responses = { st := st, rsp := rsp } :: s.responses := rfl
@[simp] theorem State.turnTaken_preempt (s : State) : s.turnTaken.preempt = s.preempt.tail := rfl
@[simp] theorem drawBool_draws (s : State) : (drawBool s).2.draws = s.draws + 1 := rfl
@[simp] theorem drawBool_value (s : State) : (drawBool s).1 = Config.drawBool s.draws := rfl
@[simp] theorem drawWord_draws (s : State) : (drawWord s).2.draws = s.draws + 1 := rfl
@[simp] theorem drawWord_value (s : State) : (drawWord s).1 = Config.drawWord s.draws := rfl

/-! ### Register files -/

@[simp] theorem State.timer_setTimer_same (s : State) (t : BitVec 2) (v : Timer) : (s.setTimer t v).timer t = v := by
  simp [State.timer, State.setTimer]

theorem State.timer_setTimer_other (s : State) (t u : BitVec 2) (v : Timer) (h : u ≠ t) :
    (s.setTimer t v).timer u = s.timer u := by
  have h' : t.toNat ≠ u.toNat := fun e => h (BitVec.eq_of_toNat_eq e.symm)
  simp [State.timer, State.setTimer, h']

@[simp] theorem State.button_setButton_same (s : State) (b : BitVec 3) (v : Button) :
    (s.setButton b v).button b = v := by
  simp [State.button, State.setButton]

theorem State.button_setButton_other (s : State) (b c : BitVec 3) (v : Button) (h : c ≠ b) :
    (s.setButton b v).button c = s.button c := by
  have h' : b.toNat ≠ c.toNat := fun e => h (BitVec.eq_of_toNat_eq e.symm)
  simp [State.button, State.setButton, h']

@[simp] theorem State.gpioLevel_setGpio_same (s : State) (port pin : BitVec 4) (v : Bool) :
    (s.setGpio port pin v).gpioLevel port pin = v := by
  simp [State.gpioLevel, State.setGpio]

theorem State.gpioLevel_setGpio_other (s : State) (port pin port' pin' : BitVec 4) (v : Bool)
    (h : (port', pin') ≠ (port, pin)) : (s.setGpio port pin v).gpioLevel port' pin' = s.gpioLevel port' pin' := by
  by_cases hp : port' = port
  · subst hp
    have h' : pin.toNat ≠ pin'.toNat := fun e => h (by rw [BitVec.eq_of_toNat_eq e])
    simp [State.gpioLevel, State.setGpio, h']
  · have h' : port.toNat ≠ port'.toNat := fun e => hp (BitVec.eq_of_toNat_eq e.symm)
    simp [State.gpioLevel, State.setGpio, h']

/-! ### Reads of one file past a write of another -/

@[simp] theorem State.timer_setButton (s : State) (b : BitVec 3) (v : Button) (t : BitVec 2) :
    (s.setButton b v).timer t = s.timer t := rfl
@[simp] theorem State.button_setTimer (s : State) (t : BitVec 2) (v : Timer) (b : BitVec 3) :
    (s.setTimer t v).button b = s.button b := rfl
@[simp] theorem State.gpioLevel_setButton (s : State) (b : BitVec 3) (v : Button) (port pin : BitVec 4) :
    (s.setButton b v).gpioLevel port pin = s.gpioLevel port pin := rfl
@[simp] theorem State.gpioLevel_setTimer (s : State) (t : BitVec 2) (v : Timer) (port pin : BitVec 4) :
    (s.setTimer t v).gpioLevel port pin = s.gpioLevel port pin := rfl
@[simp] theorem State.timer_respond (s : State) (st : Status) (rsp : Word) (t : BitVec 2) :
    (s.respond st rsp).timer t = s.timer t := rfl
@[simp] theorem State.button_respond (s : State) (st : Status) (rsp : Word) (b : BitVec 3) :
    (s.respond st rsp).button b = s.button b := rfl

end Sys2Proof.Machine
end

