-- ==== Sys2Proof/Laws/Ops.lean ====
section
/-! SUPPORT. One lemma per shared operation that says what it can do. -/

namespace Sys2Proof.Machine

/-! ## Completing and raising -/

theorem complete_eq (s : State) (rsp : Word) : complete s rsp = .next (s.respond .success rsp) := rfl

theorem raise_eq (s : State) (st : Status) : raise s st = .next (s.respond st 0) := rfl

/-! ## The software timer's test -/

/-- R136: not enabled, expired with a reload, expired for the last time, or not yet. -/
theorem timerExpired_cases (t : BitVec 2) (s : State) :
    ((s.timer t).enabled = false ∧ timerExpired t s = (false, s))
      ∨ ((s.timer t).enabled = true ∧ (s.timer t).intervalMs ≤ s.tick.ms - (s.timer t).startMs
          ∧ (s.timer t).autoReload = true
          ∧ timerExpired t s = (true, s.setTimer t { s.timer t with startMs := s.tick.ms }))
      ∨ ((s.timer t).enabled = true ∧ (s.timer t).intervalMs ≤ s.tick.ms - (s.timer t).startMs
          ∧ (s.timer t).autoReload = false
          ∧ timerExpired t s = (true, s.setTimer t { s.timer t with enabled := false }))
      ∨ ((s.timer t).enabled = true ∧ ¬ (s.timer t).intervalMs ≤ s.tick.ms - (s.timer t).startMs
          ∧ timerExpired t s = (false, s)) := by
  unfold timerExpired
  cases he : (s.timer t).enabled
  · simp [he]
  · by_cases hd : (s.timer t).intervalMs ≤ s.tick.ms - (s.timer t).startMs
    · cases ha : (s.timer t).autoReload <;> simp [he, ha, hd]
    · simp [he, hd]

/-- A timer's test writes that timer and nothing else. -/
theorem timerExpired_state (t : BitVec 2) (s : State) :
    (timerExpired t s).2 = s ∨ ∃ v, (timerExpired t s).2 = s.setTimer t v := by
  rcases timerExpired_cases t s with ⟨-, h⟩ | ⟨-, -, -, h⟩ | ⟨-, -, -, h⟩ | ⟨-, -, h⟩ <;> rw [h]
  · exact .inl rfl
  · exact .inr ⟨_, rfl⟩
  · exact .inr ⟨_, rfl⟩
  · exact .inl rfl

@[simp] theorem timerExpired_tick (t : BitVec 2) (s : State) : (timerExpired t s).2.tick = s.tick := by
  rcases timerExpired_state t s with h | ⟨v, h⟩ <;> rw [h] <;> rfl
@[simp] theorem timerExpired_smp (t : BitVec 2) (s : State) : (timerExpired t s).2.smp = s.smp := by
  rcases timerExpired_state t s with h | ⟨v, h⟩ <;> rw [h] <;> rfl
@[simp] theorem timerExpired_motorEn (t : BitVec 2) (s : State) : (timerExpired t s).2.motorEn = s.motorEn := by
  rcases timerExpired_state t s with h | ⟨v, h⟩ <;> rw [h] <;> rfl
@[simp] theorem timerExpired_enc (t : BitVec 2) (s : State) : (timerExpired t s).2.enc = s.enc := by
  rcases timerExpired_state t s with h | ⟨v, h⟩ <;> rw [h] <;> rfl
@[simp] theorem timerExpired_btn (t : BitVec 2) (s : State) : (timerExpired t s).2.btn = s.btn := by
  rcases timerExpired_state t s with h | ⟨v, h⟩ <;> rw [h] <;> rfl
@[simp] theorem timerExpired_mgr (t : BitVec 2) (s : State) : (timerExpired t s).2.mgr = s.mgr := by
  rcases timerExpired_state t s with h | ⟨v, h⟩ <;> rw [h] <;> rfl
@[simp] theorem timerExpired_gpioIn (t : BitVec 2) (s : State) : (timerExpired t s).2.gpioIn = s.gpioIn := by
  rcases timerExpired_state t s with h | ⟨v, h⟩ <;> rw [h] <;> rfl
@[simp] theorem timerExpired_cfg (t : BitVec 2) (s : State) : (timerExpired t s).2.cfg = s.cfg := by
  rcases timerExpired_state t s with h | ⟨v, h⟩ <;> rw [h] <;> rfl
@[simp] theorem timerExpired_mem (t : BitVec 2) (s : State) : (timerExpired t s).2.mem = s.mem := by
  rcases timerExpired_state t s with h | ⟨v, h⟩ <;> rw [h] <;> rfl
@[simp] theorem timerExpired_inProgress (t : BitVec 2) (s : State) : (timerExpired t s).2.inProgress = s.inProgress := by
  rcases timerExpired_state t s with h | ⟨v, h⟩ <;> rw [h] <;> rfl
@[simp] theorem timerExpired_responses (t : BitVec 2) (s : State) : (timerExpired t s).2.responses = s.responses := by
  rcases timerExpired_state t s with h | ⟨v, h⟩ <;> rw [h] <;> rfl
@[simp] theorem timerExpired_trace (t : BitVec 2) (s : State) : (timerExpired t s).2.trace = s.trace := by
  rcases timerExpired_state t s with h | ⟨v, h⟩ <;> rw [h] <;> rfl
@[simp] theorem timerExpired_preempt (t : BitVec 2) (s : State) : (timerExpired t s).2.preempt = s.preempt := by
  rcases timerExpired_state t s with h | ⟨v, h⟩ <;> rw [h] <;> rfl
@[simp] theorem timerExpired_draws (t : BitVec 2) (s : State) : (timerExpired t s).2.draws = s.draws := by
  rcases timerExpired_state t s with h | ⟨v, h⟩ <;> rw [h] <;> rfl

theorem timerExpired_other (t u : BitVec 2) (s : State) (h : u ≠ t) :
    (timerExpired t s).2.timer u = s.timer u := by
  rcases timerExpired_state t s with e | ⟨v, e⟩ <;> rw [e]
  exact State.timer_setTimer_other s t u v h

@[simp] theorem timerExpired_button (t : BitVec 2) (s : State) (b : BitVec 3) :
    (timerExpired t s).2.button b = s.button b := by
  rcases timerExpired_state t s with h | ⟨v, h⟩ <;> rw [h] <;> rfl

/-! ## The host's hold -/

/-- R133: the hold goes on, or it is over and the `TCK.DELAY` has returned. -/
theorem releaseHold_cases (s : State) :
    (holdOver s = false ∧ releaseHold s = s)
      ∨ (holdOver s = true ∧ releaseHold s
          = { s with
              tick := { s.tick with delay := { s.tick.delay with active := false } }
              responses := { st := .success, rsp := 0 } :: s.responses }) := by
  unfold releaseHold
  cases h : holdOver s
  · exact .inl ⟨rfl, rfl⟩
  · exact .inr ⟨rfl, rfl⟩

/-! ## Values computed with a draw -/

/-- R198: below half the modulus the residue, above it the residue less the modulus, at half either sign. -/
theorem fold_cases (r m : Nat) (s : State) :
    (2 * r < m ∧ fold r m s = ((r : Int), s))
      ∨ (m < 2 * r ∧ fold r m s = ((r : Int) - (m : Int), s))
      ∨ (2 * r = m ∧ ((fold r m s).1 = (r : Int) ∨ (fold r m s).1 = -(r : Int))
          ∧ ((fold r m s).2 = s ∨ (fold r m s).2 = (drawBool s).2)) := by
  unfold fold
  by_cases h1 : 2 * r < m
  · exact .inl ⟨h1, by simp [h1]⟩
  · by_cases h2 : m < 2 * r
    · exact .inr (.inl ⟨h2, by simp [h1, h2]⟩)
    · refine .inr (.inr ⟨by omega, ?_, ?_⟩)
      · simp only [h1, h2, if_false]
        cases s.cfg.foldHalf <;> simp
        by_cases hd : Config.drawBool s.draws = true <;> simp [hd]
      · simp only [h1, h2, if_false]
        cases s.cfg.foldHalf <;> simp

/-- A fold changes nothing but the number of draws. -/
theorem fold_state (r m : Nat) (s : State) : ∃ d, (fold r m s).2 = { s with draws := d } := by
  rcases fold_cases r m s with ⟨-, h⟩ | ⟨-, h⟩ | ⟨-, -, h | h⟩
  · exact ⟨s.draws, by rw [h]⟩
  · exact ⟨s.draws, by rw [h]⟩
  · exact ⟨s.draws, by rw [h]⟩
  · exact ⟨s.draws + 1, by rw [h]; rfl⟩

/-- A speed changes nothing but the number of draws (R200). -/
theorem speed_state (total lastTotal : Word) (cpr : Half) (dt : Word) (s : State) :
    ∃ d, (speed total lastTotal cpr dt s).2 = { s with draws := d } := by
  unfold speed
  dsimp only
  split
  · exact ⟨s.draws, rfl⟩
  · exact ⟨s.draws + 1, rfl⟩

/-- An average changes nothing but the number of draws (R180). -/
theorem average_state (sum : Nat) (s : State) : ∃ d, (average sum s).2 = { s with draws := d } := by
  unfold average
  split
  · exact ⟨s.draws + 1, rfl⟩
  · exact ⟨s.draws, rfl⟩

/-! ## The stream's flags -/

/-- R155: the index stays below the length, and the flags are sticky. -/
theorem transferred_widx_lt (p : Sampler) (h : p.widx.toNat < p.n.toNat) :
    p.transferred.widx.toNat < p.transferred.n.toNat := by
  have hn := p.n.isLt
  simp only [Sampler.transferred]
  split
  · show 0 < _
    omega
  · rw [BitVec.toNat_ofNat, Nat.mod_eq_of_lt (by omega)]
    omega

/-! ## The counter -/

/-- R203: a count stays within the top value. -/
theorem countUp_cnt_le (e : Encoder) (h : e.cnt.toNat ≤ e.arr.toNat) : e.countUp.cnt.toNat ≤ e.countUp.arr.toNat := by
  have ha := e.arr.isLt
  unfold Encoder.countUp
  split
  · show 0 ≤ _
    omega
  · rename_i hne
    have hne' : e.cnt.toNat ≠ e.arr.toNat := fun c => hne (BitVec.eq_of_toNat_eq c)
    show (e.cnt + 1).toNat ≤ e.arr.toNat
    rw [BitVec.toNat_add]
    show (e.cnt.toNat + 1) % 2 ^ 16 ≤ _
    omega

theorem countDown_cnt_le (e : Encoder) (h : e.cnt.toNat ≤ e.arr.toNat) :
    e.countDown.cnt.toNat ≤ e.countDown.arr.toNat := by
  unfold Encoder.countDown
  split
  · exact Nat.le_refl _
  · rename_i hne
    have hne' : e.cnt.toNat ≠ 0 := fun c => hne (BitVec.eq_of_toNat_eq c)
    have := e.cnt.isLt
    show (e.cnt - 1).toNat ≤ e.arr.toNat
    rw [BitVec.toNat_sub]
    show (2 ^ 16 - 1 + e.cnt.toNat) % 2 ^ 16 ≤ _
    omega

/-- R203: a count touches the counter, its direction and its update flag. -/
theorem countUp_frame (e : Encoder) :
    e.countUp = { e with cnt := e.countUp.cnt, uif := e.countUp.uif, dir := false } := by
  unfold Encoder.countUp
  split <;> rfl

theorem countDown_frame (e : Encoder) :
    e.countDown = { e with cnt := e.countDown.cnt, uif := e.countDown.uif, dir := true } := by
  unfold Encoder.countDown
  split <;> rfl

end Sys2Proof.Machine
end

