-- ==== Sys2Proof/Laws/PerInstr.lean ====
section
/-! SUPPORT. What holds of every instruction as syntax, one lemma per constructor. -/

namespace Sys2Proof.Laws

/-- R107, R12: an encoded instruction has as many words as its opcode's format says, and its step word lies in the
event unit exactly when the step is not the host's. -/
def EncodeShape.Statement (i : Instr) : Prop :=
  (encode i).length = stepLength ((encode i).headD 0)
    ∧ isEventWord ((encode i).headD 0) = !Sys2Proof.Machine.issuedByHost i

/-- Both facts follow from the opcode of the step word. -/
theorem encodeShape_of_opcode {i : Instr} {op : BitVec 8} {fields : Word} {r : Row} {ext : List Word}
    (he : encode i = stepWord op fields :: ext) (hf : opOf fields = 0) (hr : rowOf op = some r)
    (hl : ext.length = r.format.extWords)
    (hu : decide (op.extractLsb' 4 4 = 0xE#4) = !Sys2Proof.Machine.issuedByHost i) : EncodeShape.Statement i := by
  have ho := opOf_stepWord op fields hf
  refine ⟨?_, ?_⟩
  · simp only [he, List.headD_cons, stepLength, ho, hr, List.length_cons, hl, Nat.add_comm]
  · simp only [he, List.headD_cons, isEventWord_eq, ho, hu]

theorem EncodeShape.tckInit (fCpu : Word) : EncodeShape.Statement (.tckInit fCpu) :=
  encodeShape_of_opcode rfl rfl rfl rfl rfl
theorem EncodeShape.tckNow : EncodeShape.Statement (.tckNow) :=
  encodeShape_of_opcode rfl rfl rfl rfl rfl
theorem EncodeShape.tckElapsed (since : Word) : EncodeShape.Statement (.tckElapsed since) :=
  encodeShape_of_opcode rfl rfl rfl rfl rfl
theorem EncodeShape.tckDelay (n : Word) : EncodeShape.Statement (.tckDelay n) :=
  encodeShape_of_opcode rfl rfl rfl rfl rfl
theorem EncodeShape.tmrInit (t : BitVec 2) (ar : Bool) (interval : Word) : EncodeShape.Statement (.tmrInit t ar interval) :=
  encodeShape_of_opcode rfl (by simp [opOf_place]) rfl rfl rfl
theorem EncodeShape.tmrStart (t : BitVec 2) : EncodeShape.Statement (.tmrStart t) :=
  encodeShape_of_opcode rfl (opOf_place _ _ (by decide)) rfl rfl rfl
theorem EncodeShape.tmrExpired (t : BitVec 2) : EncodeShape.Statement (.tmrExpired t) :=
  encodeShape_of_opcode rfl (opOf_place _ _ (by decide)) rfl rfl rfl
theorem EncodeShape.smpInit (base : Word) (len : Word) : EncodeShape.Statement (.smpInit base len) :=
  encodeShape_of_opcode rfl rfl rfl rfl rfl
theorem EncodeShape.smpStart : EncodeShape.Statement (.smpStart) :=
  encodeShape_of_opcode rfl rfl rfl rfl rfl
theorem EncodeShape.smpReady : EncodeShape.Statement (.smpReady) :=
  encodeShape_of_opcode rfl rfl rfl rfl rfl
theorem EncodeShape.smpClear : EncodeShape.Statement (.smpClear) :=
  encodeShape_of_opcode rfl rfl rfl rfl rfl
theorem EncodeShape.smpRdcell (j : BitVec 16) : EncodeShape.Statement (.smpRdcell j) :=
  encodeShape_of_opcode rfl (opOf_place _ _ (by decide)) rfl rfl rfl
theorem EncodeShape.smpGetf (f : BitVec 2) : EncodeShape.Statement (.smpGetf f) :=
  encodeShape_of_opcode rfl (opOf_place _ _ (by decide)) rfl rfl rfl
theorem EncodeShape.smpClrf (f : BitVec 2) : EncodeShape.Statement (.smpClrf f) :=
  encodeShape_of_opcode rfl (opOf_place _ _ (by decide)) rfl rfl rfl
theorem EncodeShape.smpDmaen : EncodeShape.Statement (.smpDmaen) :=
  encodeShape_of_opcode rfl rfl rfl rfl rfl
theorem EncodeShape.smpDmadis : EncodeShape.Statement (.smpDmadis) :=
  encodeShape_of_opcode rfl rfl rfl rfl rfl
theorem EncodeShape.prtTick : EncodeShape.Statement (.prtTick) :=
  encodeShape_of_opcode rfl rfl rfl rfl rfl
theorem EncodeShape.motSet (v1 : Bool) : EncodeShape.Statement (.motSet v1) :=
  encodeShape_of_opcode rfl (opOf_place _ _ (by decide)) rfl rfl rfl
theorem EncodeShape.motGet : EncodeShape.Statement (.motGet) :=
  encodeShape_of_opcode rfl rfl rfl rfl rfl
theorem EncodeShape.encInit (polA : Bool) (polB : Bool) (uie : Bool) (cpr : BitVec 16) (maxCount : BitVec 16) : EncodeShape.Statement (.encInit polA polB uie cpr maxCount) :=
  encodeShape_of_opcode rfl (by simp) rfl rfl rfl
theorem EncodeShape.encStart : EncodeShape.Statement (.encStart) :=
  encodeShape_of_opcode rfl rfl rfl rfl rfl
theorem EncodeShape.encStop : EncodeShape.Statement (.encStop) :=
  encodeShape_of_opcode rfl rfl rfl rfl rfl
theorem EncodeShape.encReset : EncodeShape.Statement (.encReset) :=
  encodeShape_of_opcode rfl rfl rfl rfl rfl
theorem EncodeShape.encCount : EncodeShape.Statement (.encCount) :=
  encodeShape_of_opcode rfl rfl rfl rfl rfl
theorem EncodeShape.encDir : EncodeShape.Statement (.encDir) :=
  encodeShape_of_opcode rfl rfl rfl rfl rfl
theorem EncodeShape.encUpdate : EncodeShape.Statement (.encUpdate) :=
  encodeShape_of_opcode rfl rfl rfl rfl rfl
theorem EncodeShape.encRpm (nowMs : Word) : EncodeShape.Statement (.encRpm nowMs) :=
  encodeShape_of_opcode rfl rfl rfl rfl rfl
theorem EncodeShape.btnInit (b : BitVec 3) (pin : BitVec 4) (port : BitVec 4) (al : Bool) : EncodeShape.Statement (.btnInit b pin port al) :=
  encodeShape_of_opcode rfl (by simp [opOf_place]) rfl rfl rfl
theorem EncodeShape.btnMinit : EncodeShape.Statement (.btnMinit) :=
  encodeShape_of_opcode rfl rfl rfl rfl rfl
theorem EncodeShape.btnAdd (b : BitVec 3) : EncodeShape.Statement (.btnAdd b) :=
  encodeShape_of_opcode rfl (opOf_place _ _ (by decide)) rfl rfl rfl
theorem EncodeShape.btnScan : EncodeShape.Statement (.btnScan) :=
  encodeShape_of_opcode rfl rfl rfl rfl rfl
theorem EncodeShape.btnTake (b : BitVec 3) : EncodeShape.Statement (.btnTake b) :=
  encodeShape_of_opcode rfl (opOf_place _ _ (by decide)) rfl rfl rfl
theorem EncodeShape.btnPressed (b : BitVec 3) : EncodeShape.Statement (.btnPressed b) :=
  encodeShape_of_opcode rfl (opOf_place _ _ (by decide)) rfl rfl rfl
theorem EncodeShape.evTick : EncodeShape.Statement (.evTick) :=
  encodeShape_of_opcode rfl rfl rfl rfl rfl
theorem EncodeShape.evSample (v12 : BitVec 12) : EncodeShape.Statement (.evSample v12) :=
  encodeShape_of_opcode rfl (opOf_place _ _ (by decide)) rfl rfl rfl
theorem EncodeShape.evDmairq : EncodeShape.Statement (.evDmairq) :=
  encodeShape_of_opcode rfl rfl rfl rfl rfl
theorem EncodeShape.evDmate : EncodeShape.Statement (.evDmate) :=
  encodeShape_of_opcode rfl rfl rfl rfl rfl
theorem EncodeShape.evQa (v1 : Bool) : EncodeShape.Statement (.evQa v1) :=
  encodeShape_of_opcode rfl (opOf_place _ _ (by decide)) rfl rfl rfl
theorem EncodeShape.evQb (v1 : Bool) : EncodeShape.Statement (.evQb v1) :=
  encodeShape_of_opcode rfl (opOf_place _ _ (by decide)) rfl rfl rfl
theorem EncodeShape.evEncirq : EncodeShape.Statement (.evEncirq) :=
  encodeShape_of_opcode rfl rfl rfl rfl rfl
theorem EncodeShape.evPin (v1 : Bool) (pin : BitVec 4) (port : BitVec 4) : EncodeShape.Statement (.evPin v1 pin port) :=
  encodeShape_of_opcode rfl (by simp [opOf_place]) rfl rfl rfl
theorem EncodeShape.evReset : EncodeShape.Statement (.evReset) :=
  encodeShape_of_opcode rfl rfl rfl rfl rfl

end Sys2Proof.Laws
end

