-- ==== Sys2Proof/Laws/SubSteps.lean ====
section
/-! SUPPORT. What one sub-step of a host command can do, and the induction over the host's run through them. -/

namespace Sys2Proof.Machine

/-- One sub-step: everything it can do (R180, R197). -/
theorem subStep_cases {p : Progress} {s t : State} (h : subStep p s = .next t) :
    (∃ d, p = .updateU2 d ∧ t = { s with inProgress := some (.updateU3 d s.enc.total) })
      ∨ (∃ d x, p = .updateU3 d x ∧ t = { s with
          enc := { s.enc with total := toI32 (x.toInt + d), lastHw := s.enc.hwCount }, inProgress := none
          responses := { st := .success, rsp := toI32 (x.toInt + d) } :: s.responses })
      ∨ (p = .protP2 ∧ s.smp.batchReady = false
          ∧ t = { s with inProgress := none, responses := { st := .success, rsp := 0 } :: s.responses })
      ∨ (p = .protP2 ∧ s.smp.batchReady = true ∧ s.smp.inited = false
          ∧ t = { s with inProgress := none, responses := { st := .uninitialized, rsp := 0 } :: s.responses })
      ∨ (p = .protP2 ∧ s.smp.batchReady = true ∧ s.smp.inited = true
          ∧ t = { s with inProgress := some (protNext s 0 0) })
      ∨ (∃ i sum v, p = .protRead i sum ∧ Memory.read16 s.mem (cellAddr s i) = some v
          ∧ t = { s with inProgress := some (protNext s (i + 1) (sum + v.toNat)) })
      ∨ (∃ sum d, p = .protP5 sum ∧ t = { s with
          smp := { s.smp with batchReady := false }, inProgress := some (.protP6 (average sum s).1), draws := d })
      ∨ (∃ avg, p = .protP6 avg ∧ t = { s with
          motorEn := if s.cfg.thresh.toNat < avg then false else s.motorEn, inProgress := none
          responses := { st := .success, rsp := protectionResponse avg (decide (s.cfg.thresh.toNat < avg)) }
            :: s.responses }) := by
  cases p with
  | updateU2 d =>
    refine .inl ⟨d, rfl, ?_⟩
    simpa [subStep, encUpdateU2] using h.symm
  | updateU3 d x =>
    refine .inr (.inl ⟨d, x, rfl, ?_⟩)
    simpa [subStep, encUpdateU3, complete, State.respond] using h.symm
  | protP2 =>
    simp only [subStep, protP2] at h
    cases hb : s.smp.batchReady
    · refine .inr (.inr (.inl ⟨rfl, rfl, ?_⟩))
      simpa [hb, complete, State.respond] using h.symm
    · cases hi : s.smp.inited
      · refine .inr (.inr (.inr (.inl ⟨rfl, rfl, rfl, ?_⟩)))
        simpa [hb, hi, raise, State.respond] using h.symm
      · refine .inr (.inr (.inr (.inr (.inl ⟨rfl, rfl, rfl, ?_⟩))))
        simpa [hb, hi] using h.symm
  | protRead i sum =>
    simp only [subStep, protRead] at h
    cases hr : Memory.read16 s.mem (cellAddr s i) with
    | none => simp [hr] at h
    | some v =>
      refine .inr (.inr (.inr (.inr (.inr (.inl ⟨i, sum, v, rfl, hr, ?_⟩)))))
      simpa [hr] using h.symm
  | protP5 sum =>
    obtain ⟨d, hd⟩ := average_state sum s
    refine .inr (.inr (.inr (.inr (.inr (.inr (.inl ⟨sum, d, rfl, ?_⟩))))))
    simpa [subStep, protP5, hd] using h.symm
  | protP6 avg =>
    refine .inr (.inr (.inr (.inr (.inr (.inr (.inr ⟨avg, rfl, ?_⟩))))))
    simpa [subStep, protP6, complete, State.respond] using h.symm

/-- What every sub-step keeps is kept by the host's run through them. -/
theorem runHost_keeps {P : State → Prop}
    (hstep : ∀ p s t, s.inProgress = some p → P s → subStep p s.turnTaken = .next t → P t) :
    ∀ (fuel : Nat) (s t : State), P s → runHost fuel s = .next t → P t := by
  intro fuel
  induction fuel with
  | zero =>
    intro s t hs h
    cases h
    exact hs
  | succ fuel ih =>
    intro s t hs h
    rw [runHost] at h
    cases hp : s.inProgress with
    | none =>
      simp only [hp] at h
      cases h
      exact hs
    | some p =>
      simp only [hp] at h
      by_cases ho : othersTurn s = true
      · rw [if_pos ho] at h
        cases h
        exact hs
      · rw [if_neg ho] at h
        cases hr : subStep p s.turnTaken with
        | next s' =>
          simp only [hr] at h
          exact ih s' t (hstep p s s' hp hs hr) h
        | fault r => simp [hr] at h
        | refused r => simp [hr] at h

/-- The same for a command that is resumed. -/
theorem resumeHost_keeps {P : State → Prop}
    (hstep : ∀ p s t, s.inProgress = some p → P s → subStep p s.turnTaken = .next t → P t)
    {p : Progress} {s t : State} (hp : s.inProgress = some p) (hs : P s) (h : resumeHost p s = .next t) : P t := by
  unfold resumeHost at h
  cases hr : subStep p s.turnTaken with
  | next s' =>
    simp only [hr] at h
    exact runHost_keeps hstep _ s' t (hstep p s s' hp hs hr) h
  | fault r => simp [hr] at h
  | refused r => simp [hr] at h

end Sys2Proof.Machine
end

