-- ==== Sys2Proof/Laws/Step.lean ====
section
/-! SUPPORT. What one step can do. -/

namespace Sys2Proof.Machine

/-- A step taken from the trace that answers a next state ran a decoded instruction or an illegal host word. -/
theorem runTrace_cases {s t : State} (h : runTrace s = .next t) :
    (∃ i rest, decode s.trace = .step i rest ∧ (s.tick.delay.active = true → issuedByHost i = false)
        ∧ exec i { s with trace := rest } = .next t)
      ∨ (∃ rest, decode s.trace = .illegalHost rest ∧ s.tick.delay.active = false
          ∧ t = { s with trace := rest, responses := { st := .invalidArgument, rsp := 0 } :: s.responses }) := by
  unfold runTrace at h
  cases hd : decode s.trace with
  | step i rest =>
    simp only [hd] at h
    split at h
    · cases h
    · rename_i hn
      refine .inl ⟨i, rest, rfl, fun ha => ?_, h⟩
      simpa [ha] using hn
  | illegalHost rest =>
    simp only [hd] at h
    split at h
    · cases h
    · rename_i hn
      refine .inr ⟨rest, rfl, by simpa using hn, ?_⟩
      simpa [raise, State.respond] using h.symm
  | illegalEvent => simp [hd] at h
  | truncated => simp [hd] at h
  | ended => simp [hd] at h

/-- A step that answers a next state took the trace's step, with no command in progress or on another agent's turn, or
the host went on with its command. -/
theorem step_cases {s t : State} (h : step s = .next t) :
    (s.inProgress = none ∧ runTrace s = .next t)
      ∨ (∃ p, s.inProgress = some p ∧ othersTurn s = true ∧ nextIsEvent s = true ∧ runTrace s.turnTaken = .next t)
      ∨ (∃ p, s.inProgress = some p ∧ (othersTurn s && nextIsEvent s) = false ∧ resumeHost p s = .next t) := by
  unfold step nextStep at h
  cases hp : s.inProgress with
  | none =>
    simp only [hp] at h
    exact .inl ⟨rfl, h⟩
  | some p =>
    simp only [hp] at h
    split at h
    · rename_i hc
      rw [Bool.and_eq_true] at hc
      exact .inr (.inl ⟨p, rfl, hc.1, hc.2, h⟩)
    · rename_i hc
      exact .inr (.inr ⟨p, rfl, by simpa using hc, h⟩)

/-- What every instruction and every sub-step keep is kept by every step, where taking a word from the trace, taking a
turn and answering an illegal word keep it too. -/
theorem step_keeps {P : State → Prop}
    (htrace : ∀ s rest, P s → P { s with trace := rest })
    (hturn : ∀ s, P s → P s.turnTaken)
    (hraise : ∀ s, P s → P (s.respond .invalidArgument 0))
    (hexec : ∀ i s t, (s.inProgress ≠ none → issuedByHost i = false)
      → (s.tick.delay.active = true → issuedByHost i = false) → P s → exec i s = .next t → P t)
    (hsub : ∀ p s t, s.inProgress = some p → P s → subStep p s.turnTaken = .next t → P t)
    {s t : State} (hs : P s) (h : step s = .next t) : P t := by
  rcases step_cases h with ⟨hp, h⟩ | ⟨p, hp, -, he, h⟩ | ⟨p, hp, -, h⟩
  · rcases runTrace_cases h with ⟨i, rest, -, hd, h⟩ | ⟨rest, -, -, rfl⟩
    · exact hexec i { s with trace := rest } t (fun hne => absurd hp hne) hd (htrace s rest hs) h
    · exact hraise _ (htrace s rest hs)
  · rcases runTrace_cases h with ⟨i, rest, hi, hd, h⟩ | ⟨rest, -, -, rfl⟩
    · refine hexec i { s.turnTaken with trace := rest } t (fun _ => ?_) hd (htrace _ rest (hturn s hs)) h
      unfold nextIsEvent at he
      cases ht : s.trace with
      | nil => simp [ht] at he
      | cons w ws =>
        rw [ht] at he
        rw [State.turnTaken_trace, ht] at hi
        exact (decode_unit hi).trans (by simpa using he)
    · exact hraise _ (htrace _ rest (hturn s hs))
  · exact resumeHost_keeps hsub hp hs h

end Sys2Proof.Machine
end

