-- ==== Sys2Proof/Laws/Turns.lean ====
section
/-! SUPPORT. The turns while a sub-stepped host command is in progress: the host's run through its sub-steps is one
sub-step, and then the next for as long as the turns are its own (R249; log 4). -/

namespace Sys2Proof.Machine

/-- How many sub-steps a command still takes at most, at the length `n` of the ring. -/
def Progress.left (n : Nat) : Progress → Nat
  | .updateU2 _ => 2
  | .updateU3 _ _ => 1
  | .protP2 => n + 3
  | .protRead i _ => n - i - 1 + 3
  | .protP5 _ => 2
  | .protP6 _ => 1

theorem Progress.left_le (n : Nat) (p : Progress) : p.left n ≤ n + 3 := by
  cases p <;> simp [Progress.left]
  omega

theorem protNext_left (s : State) (i sum : Nat) :
    (protNext s (i + 1) sum).left s.smp.n.toNat ≤ s.smp.n.toNat - i - 1 + 2 := by
  unfold protNext
  split <;> simp only [Progress.left] <;> omega

/-- A sub-step leaves the ring's length alone, and one sub-step fewer to go. -/
theorem subStep_left {p : Progress} {s t : State} (h : subStep p s = .next t) :
    t.smp.n = s.smp.n ∧ ∀ q, t.inProgress = some q → q.left s.smp.n.toNat + 1 ≤ p.left s.smp.n.toNat := by
  rcases subStep_cases h with ⟨d, rfl, rfl⟩ | ⟨d, x, rfl, rfl⟩ | ⟨rfl, -, rfl⟩ | ⟨rfl, -, -, rfl⟩ | ⟨rfl, -, -, rfl⟩
    | ⟨i, sum, v, rfl, -, rfl⟩ | ⟨sum, d, rfl, rfl⟩ | ⟨avg, rfl, rfl⟩
  all_goals refine ⟨rfl, fun q hq => ?_⟩
  all_goals cases hq
  · simp [Progress.left]
  · unfold protNext
    split <;> simp only [Progress.left] <;> omega
  · have := protNext_left s i (sum + v.toNat)
    simp only [Progress.left] at this ⊢
    omega
  · simp [Progress.left]

/-- Any two amounts of fuel that the sub-steps left do not exceed are the same. -/
theorem runHost_enough (f g : Nat) (s : State) (hf : ∀ p, s.inProgress = some p → p.left s.smp.n.toNat ≤ f)
    (hg : ∀ p, s.inProgress = some p → p.left s.smp.n.toNat ≤ g) : runHost f s = runHost g s := by
  cases hp : s.inProgress with
  | none => cases f <;> cases g <;> simp [runHost, hp]
  | some p =>
    have hpos : 0 < p.left s.smp.n.toNat := by cases p <;> simp [Progress.left]
    have hf := hf p hp
    have hg := hg p hp
    obtain ⟨f, rfl⟩ : ∃ k, f = k + 1 := ⟨f - 1, by omega⟩
    obtain ⟨g, rfl⟩ : ∃ k, g = k + 1 := ⟨g - 1, by omega⟩
    rw [runHost, runHost]
    simp only [hp]
    cases hs : subStep p s.turnTaken with
    | next t =>
      obtain ⟨hn, hl⟩ := subStep_left hs
      simp only [State.turnTaken_smp] at hn hl
      have : runHost f t = runHost g t :=
        runHost_enough f g t (fun q hq => by rw [hn]; have := hl q hq; omega)
          (fun q hq => by rw [hn]; have := hl q hq; omega)
      simp only [this]
    | fault r => rfl
    | refused r => rfl

/-- On the host's own turn a step is one sub-step, and what comes of it. -/
theorem step_host {s : State} {p : Progress} (hp : s.inProgress = some p)
    (ht : (othersTurn s && nextIsEvent s) = false) : step s = resumeHost p s := by
  simp [step, nextStep, hp, ht]

/-- The host goes on until its command is complete or another agent is given the turn. -/
theorem continueHost_eq (s : State) : continueHost s = hostGoesOn s := by
  unfold hostGoesOn continueHost subStepsLeft
  rw [runHost]
  cases hp : s.inProgress with
  | none => simp
  | some p =>
    cases ho : othersTurn s with
    | true =>
      rw [if_pos (.inr ho)]
      rfl
    | false =>
      have ho' : s.preempt.headD false = false := ho
      rw [if_neg (by rw [ho']; simp), step_host hp (by simp [ho])]
      simp only [resumeHost, continueHost, subStepsLeft]
      cases hs : subStep p s.turnTaken with
      | next t =>
        obtain ⟨hn, hl⟩ := subStep_left hs
        have hpl := p.left_le s.smp.n.toNat
        simp only [State.turnTaken_smp] at hn hl
        refine runHost_enough _ _ t (fun q hq => ?_) (fun q hq => ?_) <;>
          · have := hl q hq
            rw [hn]
            omega
      | fault r => rfl
      | refused r => rfl

/-- A step on the host's own turn whose sub-step leaves `t`. -/
theorem step_subStep {s t : State} {p : Progress} (hp : s.inProgress = some p)
    (ht : (othersTurn s && nextIsEvent s) = false) (h : subStep p s.turnTaken = .next t) : step s = hostGoesOn t := by
  rw [step_host hp ht, resumeHost, h]
  exact continueHost_eq t

theorem hostGoesOn_done {t : State} (h : t.inProgress = none) : hostGoesOn t = .next t := by
  simp [hostGoesOn, h]

theorem hostGoesOn_paused {t : State} (h : t.preempt.headD false = true) : hostGoesOn t = .next t := by
  unfold hostGoesOn
  rw [if_pos (.inr h)]

/-- While the next turn is the host's, what comes of a state in which a command is in progress is what comes of its next
sub-step. -/
theorem hostGoesOn_subStep {s t : State} {p : Progress} (hp : s.inProgress = some p)
    (ho : s.preempt.headD false = false) (h : subStep p s.turnTaken = .next t) : hostGoesOn s = hostGoesOn t := by
  refine Eq.trans ?_ (step_subStep hp (by rw [othersTurn, ho]; rfl) h)
  unfold hostGoesOn
  rw [if_neg (by rw [hp, ho]; simp)]

end Sys2Proof.Machine
end

