-- ==== Sys2Proof/Tests/Slice0.lean ====
section
/-! SUPPORT. Small tests: words of the spec decoded, checks that refuse an ill-formed term, single steps with the
results of the spec's vectors (VT, VS, VP, VE, VB, VX of sections 95 and 96), and for every statement with premises a
concrete state that meets them. -/

namespace Sys2Proof.Tests

open Sys2Proof.Machine

/-! ## Decoding (section 2.6 of 96_test_programs.md) -/

/-- VD1: `TCK.INIT`. -/
theorem test_decode_tckInit : decode [0x00000000, 0x0A037A00] = .step (.tckInit 168000000) [] := by decide
/-- VD2: `TCK.NOW`. -/
theorem test_decode_tckNow : decode [0x01000000] = .step .tckNow [] := by decide
/-- VD3: `TCK.ELAPSED`. -/
theorem test_decode_tckElapsed : decode [0x02000000, 0xFFFFFFFE] = .step (.tckElapsed 0xFFFFFFFE) [] := by decide
/-- VD4: `TCK.DELAY`. -/
theorem test_decode_tckDelay : decode [0x03000000, 0x00000003] = .step (.tckDelay 3) [] := by decide
/-- VD5: `TMR.INIT`. -/
theorem test_decode_tmrInit : decode [0x04000102, 0x0000000A] = .step (.tmrInit 2 true 10) [] := by decide
/-- VD6: `TMR.START`. -/
theorem test_decode_tmrStart : decode [0x05000002] = .step (.tmrStart 2) [] := by decide
/-- VD7: `TMR.EXPIRED`. -/
theorem test_decode_tmrExpired : decode [0x06000003] = .step (.tmrExpired 3) [] := by decide
/-- VD8: `SMP.INIT`. -/
theorem test_decode_smpInit : decode [0x10000000, 0x20000000, 0x000000C8] = .step (.smpInit 0x20000000 200) [] := by decide
/-- VD9: `SMP.START`. -/
theorem test_decode_smpStart : decode [0x11000000] = .step .smpStart [] := by decide
/-- VD10: `SMP.READY`. -/
theorem test_decode_smpReady : decode [0x12000000] = .step .smpReady [] := by decide
/-- VD11: `SMP.CLEAR`. -/
theorem test_decode_smpClear : decode [0x13000000] = .step .smpClear [] := by decide
/-- VD12: `SMP.RDCELL`. -/
theorem test_decode_smpRdcell : decode [0x140000C7] = .step (.smpRdcell 199) [] := by decide
/-- VD13: `SMP.GETF`. -/
theorem test_decode_smpGetf : decode [0x15000002] = .step (.smpGetf 2) [] := by decide
/-- VD14: `SMP.CLRF`. -/
theorem test_decode_smpClrf : decode [0x16000001] = .step (.smpClrf 1) [] := by decide
/-- VD15: `SMP.DMAEN`. -/
theorem test_decode_smpDmaen : decode [0x17000000] = .step .smpDmaen [] := by decide
/-- VD16: `SMP.DMADIS`. -/
theorem test_decode_smpDmadis : decode [0x18000000] = .step .smpDmadis [] := by decide
/-- VD17: `PRT.TICK`. -/
theorem test_decode_prtTick : decode [0x20000000] = .step .prtTick [] := by decide
/-- VD18: `MOT.SET`. -/
theorem test_decode_motSet : decode [0x21000001] = .step (.motSet true) [] := by decide
/-- VD19: `MOT.GET`. -/
theorem test_decode_motGet : decode [0x22000000] = .step .motGet [] := by decide
/-- VD20: `ENC.INIT`. -/
theorem test_decode_encInit : decode [0x30000005, 0xFFFF03E8] = .step (.encInit true false true 1000 65535) [] := by decide
/-- VD21: `ENC.START`. -/
theorem test_decode_encStart : decode [0x31000000] = .step .encStart [] := by decide
/-- VD22: `ENC.STOP`. -/
theorem test_decode_encStop : decode [0x32000000] = .step .encStop [] := by decide
/-- VD23: `ENC.RESET`. -/
theorem test_decode_encReset : decode [0x33000000] = .step .encReset [] := by decide
/-- VD24: `ENC.COUNT`. -/
theorem test_decode_encCount : decode [0x34000000] = .step .encCount [] := by decide
/-- VD25: `ENC.DIR`. -/
theorem test_decode_encDir : decode [0x35000000] = .step .encDir [] := by decide
/-- VD26: `ENC.UPDATE`. -/
theorem test_decode_encUpdate : decode [0x36000000] = .step .encUpdate [] := by decide
/-- VD27: `ENC.RPM`. -/
theorem test_decode_encRpm : decode [0x37000000, 0x00000064] = .step (.encRpm 100) [] := by decide
/-- VD28: `BTN.INIT`. -/
theorem test_decode_btnInit : decode [0x40001FF7] = .step (.btnInit 7 15 15 true) [] := by decide
/-- VD29: `BTN.MINIT`. -/
theorem test_decode_btnMinit : decode [0x41000000] = .step .btnMinit [] := by decide
/-- VD30: `BTN.ADD`. -/
theorem test_decode_btnAdd : decode [0x42000005] = .step (.btnAdd 5) [] := by decide
/-- VD31: `BTN.SCAN`. -/
theorem test_decode_btnScan : decode [0x43000000] = .step .btnScan [] := by decide
/-- VD32: `BTN.TAKE`. -/
theorem test_decode_btnTake : decode [0x44000000] = .step (.btnTake 0) [] := by decide
/-- VD33: `BTN.PRESSED`. -/
theorem test_decode_btnPressed : decode [0x45000003] = .step (.btnPressed 3) [] := by decide
/-- VD34: `EV.TICK`. -/
theorem test_decode_evTick : decode [0xE0000000] = .step .evTick [] := by decide
/-- VD35: `EV.SAMPLE`. -/
theorem test_decode_evSample : decode [0xE1000FFF] = .step (.evSample 4095) [] := by decide
/-- VD36: `EV.DMAIRQ`. -/
theorem test_decode_evDmairq : decode [0xE2000000] = .step .evDmairq [] := by decide
/-- VD37: `EV.DMATE`. -/
theorem test_decode_evDmate : decode [0xE3000000] = .step .evDmate [] := by decide
/-- VD38: `EV.QA`. -/
theorem test_decode_evQa : decode [0xE4000001] = .step (.evQa true) [] := by decide
/-- VD39: `EV.QB`. -/
theorem test_decode_evQb : decode [0xE5000000] = .step (.evQb false) [] := by decide
/-- VD40: `EV.ENCIRQ`. -/
theorem test_decode_evEncirq : decode [0xE6000000] = .step .evEncirq [] := by decide
/-- VD41: `EV.PIN`. -/
theorem test_decode_evPin : decode [0xE7000131] = .step (.evPin true 3 1) [] := by decide
/-- VD42: `EV.RESET`. -/
theorem test_decode_evReset : decode [0xEF000000] = .step .evReset [] := by decide

/-- VX1 to VX10: illegal host words take no extension word. -/
theorem test_decode_illegal_host :
    decode [0x50000000] = .illegalHost [] ∧ decode [0xFF000000] = .illegalHost []
      ∧ decode [0x07000000] = .illegalHost [] ∧ decode [0x01000001] = .illegalHost []
      ∧ decode [0x05000004] = .illegalHost [] ∧ decode [0x04000201, 0x0A] = .illegalHost [0x0A]
      ∧ decode [0x0000000A] = .illegalHost [] ∧ decode [0x30000008, 0xFFFF03E8] = .illegalHost [0xFFFF03E8]
      ∧ decode [0x40002000] = .illegalHost [] ∧ decode [0x40000008] = .illegalHost []
      ∧ decode [0x14010000] = .illegalHost [] := by decide

/-- VX15 to VX17: illegal event words make the trace ill-formed. -/
theorem test_decode_illegal_event :
    decode [0xE8000000] = .illegalEvent ∧ decode [0xE1001000] = .illegalEvent
      ∧ decode [0xE4000002] = .illegalEvent := by decide

/-- VX20, VX21: truncated steps. -/
theorem test_decode_truncated :
    decode [0x10000000, 0x20000000] = .truncated ∧ decode [0x37000000] = .truncated ∧ decode [] = .ended := by decide

/-- The host's two questions, on a word of each length. -/
theorem test_table_words :
    decodeTableWord 32 0x21000001 = some (.motSet true)
      ∧ decodeTableWord 64 0x0000000A04000102 = some (.tmrInit 2 true 10)
      ∧ decodeTableWord 32 0x10000000 = some (.smpInit 0 0) ∧ decodeTableWord 32 0x50000000 = none
      ∧ (State.reset.withFetchWord 32 0x10000000).trace = [0x10000000, 0, 0]
      ∧ (State.reset.withFetchWord 32 0x22000000).trace = [0x22000000] := by decide

/-! ## Well-formedness: one ill-formed term for each check (R106) -/

theorem test_wf_tckInit : Instr.wellFormed (.tckInit 999) = false ∧ Instr.wellFormed (.tckInit 1000) = true := by
  decide
theorem test_wf_smpInit_zero : Instr.wellFormed (.smpInit 0x20000000 0) = false := by decide
theorem test_wf_smpInit_odd : Instr.wellFormed (.smpInit 0x20000000 3) = false := by decide
theorem test_wf_smpInit_long : Instr.wellFormed (.smpInit 0x20000000 65536) = false := by decide
theorem test_wf_smpInit_base : Instr.wellFormed (.smpInit 0x20000001 4) = false := by decide
theorem test_wf_smpInit_end : Instr.wellFormed (.smpInit 0xFFFFFFFE 2) = false := by decide
theorem test_wf_smpInit_ok : Instr.wellFormed (.smpInit 0x20000000 65534) = true := by decide
theorem test_wf_smpGetf : Instr.wellFormed (.smpGetf 3) = false ∧ Instr.wellFormed (.smpGetf 2) = true := by decide
theorem test_wf_smpClrf : Instr.wellFormed (.smpClrf 3) = false ∧ Instr.wellFormed (.smpClrf 2) = true := by decide
theorem test_wf_encInit_cpr : Instr.wellFormed (.encInit false false false 0 65535) = false := by decide
theorem test_wf_encInit_maxCount : Instr.wellFormed (.encInit false false false 1000 0) = false := by decide

/-! ## Single steps, with the results of the spec's vectors -/

/-- The outcome is a next state with a property. -/
def ends (o : Result) (p : State → Bool) : Bool :=
  match o with
  | .next s => p s
  | .fault _ => false
  | .refused _ => false

/-- The outcome is a next state whose latest response is given, with a property. -/
def answers (o : Result) (st : Status) (rsp : Word) (p : State → Bool) : Bool :=
  ends o fun s => decide (s.responses.head? = some ⟨st, rsp⟩) && p s

/-- The outcome is a refusal. -/
def refuses (o : Result) (r : Refusal) : Bool :=
  match o with
  | .next _ => false
  | .fault _ => false
  | .refused q => decide (q = r)

/-- The systick runs and shows a count. -/
def ticking (ms : Word) : State := { State.reset with tick := { TickUnit.reset with systEn := true, ms := ms } }

/-- Timer `t` as given, at a count. -/
def timing (ms : Word) (t : BitVec 2) (v : Timer) : State := (ticking ms).setTimer t v

/-- A sampler initialised with a ring, not started. -/
def configured (base : Word) (n : Half) : Sampler := Sampler.reset.configured base (n.setWidth 32)

/-- A started sampler, at a place in its ring of four cells. -/
def streaming (w : Half) : Sampler :=
  { configured 0x20000000 4 with dmaEn := true, adcOn := true, adcRun := true, widx := w }

/-- A machine with that sampler. -/
def sampling (p : Sampler) : State := { State.reset with smp := p }

/-- Four cells of one value in the ring at `0x20000000`. -/
def fourCells (lo hi : Byte) : List Host.Cell :=
  [(0x20000000, lo), (0x20000001, hi), (0x20000002, lo), (0x20000003, hi), (0x20000004, lo), (0x20000005, hi),
    (0x20000006, lo), (0x20000007, hi)]

/-- The protection loop's start state of VP1: a batch of one value, timer 0 expired, the motor on. -/
def protecting (lo hi : Byte) : State :=
  { timing 1 0 { startMs := 0, intervalMs := 1, enabled := true, autoReload := true } with
    smp := { streaming 0 with batchReady := true }, mem := fourCells lo hi, motorEn := true }

/-- An initialised, running encoder of full range. -/
def counting (cnt lastHw : Half) (total : Word) : Encoder :=
  { Encoder.reset with
    cnt := cnt, lastHw := lastHw, total := total, arr := 65535, maxCount := 65535, cpr := 1000, inited := true, cen := true }

/-- A machine with that encoder. -/
def turning (e : Encoder) : State := { State.reset with enc := e }

/-- An active-low button on port 1 pin 3. -/
def handle (shift : BitVec 8) (current latch : Bool) : Button :=
  { Button.reset with port := 1, pin := 3, current := current, pressLatch := latch, shiftReg := shift, initialized := true }

/-- The manager with button 0 registered, its timer started at 7. -/
def pressing (ms : Word) (h : Button) : State :=
  { (timing ms 1 { startMs := 7, intervalMs := 5, enabled := true, autoReload := true }).setButton 0 h with
    mgr := { Manager.reset with count := 1, inited := true } }

/-- VT3, VT4. -/
theorem test_tckInit :
    answers (exec (.tckInit 1000) State.reset) .success 0 (fun s => s.tick.systEn && decide (s.tick.systReload = 0))
      ∧ answers (exec (.tckInit 168000000) (ticking 7)) .success 0
          (fun s => decide (s.tick.systReload = 167999) && decide (s.tick.ms = 7)) := by decide
/-- VT2, VT5. -/
theorem test_tckInit_ends :
    answers (exec (.tckInit 999) State.reset) .invalidArgument 0 (fun s => !s.tick.systEn)
      ∧ answers (exec (.tckInit 4294967295) State.reset) .success 0 (fun s => decide (s.tick.systReload = 4294966)) := by
  decide
/-- R131's example. -/
theorem test_tckNow : answers (exec .tckNow (ticking 41)) .success 41 (fun _ => true) := by decide
/-- VT8, VT10. -/
theorem test_tckElapsed :
    answers (exec (.tckElapsed 0xFFFFFFFE) (ticking 3)) .success 5 (fun _ => true)
      ∧ answers (exec (.tckElapsed 4) (ticking 3)) .success 0xFFFFFFFF (fun _ => true) := by decide
/-- R133: `n = 0` completes at once, `n = 3` holds. -/
theorem test_tckDelay :
    answers (exec (.tckDelay 0) (ticking 10)) .success 0 (fun s => !s.tick.delay.active)
      ∧ ends (exec (.tckDelay 3) (ticking 10)) (fun s => s.tick.delay.active && s.responses.isEmpty) := by decide
/-- R133's example: the third tick ends the delay of 3, the second does not. -/
theorem test_evTick_hold :
    answers (exec .evTick { ticking 12 with tick := { (ticking 12).tick with delay := ⟨true, 10, 3⟩ } }) .success 0
        (fun s => !s.tick.delay.active && decide (s.tick.ms = 13))
      ∧ ends (exec .evTick { ticking 11 with tick := { (ticking 11).tick with delay := ⟨true, 10, 3⟩ } })
        (fun s => s.tick.delay.active && s.responses.isEmpty) := by decide
/-- VT7, VX19. -/
theorem test_evTick :
    ends (exec .evTick (ticking 0xFFFFFFFF)) (fun s => decide (s.tick.ms = 0))
      ∧ refuses (exec .evTick State.reset) .eventNotEnabled := by decide
/-- VT26. -/
theorem test_tmrInit :
    answers (exec (.tmrInit 3 false 7) (timing 3 3 ⟨3, 5, true, true⟩)) .success 0
      (fun s => decide (s.timer 3 = ⟨0, 7, false, false⟩) && decide (s.timer 2 = Timer.reset)) := by decide
/-- VT13, VT22. -/
theorem test_tmrStart :
    answers (exec (.tmrStart 1) (timing 100 1 ⟨0, 5, false, true⟩)) .success 0
        (fun s => decide (s.timer 1 = ⟨100, 5, true, true⟩))
      ∧ answers (exec (.tmrStart 3) (ticking 122)) .success 0 (fun s => decide (s.timer 3 = ⟨122, 0, true, false⟩)) := by
  decide
/-- VT14, VT15, VT24. -/
theorem test_tmrExpired :
    answers (exec (.tmrExpired 1) (timing 104 1 ⟨100, 5, true, true⟩)) .success 0 (fun s => decide ((s.timer 1).startMs = 100))
      ∧ answers (exec (.tmrExpired 1) (timing 105 1 ⟨100, 5, true, true⟩)) .success 1
          (fun s => decide (s.timer 1 = ⟨105, 5, true, true⟩))
      ∧ answers (exec (.tmrExpired 3) (timing 2 3 ⟨0xFFFFFFFE, 5, true, true⟩)) .success 0 (fun _ => true) := by decide
/-- VT18, VT23. -/
theorem test_tmrExpired_oneShot :
    answers (exec (.tmrExpired 2) (timing 122 2 ⟨117, 5, true, false⟩)) .success 1
        (fun s => decide (s.timer 2 = ⟨117, 5, false, false⟩))
      ∧ answers (exec (.tmrExpired 3) (timing 122 3 ⟨122, 0, true, false⟩)) .success 1 (fun s => !(s.timer 3).enabled) := by
  decide
/-- VS6 to VS10. -/
theorem test_smpInit_checks :
    ([(0x20000000, 0), (0x20000000, 3), (0x20000000, 65536), (0x20000001, 4), (0xFFFFFFFE, 2)] : List (Word × Word)).all
      fun o => answers (exec (.smpInit o.1 o.2) State.reset) .invalidArgument 0 fun s => !s.smp.inited := by decide
/-- VS11, and a ring outside `MEM_REGION` (R79). -/
theorem test_smpInit :
    answers (exec (.smpInit 0x20000000 65534) State.reset) .success 0
        (fun s => s.smp.inited && s.smp.htie && s.smp.tcie && decide (s.smp.n = 65534))
      ∧ answers (exec (.smpInit 0x20000000 4) { State.reset with cfg := { Params.default with memRegion := [⟨0x20000000, 7⟩] } })
          .invalidArgument 0 (fun s => !s.smp.inited) := by decide
/-- VS13, VS29. -/
theorem test_smpStart :
    answers (exec .smpStart (sampling (configured 0x20000000 4))) .success 0
        (fun s => s.smp.adcOn && s.smp.adcRun && s.smp.dmaEn)
      ∧ answers (exec .smpStart (sampling { streaming 3 with htif := true, tcif := true })) .success 0
          (fun s => !s.smp.htif && !s.smp.tcif && decide (s.smp.widx = 3)) := by decide
/-- VS1, VS52. -/
theorem test_smpStart_restart :
    answers (exec .smpStart State.reset) .uninitialized 0 (fun s => !s.smp.dmaEn)
      ∧ answers (exec .smpStart (sampling { streaming 1 with dmaEn := false, teif := true })) .success 0
          (fun s => s.smp.dmaEn && !s.smp.teif && decide (s.smp.widx = 0)) := by decide
/-- VS25, VS18. -/
theorem test_smpReady :
    answers (exec .smpReady (sampling { streaming 0 with batchReady := true })) .success 1 (fun s => s.smp.batchReady)
      ∧ answers (exec .smpReady State.reset) .success 0 (fun _ => true) := by decide
/-- VS26. -/
theorem test_smpClear :
    answers (exec .smpClear (sampling { streaming 0 with batchReady := true })) .success 0 (fun s => !s.smp.batchReady) := by
  decide
/-- VS23, VS24, VS3. -/
theorem test_smpRdcell :
    answers (exec (.smpRdcell 1) { sampling (streaming 0) with mem := [(0x20000002, 0xFF), (0x20000003, 0x0F)] }) .success 4095
        (fun _ => true)
      ∧ answers (exec (.smpRdcell 4) (sampling (streaming 0))) .invalidArgument 0 (fun _ => true)
      ∧ answers (exec (.smpRdcell 0) State.reset) .uninitialized 0 (fun _ => true) := by decide
/-- VS16, VS40. -/
theorem test_smpGetf :
    answers (exec (.smpGetf 1) (sampling { streaming 2 with htif := true })) .success 1 (fun s => s.smp.htif)
      ∧ answers (exec (.smpGetf 0) (sampling { streaming 2 with htif := true })) .success 0 (fun _ => true)
      ∧ answers (exec (.smpGetf 3) State.reset) .invalidArgument 0 (fun _ => true) := by decide
/-- VS37, VS47, VS41. -/
theorem test_smpClrf :
    answers (exec (.smpClrf 1) (sampling { streaming 0 with htif := true, tcif := true })) .success 0
        (fun s => !s.smp.htif && s.smp.tcif)
      ∧ answers (exec (.smpClrf 3) (sampling { streaming 0 with teif := true })) .invalidArgument 0 (fun s => s.smp.teif) := by
  decide
/-- VS36, VS51. -/
theorem test_smpDmaen_refused :
    answers (exec .smpDmaen (sampling { streaming 0 with dmaEn := false, htif := true })) .success 0 (fun s => !s.smp.dmaEn)
      ∧ answers (exec .smpDmaen (sampling { streaming 0 with dmaEn := false, teif := true })) .success 0
          (fun s => !s.smp.dmaEn) := by decide
/-- VS38, VS2. -/
theorem test_smpDmaen :
    answers (exec .smpDmaen (sampling { streaming 3 with dmaEn := false })) .success 0
        (fun s => s.smp.dmaEn && decide (s.smp.widx = 0))
      ∧ answers (exec .smpDmaen State.reset) .uninitialized 0 (fun _ => true) := by decide
/-- VS5. -/
theorem test_smpDmadis :
    answers (exec .smpDmadis (sampling (configured 0x20000000 4))) .success 0 (fun s => decide (s.draws = 0)) := by decide
/-- VS14, VS20: little-endian bytes; the last cell sets `DMA_TCIF` and wraps. -/
theorem test_evSample :
    ends (exec (.evSample 0x123) (sampling (streaming 0)))
        (fun s => decide (s.mem = [(0x20000000, 0x23), (0x20000001, 0x01)]) && decide (s.smp.widx = 1) && !s.smp.htif)
      ∧ ends (exec (.evSample 2048) (sampling (streaming 3)))
        (fun s => decide (s.mem = [(0x20000006, 0x00), (0x20000007, 0x08)]) && decide (s.smp.widx = 0) && s.smp.tcif
          && !s.smp.htif) := by decide
/-- VS15, VS35. -/
theorem test_evSample_half :
    ends (exec (.evSample 4095) (sampling (streaming 1))) (fun s => s.smp.htif && !s.smp.tcif && decide (s.smp.widx = 2))
      ∧ ends (exec (.evSample 1365) (sampling { streaming 0 with dmaEn := false }))
        (fun s => decide (s.mem = []) && decide (s.smp.adcDr = 1365) && decide (s.smp.widx = 0)) := by decide
/-- VS22, VS28. -/
theorem test_evDmairq :
    ends (exec .evDmairq (sampling { streaming 0 with tcif := true })) (fun s => !s.smp.tcif && s.smp.batchReady)
      ∧ ends (exec .evDmairq (sampling { streaming 0 with tcif := true, htif := true }))
        (fun s => !s.smp.tcif && !s.smp.htif && s.smp.batchReady) := by decide
/-- VS17, VX18. -/
theorem test_evDmairq_half :
    ends (exec .evDmairq (sampling { streaming 2 with htif := true })) (fun s => !s.smp.htif && !s.smp.batchReady)
      ∧ refuses (exec .evDmairq State.reset) .eventNotEnabled := by decide
/-- VS49, VX19. -/
theorem test_evDmate :
    ends (exec .evDmate { sampling (streaming 1) with cfg := { Params.default with teAdmitted := true } })
        (fun s => s.smp.teif && !s.smp.dmaEn && decide (s.smp.widx = 1))
      ∧ refuses (exec .evDmate (sampling (streaming 1))) .eventNotEnabled := by decide
/-- VP1 (cells of 3500), VP3 (cells of 3400, the threshold). -/
theorem test_prtTick :
    answers (exec .prtTick (protecting 0xAC 0x0D)) .success 0x0DAC0003
        (fun s => !s.smp.batchReady && !s.motorEn && decide ((s.timer 0).startMs = 1) && decide (s.inProgress = none))
      ∧ answers (exec .prtTick (protecting 0x48 0x0D)) .success 0x0D480001 (fun s => !s.smp.batchReady && s.motorEn) := by
  decide +kernel
/-- VP10, VP7. -/
theorem test_prtTick_ends :
    answers (exec .prtTick (protecting 0xFF 0xFF)) .success 0x0FFF0003 (fun s => !s.motorEn)
      ∧ answers (exec .prtTick { protecting 0xAC 0x0D with smp := streaming 0 }) .success 0
          (fun s => s.motorEn && decide ((s.timer 0).startMs = 1)) := by decide +kernel
/-- VP13, VP15. -/
theorem test_motSet :
    answers (exec (.motSet true) State.reset) .success 0 (fun s => s.motorEn)
      ∧ answers (exec (.motSet false) { State.reset with motorEn := true }) .success 0 (fun s => !s.motorEn) := by decide
/-- VP12, VP14. -/
theorem test_motGet :
    answers (exec .motGet State.reset) .success 0 (fun _ => true)
      ∧ answers (exec .motGet { State.reset with motorEn := true }) .success 1 (fun _ => true) := by decide
/-- VE10; R190: the present input levels are kept. -/
theorem test_encInit :
    answers (exec (.encInit true false true 1000 65535) (turning { counting 5 3 7 with qa := true, uif := true, dir := true }))
      .success 0 (fun s => decide (s.enc = { Encoder.reset with
        qa := true, pola := true, uie := true, cpr := 1000, maxCount := 65535, arr := 65535, inited := true })) := by decide
/-- VE8, VE9, VQ10. -/
theorem test_encInit_checks :
    answers (exec (.encInit true true true 0 65535) (turning (counting 7 0 7))) .invalidArgument 0
        (fun s => decide (s.enc = counting 7 0 7))
      ∧ answers (exec (.encInit false false false 1000 0) State.reset) .invalidArgument 0 (fun s => !s.enc.inited) := by
  decide
/-- VE15, VE1. -/
theorem test_encStart :
    answers (exec .encStart (turning { counting 5 5 5 with cen := false })) .success 0 (fun s => decide (s.enc = counting 5 5 5))
      ∧ answers (exec .encStart State.reset) .uninitialized 0 (fun s => !s.enc.cen) := by decide
/-- VE55, VE2. -/
theorem test_encStop :
    answers (exec .encStop (turning (counting 6 0 6))) .success 0 (fun s => !s.enc.cen && decide (s.enc.cnt = 6))
      ∧ answers (exec .encStop State.reset) .uninitialized 0 (fun _ => true) := by decide
/-- VE59, VE3. -/
theorem test_encReset :
    answers (exec .encReset (turning { counting 6 4 16 with polb := true, dir := true, uie := true, uif := true, seeded := true }))
        .success 0 (fun s => decide (s.enc = { counting 0 0 0 with polb := true, dir := true, uie := true }))
      ∧ answers (exec .encReset State.reset) .uninitialized 0 (fun _ => true) := by decide
/-- R192's example, VE4. -/
theorem test_encCount :
    answers (exec .encCount (turning (counting 0 0 (-3)))) .success 0xFFFFFFFD (fun _ => true)
      ∧ answers (exec .encCount State.reset) .uninitialized 0 (fun _ => true) := by decide
/-- VE21, VE11. -/
theorem test_encDir :
    answers (exec .encDir (turning { counting 3 0 3 with dir := true })) .success 0xFFFFFFFF (fun _ => true)
      ∧ answers (exec .encDir (turning (counting 0 0 0))) .success 1 (fun _ => true) := by decide
/-- VE31, VE33. -/
theorem test_encUpdate :
    answers (exec .encUpdate (turning (counting 2 65534 8))) .success 12
        (fun s => decide (s.enc = { counting 2 2 12 with hwCount := 2 }) && decide (s.inProgress = none))
      ∧ answers (exec .encUpdate (turning (counting 65530 0 0))) .success 0xFFFFFFFA (fun s => decide (s.enc.total = -6)) := by
  decide
/-- VE39 (odd modulus), VE38 (wrap of `total`). -/
theorem test_encUpdate_ends :
    answers (exec .encUpdate (turning { counting 501 0 0 with arr := 1000 })) .success 0xFFFFFE0C (fun _ => true)
      ∧ answers (exec .encUpdate (turning (counting 1 0 0x7FFFFFFF))) .success 0x80000000 (fun _ => true) := by decide
/-- VE47, VE50. -/
theorem test_encRpm :
    answers (exec (.encRpm 100) (turning { counting 0 0 500 with seeded := true })) .success 300
        (fun s => decide (s.enc.speedRpm = 300) && decide (s.enc.lastTotal = 500) && decide (s.enc.lastTickMs = 100))
      ∧ answers (exec (.encRpm 300) (turning { counting 0 0 699 with lastTotal := 700, lastTickMs := 200, seeded := true }))
          .success 0 (fun _ => true) := by decide
/-- VE51, VE46. -/
theorem test_encRpm_ends :
    answers (exec (.encRpm 400) (turning { counting 0 0 199 with lastTotal := 699, lastTickMs := 300, seeded := true }))
        .success 0xFFFFFED4 (fun s => decide (s.enc.speedRpm = -300))
      ∧ answers (exec (.encRpm 9) (turning (counting 0 0 500))) .success 0
          (fun s => s.enc.seeded && decide (s.enc.lastTotal = 500) && decide (s.enc.lastTickMs = 9)) := by decide
/-- VE16, VE28. -/
theorem test_evQa :
    ends (exec (.evQa true) (turning (counting 0 0 0))) (fun s => decide (s.enc = { counting 1 0 0 with qa := true }))
      ∧ ends (exec (.evQa true) (turning { counting 0 0 0 with pola := true }))
        (fun s => decide (s.enc.cnt = 65535) && s.enc.uif && s.enc.dir) := by decide
/-- VE20, VE25. -/
theorem test_evQb :
    ends (exec (.evQb true) (turning (counting 4 0 0)))
        (fun s => decide (s.enc = { counting 3 0 0 with qb := true, dir := true }))
      ∧ ends (exec (.evQb true) (turning (counting 0 0 0))) (fun s => decide (s.enc.cnt = 65535) && s.enc.uif) := by decide
/-- VE40, VX19. -/
theorem test_evEncirq :
    ends (exec .evEncirq (turning { counting 2 0 8 with uif := true, uie := true }))
        (fun s => decide (s.enc.total = 65544) && !s.enc.uif)
      ∧ refuses (exec .evEncirq (turning { counting 2 0 8 with uif := true })) .eventNotEnabled := by decide
/-- VE42. -/
theorem test_evEncirq_down :
    ends (exec .evEncirq (turning { counting 65534 2 65548 with uif := true, uie := true, dir := true }))
      (fun s => decide (s.enc.total = 12)) := by decide
/-- VB7. -/
theorem test_btnInit :
    answers (exec (.btnInit 7 3 1 false) State.reset) .success 0
      (fun s => decide (s.button 7 = handle 0 false false) && decide (s.button 6 = Button.reset)) := by decide
/-- VB5. -/
theorem test_btnMinit :
    answers (exec .btnMinit { ticking 7 with mgr := { Manager.reset with count := 2 } }) .success 0
      (fun s => s.mgr.inited && decide (s.mgr.count = 0) && decide (s.timer 1 = ⟨7, 5, true, true⟩)) := by decide
/-- VB8, VB9. -/
theorem test_btnAdd :
    answers (exec (.btnAdd 5) ((pressing 7 (handle 0 false false)).setButton 5 (handle 0 false false))) .success 0
        (fun s => decide (s.mgr.registered = [0, 5]))
      ∧ answers (exec (.btnAdd 0) (pressing 7 (handle 0 false false))) .invalidArgument 0 (fun s => decide (s.mgr.count = 1)) := by
  decide
/-- VB6, VB15. -/
theorem test_btnAdd_checks :
    answers (exec (.btnAdd 1) (pressing 7 (handle 0 false false))) .uninitialized 0 (fun _ => true)
      ∧ answers (exec (.btnAdd 5) { (pressing 7 (handle 0 false false)).setButton 5 (handle 0 false false) with
            mgr := { Manager.reset with count := 8, inited := true } }) .invalidArgument 0 (fun _ => true) := by decide
/-- VB11, VB10. -/
theorem test_btnScan :
    answers (exec .btnScan (pressing 12 (handle 0 false false))) .success 1
        (fun s => decide ((s.button 0).shiftReg = 1) && decide ((s.timer 1).startMs = 12))
      ∧ answers (exec .btnScan (pressing 7 (handle 0 false false))) .success 0
          (fun s => decide (s.button 0 = handle 0 false false)) := by decide
/-- R224's example: the fourth sample commits the press; and the release, with no event. -/
theorem test_btnScan_commits :
    answers (exec .btnScan (pressing 12 (handle 0b111 false false))) .success 1
        (fun s => decide (s.button 0 = handle 0b1111 true true))
      ∧ answers (exec .btnScan ((pressing 12 (handle 0b11111000 true false)).setGpio 1 3 true)) .success 1
          (fun s => decide (s.button 0 = { handle 0b11110000 false false with last := true })) := by decide
/-- R225's example, VB3. -/
theorem test_btnTake :
    answers (exec (.btnTake 0) (pressing 12 (handle 0b1111 true true))) .success 1
        (fun s => decide (s.button 0 = handle 0b1111 true false))
      ∧ answers (exec (.btnTake 0) State.reset) .uninitialized 0 (fun _ => true) := by decide
/-- R226's example, VB4. -/
theorem test_btnPressed :
    answers (exec (.btnPressed 0) (pressing 12 (handle 0b1111 true true))) .success 1 (fun s => (s.button 0).pressLatch)
      ∧ answers (exec (.btnPressed 1) (pressing 12 (handle 0 false false))) .uninitialized 0 (fun _ => true) := by decide
/-- VB12. -/
theorem test_evPin :
    ends (exec (.evPin true 3 1) State.reset)
      (fun s => s.gpioLevel 1 3 && !s.gpioLevel 3 1 && !s.gpioLevel 1 4 && !s.gpioLevel 0 3) := by decide
/-- VR1 to VR3 and section 2.8: the block is as at reset, memory is kept. -/
theorem test_evReset :
    ends (exec .evReset { protecting 0xE4 0x0C with enc := counting 65527 0 (-9) })
      (fun s => decide (s.tick = TickUnit.reset) && decide (s.smp = Sampler.reset) && decide (s.enc = Encoder.reset)
        && !s.motorEn && decide (s.timer 0 = Timer.reset) && decide (s.mem = fourCells 0xE4 0x0C)) := by decide
/-- R105, VX1: a step on an illegal host word. -/
theorem test_step_illegal :
    answers (step { State.reset with trace := [0x50000000, 0x22000000] }) .invalidArgument 0
      (fun s => decide (s.trace = [0x22000000])) := by decide
/-- R26, R133: the host is held. -/
theorem test_step_held :
    refuses (step { State.reset with trace := [0x22000000], tick := { TickUnit.reset with delay := ⟨true, 0, 1⟩ } }) .hostHeld := by
  decide
/-- The fetch helper runs the word it is given, in a command in progress too. -/
theorem test_step_withFetchWord :
    answers (step (State.reset.withFetchWord 32 0x21000001)) .success 0 (fun s => s.motorEn)
      ∧ ends (step (({ State.reset with inProgress := some .protP2 } : State).withFetchWord 32 0xE7000131))
        (fun s => s.gpioLevel 1 3 && decide (s.inProgress = some .protP2)) := by decide

/-! ## Concrete states that meet the premises of the statements, each clause at a boundary value -/

/-- A machine whose next words are given. -/
def tracing (ws : List Word) (s : State) : State := { s with trace := ws }

/-- The premise of `IllegalWordOutcome` on a word. -/
abbrev noRowTakes (w : Word) : Prop :=
  ∀ r ∈ opcodeTable, r.op = w.extractLsb' 24 8 → w &&& (0x00FFFFFF#32 &&& ~~~r.fieldBits) ≠ 0

theorem witness_IllegalWordOutcome :
    noRowTakes 0x01000001 ∧ noRowTakes 0x50000000 ∧ noRowTakes 0xE8000000 ∧ noRowTakes 0xE1001000 := by
  decide +kernel

theorem witness_IllegalWordOutcome_state :
    let s := tracing [0x50000000] State.reset
    s.inProgress = none ∧ s.tick.delay.active = false ∧ s.trace = [0x50000000] := by decide

theorem witness_EncodeOfDecode : decode [0x05000002, 0x22000000] = .step (.tmrStart 2) [0x22000000] := by decide

theorem witness_IllFormedOperandsRaise : Instr.wellFormed (.smpInit 0x20000000 65535) = false := by decide

theorem witness_TruncatedStepRefused :
    ∃ r, rowOf ((0x10000000 : Word).extractLsb' 24 8) = some r
      ∧ (0x10000000 : Word) &&& (0x00FFFFFF#32 &&& ~~~r.fieldBits) = 0 ∧ [(0x20000000 : Word)].length < r.format.extWords :=
  ⟨⟨0x10, .X2, 0, fun _ a0 a1 => .smpInit a0 a1⟩, rfl, by decide, by decide⟩

theorem witness_StepRunsDecodedInstruction :
    decode (tracing [0x22000000] State.reset).trace = .step .motGet []
      ∧ (tracing [0x22000000] State.reset).inProgress = none ∧ State.reset.tick.delay.active = false
      ∧ decode [0xE7000131] = .step (.evPin true 3 1) [] ∧ issuedByHost (.evPin true 3 1) = false := by decide

/-- A protection pass in progress, another agent's turn next, and its word. -/
def interrupted : State :=
  { tracing [0xE7000131] State.reset with inProgress := some .protP2, preempt := [true] }

/-- The events' clauses: an event that runs, and an ill-formed one. -/
theorem witness_StepInsideSubSteppedCommand :
    interrupted.inProgress = some .protP2 ∧ interrupted.preempt.headD false = true
      ∧ decode interrupted.trace = .step (.evPin true 3 1) [] ∧ issuedByHost (.evPin true 3 1) = false
      ∧ ends (exec (.evPin true 3 1) interrupted) (fun _ => true)
      ∧ (tracing [0xE8000000] interrupted).preempt.headD false = true
      ∧ (0xE8000000 : Word).extractLsb' 28 4 = 0xE#4 ∧ noRowTakes 0xE8000000 := by decide +kernel

/-- The host's turn: given to it, left to it, and given to another agent that has no step; each gate of P2; the last
cell of the address space and the first byte past it; a ring of no cells and of one. -/
theorem witness_StepInsideSubSteppedCommand_host :
    { interrupted with preempt := [false, true] }.preempt.headD false = false
      ∧ { interrupted with preempt := [] }.preempt.headD false = false
      ∧ (∀ w rest, (tracing [0x22000000] interrupted).trace = w :: rest → w.extractLsb' 28 4 ≠ 0xE#4)
      ∧ interrupted.smp.batchReady = false
      ∧ ({ Sampler.reset with batchReady := true } : Sampler).inited = false
      ∧ (protecting 0 0).smp.batchReady = true ∧ (protecting 0 0).smp.inited = true
      ∧ cellAddr (sampling (configured 0xFFFFFFFC 2)) 1 + 1 < 0x100000000
      ∧ 0x100000000 ≤ cellAddr (sampling (configured 0xFFFFFFFC 2)) 2 + 1
      ∧ State.reset.smp.n = 0 ∧ (configured 0xFFFFFFFE 1).n ≠ 0
      ∧ ((protecting 0 0).timer 0).enabled = true
      ∧ ((protecting 0 0).timer 0).intervalMs ≤ (protecting 0 0).tick.ms - ((protecting 0 0).timer 0).startMs
      ∧ (turning (counting 0 0 0)).enc.inited = true := by
  refine ⟨rfl, rfl, fun w rest h => ?_, by decide⟩
  cases h
  decide

/-- A protection pass to come with another agent's step after its first sub-steps, the stream running. -/
def invaded (w : Word) (k : Nat) : State :=
  let s := protecting 0 0
  { s with
    smp := { s.smp with adcOn := true, adcRun := true, dmaEn := true, widx := 3, tcif := true }
    trace := [0x20000000, w], preempt := List.replicate k false ++ [true] }

/-- The first and the last place between P2 and P5, each with the handler and with the largest sample. -/
theorem witness_StepInsideSubSteppedCommand_prtTick :
    let s := invaded 0xE2000000 1
    let t := invaded (0xE1000000#32 ||| place (0xFFF : BitVec 12) 0) 5
    s.inProgress = none ∧ s.tick.delay.active = false ∧ s.preempt = List.replicate 1 false ++ [true]
      ∧ t.preempt = List.replicate (t.smp.n.toNat + 1) false ++ [true]
      ∧ (s.timer 0).enabled = true ∧ (s.timer 0).intervalMs ≤ s.tick.ms - (s.timer 0).startMs
      ∧ s.smp.batchReady = true ∧ s.smp.inited = true ∧ s.smp.n ≠ 0
      ∧ s.smp.base.toNat + 2 * s.smp.n.toNat ≤ 0x100000000 ∧ s.trace = [0x20000000, 0xE2000000]
      ∧ s.smp.tcif = true ∧ s.smp.tcie = true
      ∧ t.trace = [0x20000000, 0xE1000000#32 ||| place (0xFFF : BitVec 12) 0]
      ∧ t.smp.adcOn = true ∧ t.smp.adcRun = true ∧ t.smp.dmaEn = true ∧ t.smp.widx.toNat < t.smp.n.toNat := by decide

theorem witness_StepKeepsAdmissible :
    (tracing [0x22000000] State.reset).Admissible ∧ ends (step (tracing [0x22000000] State.reset)) (fun _ => true) := by
  refine ⟨?_, by decide⟩
  constructor <;> decide

/-- The state of `AdmissibleStepNeverFaults` nearest the end of the address space: the last cell, at its last address. -/
def lastCell : State :=
  { sampling { configured 0xFFFFFFFC 2 with dmaEn := true, adcOn := true, adcRun := true, widx := 1 } with
    trace := [0xE1000FFF] }

theorem witness_AdmissibleStepNeverFaults :
    lastCell.Admissible ∧ ends (step lastCell) (fun s => decide (s.mem = [(0xFFFFFFFE, 0xFF), (0xFFFFFFFF, 0x0F)])) := by
  refine ⟨?_, by decide⟩
  constructor <;> decide

theorem witness_StepKeepsConfiguration : ends (step (tracing [0xEF000000] State.reset)) (fun _ => true) := by decide

theorem witness_RaisingCommandChangesNothing :
    answers (exec .encStart State.reset) .uninitialized 0 (fun _ => true)
      ∧ answers (exec .prtTick { protecting 0 0 with smp := { Sampler.reset with batchReady := true } }) .uninitialized 0
          (fun s => decide ((s.timer 0).startMs = 1)) := by decide

theorem witness_CommandsAnswerOnceEventsNever :
    ends (exec (.evQa true) State.reset) (fun s => s.responses.isEmpty)
      ∧ ends (exec .evTick (ticking 1)) (fun s => s.responses.isEmpty)
      ∧ answers (exec .evTick { ticking 0 with tick := { (ticking 0).tick with delay := ⟨true, 0, 1⟩ } }) .success 0 (fun _ => true)
      ∧ answers (exec .motGet State.reset) .success 0 (fun _ => true) := by decide

theorem witness_MotorLineRaisedOnlyByMotSet :
    ends (step (tracing [0x21000001] State.reset)) (fun s => s.motorEn) ∧ State.reset.motorEn = false := by decide

theorem witness_BatchReadySetOnlyByHandler :
    ends (step (tracing [0xE2000000] (sampling { streaming 0 with tcif := true }))) (fun s => s.smp.batchReady)
      ∧ (streaming 0).batchReady = false := by decide

theorem witness_TickCountWrittenOnlyByTickAndReset :
    ends (step (tracing [0xE0000000] (ticking 0xFFFFFFFF))) (fun s => decide (s.tick.ms ≠ 0xFFFFFFFF))
      ∧ ends (step (tracing [0xEF000000] (ticking 1))) (fun s => decide (s.tick.ms ≠ 1)) := by decide

theorem witness_MemoryWrittenOnlyBySamples :
    ends (exec (.evSample 0x123) (sampling (streaming 0))) (fun _ => true)
      ∧ 0x1FFFFFFF ≠ cellAddr (sampling (streaming 0)) 0 ∧ 0x20000002 ≠ cellAddr (sampling (streaming 0)) 0 + 1
      ∧ ends (step (tracing [0xE1000123] { sampling (streaming 0) with mem := fourCells 0 0 }))
          (fun s => decide (Memory.byteAt s.mem 0x20000000 ≠ Memory.byteAt (fourCells 0 0) 0x20000000)) := by
  decide +kernel

theorem witness_HandlersAndTickCommute :
    let s : State := { ticking 0 with smp := { streaming 0 with tcif := true }, enc := { counting 0 0 0 with uif := true, uie := true } }
    s.smp.irqPending = true ∧ s.enc.irqPending = true ∧ s.tick.systEn = true := by decide

theorem witness_TckInitSetsReload : (999 : Word).toNat < 1000 ∧ 1000 ≤ (1000 : Word).toNat := by decide

theorem witness_TickAndTimerLaws :
    let s := timing 7 2 ⟨7, 1, true, true⟩
    s.tick.systEn = true ∧ s.tick.delay.active = false ∧ (s.timer 2).enabled = true ∧ (s.timer 2).autoReload = true
      ∧ (s.timer 2).startMs = s.tick.ms ∧ 0 < (s.timer 2).intervalMs.toNat := by decide

theorem witness_TckDelayHoldsUntilElapsed :
    (ticking 7).tick.systEn = true ∧ 0 < (1 : Word).toNat ∧ (1 : Word) ≠ 0 ∧ State.reset.tick.systEn = false
      ∧ let s : State := { tracing [0x22000000] State.reset with tick := { TickUnit.reset with delay := ⟨true, 0, 1⟩ } }
        s.tick.delay.active = true ∧ s.inProgress = none ∧ decode s.trace = .step .motGet [] ∧ issuedByHost .motGet = true := by
  decide

theorem witness_TmrExpiredTestsAndReloads :
    (State.reset.timer 1).enabled = false
      ∧ (let s := timing 104 1 ⟨100, 5, true, true⟩
        (s.timer 1).enabled = true ∧ s.tick.ms - (s.timer 1).startMs < (s.timer 1).intervalMs)
      ∧ (let s := timing 105 1 ⟨100, 5, true, true⟩
        (s.timer 1).enabled = true ∧ (s.timer 1).intervalMs ≤ s.tick.ms - (s.timer 1).startMs
          ∧ (s.timer 1).autoReload = true)
      ∧ (let s := timing 0 3 ⟨0, 0, true, false⟩
        (s.timer 3).enabled = true ∧ (s.timer 3).intervalMs ≤ s.tick.ms - (s.timer 3).startMs
          ∧ (s.timer 3).autoReload = false) := by decide

theorem witness_EvTickCounts :
    (ticking 1).tick.systEn = true ∧ (ticking 1).tick.delay.active = false ∧ State.reset.tick.systEn = false
      ∧ (11 : Word) + 1 - 10 < 3 ∧ (3 : Word) ≤ 12 + 1 - 10
      ∧ ({ (ticking 11).tick with delay := ⟨true, 10, 3⟩ } : TickUnit).delay.active = true := by decide

/-- The shortest ring at the end of the address space is accepted; one cell more, or an odd base, is not. -/
theorem witness_SmpInitChecksAndConfigures :
    (2 : Word).toNat ≠ 0 ∧ (2 : Word).toNat % 2 = 0 ∧ (2 : Word).toNat ≤ 65534 ∧ (0xFFFFFFFC : Word).toNat % 2 = 0
      ∧ (0xFFFFFFFC : Word).toNat + 2 * (2 : Word).toNat ≤ 0x100000000
      ∧ (∀ x, (0xFFFFFFFC : Word).toNat ≤ x → x < (0xFFFFFFFC : Word).toNat + 2 * (2 : Word).toNat →
          ∃ r ∈ State.reset.cfg.memRegion, r.base ≤ x ∧ x < r.base + r.size)
      ∧ State.reset.smp.dmaEn = false ∧ (sampling (streaming 0)).smp.dmaEn = true
      ∧ ¬ (0xFFFFFFFE : Word).toNat + 2 * (2 : Word).toNat ≤ 0x100000000 ∧ (0x20000001 : Word).toNat % 2 ≠ 0 := by
  refine ⟨by decide, by decide, by decide, by decide, by decide, fun x _ h => ?_, rfl, rfl, by decide, by decide⟩
  exact ⟨⟨0, 0x100000000⟩, List.mem_cons_self .., Nat.zero_le _, Nat.lt_of_lt_of_le h (by decide)⟩

theorem witness_SmpStartEnables :
    State.reset.smp.inited = false ∧ (configured 0 2).inited = true ∧ (configured 0 2).dmaEn = false
      ∧ (streaming 3).inited = true ∧ (streaming 3).dmaEn = true := by decide

theorem witness_SmpRdcellReadsCell :
    State.reset.smp.inited = false ∧ lastCell.smp.inited = true ∧ lastCell.smp.n.toNat ≤ (2 : Half).toNat
      ∧ (1 : Half).toNat < lastCell.smp.n.toNat ∧ lastCell.smp.base.toNat + 2 * (1 : Half).toNat + 1 < 0x100000000 := by decide

theorem witness_SmpDmaenNeedsClearFlags :
    State.reset.smp.inited = false ∧ (streaming 0).inited = true ∧ (streaming 0).dmaEn = true
      ∧ (∀ p ∈ [{ configured 0 2 with tcif := true }, { configured 0 2 with htif := true },
          ({ configured 0 2 with teif := true } : Sampler)],
          p.inited = true ∧ p.dmaEn = false ∧ (p.tcif = true ∨ p.htif = true ∨ p.teif = true))
      ∧ (configured 0 2).tcif = false ∧ (configured 0 2).htif = false ∧ (configured 0 2).teif = false
      ∧ (configured 0 2).dmaEn = false := by decide

theorem witness_SmpDmadisDraws : State.reset.smp.dmaEn = false ∧ (sampling (streaming 0)).smp.dmaEn = true := by decide

theorem witness_EvSampleTransfers :
    lastCell.smp.adcOn = true ∧ lastCell.smp.adcRun = true ∧ lastCell.smp.dmaEn = true
      ∧ cellAddr lastCell lastCell.smp.widx.toNat + 1 < 0x100000000 ∧ Memory.wf lastCell.mem
      ∧ 0xFFFFFFFD ≠ cellAddr lastCell 1 ∧ 0xFFFFFFFD ≠ cellAddr lastCell 1 + 1
      ∧ ({ streaming 0 with dmaEn := false } : Sampler).dmaEn = false ∧ State.reset.smp.adcOn = false := by decide

theorem witness_LapLaw :
    let s := sampling { configured 0xFFFFFFFC 2 with dmaEn := true, adcOn := true, adcRun := true, widx := 1 }
    s.smp.adcOn = true ∧ s.smp.adcRun = true ∧ s.smp.dmaEn = true ∧ 2 ≤ s.smp.n.toNat
      ∧ s.smp.widx.toNat < s.smp.n.toNat ∧ s.smp.base.toNat + 2 * s.smp.n.toNat ≤ 0x100000000
      ∧ [(7 : BitVec 12), 8].length ≤ 0 + s.smp.n.toNat
      ∧ (∀ j, j < [(7 : BitVec 12)].length → 0xFFFFFFFD ≠ cellAddr s ((s.smp.widx.toNat + j) % s.smp.n.toNat)
        ∧ 0xFFFFFFFD ≠ cellAddr s ((s.smp.widx.toNat + j) % s.smp.n.toNat) + 1) := by decide

theorem witness_BatchNeedsWholeLap :
    let s := sampling (configured 0x20000000 2)
    let is : List Instr := [.smpStart, .evSample 1, .evSample 2, .evDmairq]
    s.smp.batchReady = false ∧ s.smp.tcif = false ∧ s.smp.widx = 0
      ∧ (∀ i ∈ is, i ≠ .smpDmadis ∧ i ≠ .evReset ∧ ∀ base len, i ≠ .smpInit base len)
      ∧ ends (execAll is s) (fun t => t.smp.batchReady) := by
  refine ⟨rfl, rfl, rfl, ?_, by decide⟩
  intro i hi
  simp only [List.mem_cons, List.not_mem_nil, or_false] at hi
  rcases hi with rfl | rfl | rfl | rfl <;> simp

theorem witness_EvDmairqServesFlags :
    ({ streaming 0 with tcif := true } : Sampler).tcif = true ∧ (streaming 0).tcie = true ∧ (streaming 0).htie = true
      ∧ ({ streaming 0 with htif := true } : Sampler).htif = true ∧ (streaming 0).tcif = false ∧ (streaming 0).htif = false := by
  decide

theorem witness_EvDmateStopsStream :
    ({ Params.default with teAdmitted := true } : Params).teAdmitted = true ∧ (streaming 0).dmaEn = true
      ∧ State.reset.cfg.teAdmitted = false := by decide

/-- The clauses of the pass: expired at the last tick that is not, at the first that is; without a batch; the
unreachable arm; the shortest ring of one cell at the end of the address space, and an ordinary ring. -/
theorem witness_PrtTickPass :
    (protecting 0 0).preempt = [] ∧ (protecting 0 0).inProgress = none
      ∧ (let s := timing 0 0 ⟨0, 1, true, true⟩
        ¬ ((s.timer 0).enabled = true ∧ (s.timer 0).intervalMs ≤ s.tick.ms - (s.timer 0).startMs))
      ∧ (let s := protecting 0 0
        (s.timer 0).enabled = true ∧ (s.timer 0).intervalMs ≤ s.tick.ms - (s.timer 0).startMs)
      ∧ (streaming 0).batchReady = false
      ∧ ({ Sampler.reset with batchReady := true } : Sampler).inited = false
      ∧ (let p := { configured 0xFFFFFFFE 1 with batchReady := true }
        p.batchReady = true ∧ p.inited = true ∧ p.n ≠ 0 ∧ p.base.toNat + 2 * p.n.toNat ≤ 0x100000000)
      ∧ (let p := (protecting 0 0).smp
        p.batchReady = true ∧ p.inited = true ∧ p.n ≠ 0 ∧ p.base.toNat + 2 * p.n.toNat ≤ 0x100000000) := by decide

/-- Every cell one above the threshold, and every cell at it. -/
theorem witness_PrtTickCutsAboveThreshold :
    (∀ i, i < 4 → Memory.read16 (fourCells 0x49 0x0D) (cellAddr (protecting 0x49 0x0D) i) = some 3401)
      ∧ (∀ i, i < 4 → Memory.read16 (fourCells 0x48 0x0D) (cellAddr (protecting 0x48 0x0D) i) = some 3400)
      ∧ (protecting 0x48 0x0D).cfg.thresh = 3400 ∧ (protecting 0x48 0x0D).smp.n = 4
      ∧ (protecting 0x48 0x0D).preempt = [] ∧ (protecting 0x48 0x0D).smp.batchReady = true
      ∧ (protecting 0x48 0x0D).smp.inited = true ∧ ((protecting 0x48 0x0D).timer 0).enabled = true := by decide

theorem witness_EncInitConfigures : (0 : Half) = 0 ∧ (1 : Half) ≠ 0 ∧ (65535 : Half) ≠ 0 := by decide

theorem witness_EncStartStopReset : State.reset.enc.inited = false ∧ (turning (counting 0 0 0)).enc.inited = true := by decide

theorem witness_EncCountAndDir :
    State.reset.enc.inited = false ∧ (counting 0 0 0).inited = true ∧ (counting 0 0 0).dir = false
      ∧ ({ counting 0 0 0 with dir := true } : Encoder).dir = true := by decide

/-- The residues next to half the modulus 65536 on either side, and the half under each setting. -/
theorem witness_EncUpdateFoldsDifference :
    State.reset.preempt = [] ∧ State.reset.inProgress = none ∧ State.reset.enc.inited = false
      ∧ (counting 0 0 0).inited = true
      ∧ (((32767 : Half).toNat : Int) - (0 : Half).toNat) % 65536 = 32767 ∧ 2 * 32767 < (65535 : Half).toNat + 1
      ∧ (((0 : Half).toNat : Int) - (32767 : Half).toNat) % 65536 = 32769 ∧ (65535 : Half).toNat + 1 < 2 * 32769
      ∧ (((32768 : Half).toNat : Int) - (0 : Half).toNat) % 65536 = 32768 ∧ 2 * 32768 = (65535 : Half).toNat + 1
      ∧ State.reset.cfg.foldHalf = .either ∧ ({ Params.default with foldHalf := .plus } : Params).foldHalf = .plus
      ∧ ({ Params.default with foldHalf := .minus } : Params).foldHalf = .minus := by decide

theorem witness_FoldIsSignedResidue :
    0 < 1 ∧ 0 < 3 ∧ 2 < 3 ∧ 2 * 2 ≠ 3 ∧ ((-1 : Int) - 2) % 3 = 0 ∧ 2 * (-1 : Int).natAbs ≤ 3 ∧ 1 < 2 := by decide

/-- The state of the two schedules: a wrap just counted up, the interrupt pending, the update and the handler to come. -/
def wrapped (turns : List Bool) : State :=
  { turning { counting 2 65534 8 with uif := true, uie := true } with
    trace := [0x36000000, 0xE6000000], preempt := turns }

theorem witness_HandlerInsideUpdateIsLost :
    let s := wrapped [false, true]
    s.inProgress = none ∧ s.tick.delay.active = false ∧ s.enc.inited = true ∧ s.enc.uif = true ∧ s.enc.uie = true
      ∧ s.enc.dir = false ∧ (((2 : Half).toNat : Int) - (65534 : Half).toNat) % 65536 = 4
      ∧ 2 * 4 < (65535 : Half).toNat + 1 ∧ (wrapped [true]).preempt = [true] := by decide

/-- Unseeded; no time passed; the largest quotient that fits and the least, and one past each. -/
theorem witness_EncRpmSpeed :
    State.reset.enc.inited = false ∧ (counting 0 0 0).inited = true ∧ (counting 0 0 0).seeded = false
      ∧ ({ counting 0 0 0 with seeded := true } : Encoder).seeded = true ∧ (5 : Word) - 5 = 0 ∧ (1 : Word) - 0 ≠ 0
      ∧ (counting 0 0 0).cpr ≠ 0 ∧ (1 : Half) ≠ 0
      ∧ ((35791394 * 60000 : Int).tdiv (((1000 : Half).toNat : Int) * (1 : Word).toNat) = 2147483640)
      ∧ ((35791 * 60000 : Int).tdiv (((1 : Half).toNat : Int) * (1 : Word).toNat) < 0x80000000)
      ∧ ((2 : Int) ^ 31 ≤ (35792 * 60000 : Int).tdiv (((1 : Half).toNat : Int) * (1 : Word).toNat))
      ∧ ((-35792 * 60000 : Int).tdiv (((1 : Half).toNat : Int) * (1 : Word).toNat) < -(2 : Int) ^ 31)
      ∧ (-(2 : Int) ^ 31 ≤ (-35791 * 60000 : Int).tdiv (((1 : Half).toNat : Int) * (1 : Word).toNat)) := by decide

theorem witness_QuadratureEdgesCount :
    false = State.reset.enc.qa ∧ true ≠ State.reset.enc.qa ∧ true ≠ State.reset.enc.qb ∧ State.reset.enc.cen = false
      ∧ (counting 65535 0 0).cen = true ∧ true ≠ (counting 65535 0 0).qa ∧ true ≠ (counting 0 0 0).qb := by decide

theorem witness_EvEncirqCompensates :
    let e := { counting 0 0 0 with uif := true, uie := true }
    e.uif = true ∧ e.uie = true ∧ e.dir = false ∧ ({ e with dir := true } : Encoder).dir = true
      ∧ State.reset.enc.uif = false := by decide

theorem witness_UpdateTracksNetCounts :
    let s := turning { counting 1 1 0 with arr := 1, maxCount := 1 }
    s.preempt = [] ∧ s.enc.inited = true ∧ s.enc.cen = true ∧ s.enc.arr ≠ 0 ∧ s.enc.cnt.toNat ≤ s.enc.arr.toNat
      ∧ s.enc.lastHw = s.enc.cnt ∧ 2 * (netCounts [true, false]).natAbs < s.enc.arr.toNat + 1
      ∧ 2 * (netCounts [true, true, false]).natAbs = s.enc.arr.toNat + 1 := by decide

theorem witness_ShortWrapCountedTwice :
    let s := turning { counting 2 2 0 with arr := 2, maxCount := 2, uie := true }
    s.preempt = [] ∧ s.enc.inited = true ∧ s.enc.cen = true ∧ s.enc.uie = true ∧ 2 ≤ s.enc.arr.toNat
      ∧ s.enc.cnt = s.enc.arr ∧ s.enc.lastHw = s.enc.arr := by decide

/-- The manager with every slot taken. -/
def fullManager : Manager := { count := 8, slot := #v[0, 1, 2, 3, 4, 5, 6, 7], inited := true }

theorem witness_BtnAddRegisters :
    State.reset.mgr.inited = false
      ∧ (let s := pressing 7 (handle 0 false false)
        s.mgr.inited = true ∧ (s.button 1).initialized = false ∧ (s.button 0).initialized = true
          ∧ ∃ (k : Fin 8), k.val < s.mgr.count.toNat ∧ s.mgr.slot[k] = 0)
      ∧ fullManager.count = 8
      ∧ (let m := { fullManager with count := 7 }
        m.count.toNat < 8 ∧ ∀ (k : Fin 8), k.val < m.count.toNat → m.slot[k] ≠ 7) := by decide

theorem witness_BtnScanSamplesRegistered :
    fullManager.registered.Nodup ∧ State.reset.mgr.inited = false
      ∧ (let s := pressing 11 (handle 0 false false)
        s.mgr.inited = true ∧ ¬ ((s.timer 1).enabled = true ∧ (s.timer 1).intervalMs ≤ s.tick.ms - (s.timer 1).startMs))
      ∧ (let s := pressing 12 (handle 0 false false)
        s.mgr.registered.Nodup ∧ s.mgr.inited = true
          ∧ ((s.timer 1).enabled = true ∧ (s.timer 1).intervalMs ≤ s.tick.ms - (s.timer 1).startMs)) := by decide

theorem witness_FourPollsLatchOneEvent :
    let s := pressing 7 (handle 0b0111 false true)
    s.tick.systEn = true ∧ s.tick.delay.active = false ∧ s.mgr.inited = true ∧ s.mgr.registered.Nodup
      ∧ 0 ∈ s.mgr.registered ∧ (s.button 0).initialized = true ∧ (s.button 0).current = false
      ∧ s.timer 1 = { startMs := s.tick.ms, intervalMs := 5, enabled := true, autoReload := true }
      ∧ s.gpioLevel (s.button 0).port (s.button 0).pin = (s.button 0).activeLevel
      ∧ (handle 0b1111 true true).current = true := by decide

theorem witness_BtnTakeAndPressed :
    (State.reset.button 7).initialized = false
      ∧ ((pressing 7 (handle 0 false true)).button 0).initialized = true := by decide

end Sys2Proof.Tests
end

/-! PROOFS. How often an instruction answers (R11): the outcomes of completing and raising, then each instruction that
does more than one of these, then the dispatch. -/

namespace Sys2Proof.Machine

/-! ## Outcomes that go on only to states with a property -/

/-- The next state has the property, if there is a next state. -/
def NextHas (P : State → Prop) (o : Result) : Prop := ∀ t, o = .next t → P t

theorem NextHas.next {P : State → Prop} {s : State} (h : P s) : NextHas P (.next s) := by
  intro t ht
  cases ht
  exact h

theorem NextHas.fault {P : State → Prop} {r : Fault} : NextHas P (.fault r) := by
  intro t ht
  cases ht

theorem NextHas.refused {P : State → Prop} {r : Refusal} : NextHas P (.refused r) := by
  intro t ht
  cases ht

theorem NextHas.ite {P : State → Prop} {c : Prop} [Decidable c] {a b : Result} (ha : NextHas P a) (hb : NextHas P b) :
    NextHas P (if c then a else b) := by
  split
  · exact ha
  · exact hb

/-- R11: a next state has recorded one response more than `s`. -/
def AnswersOnce (s : State) (o : Result) : Prop := NextHas (fun t => ∃ r, t.responses = r :: s.responses) o

theorem AnswersOnce.ite {s : State} {c : Prop} [Decidable c] {a b : Result} (ha : AnswersOnce s a)
    (hb : AnswersOnce s b) : AnswersOnce s (if c then a else b) :=
  NextHas.ite ha hb

/-- R11: a next state has recorded the responses of `s` and no other. -/
def AnswersNothing (s : State) (o : Result) : Prop := NextHas (fun t => t.responses = s.responses) o

/-- A command that completes answers once, whatever else it has written. -/
theorem AnswersOnce.complete {s u : State} {rsp : Word} (h : u.responses = s.responses) :
    AnswersOnce s (complete u rsp) :=
  .next ⟨⟨.success, rsp⟩, by rw [State.respond_responses, h]⟩

/-- A command that raises answers once. -/
theorem AnswersOnce.raise {s u : State} {st : Status} (h : u.responses = s.responses) :
    AnswersOnce s (raise u st) :=
  .next ⟨⟨st, 0⟩, by rw [State.respond_responses, h]⟩

/-! ## What the shared operations do to the responses -/

theorem speed_responses (total lastTotal : Word) (cpr : Half) (dt : Word) (s : State) :
    (speed total lastTotal cpr dt s).2.responses = s.responses := by
  obtain ⟨d, hd⟩ := speed_state total lastTotal cpr dt s
  rw [hd]

/-- R224: sampling the registered handles answers nothing. -/
theorem foldl_sampleHandle_responses (bs : List (BitVec 3)) (s : State) :
    (bs.foldl sampleHandle s).responses = s.responses := by
  induction bs generalizing s with
  | nil => rfl
  | cons b bs ih =>
    rw [List.foldl_cons, ih]
    exact State.setButton_responses s b _

theorem delay_active_of_holdOver {s : State} (h : holdOver s = true) : s.tick.delay.active = true := by
  rw [holdOver, Bool.and_eq_true] at h
  exact h.1

/-- R133: the end of a hold is the one answer `releaseHold` can add. -/
theorem releaseHold_responses (s : State) :
    (releaseHold s).responses = s.responses
      ∨ (s.tick.delay.active = true ∧ (releaseHold s).tick.delay.active = false
          ∧ (releaseHold s).responses = { st := .success, rsp := 0 } :: s.responses) := by
  rcases releaseHold_cases s with ⟨-, h⟩ | ⟨hover, h⟩
  · exact .inl (by rw [h])
  · exact .inr ⟨delay_active_of_holdOver hover, by rw [h], by rw [h]⟩

/-! ## The commands with more than one way to end -/

theorem execTckInit_answersOnce (fCpu : Word) (s : State) : AnswersOnce s (execTckInit fCpu s) :=
  .ite (.raise rfl) (.ite (.raise rfl) (.complete rfl))

/-- R150, R151: refused operands, a stream that would not stop, or a ring set up. -/
theorem execSmpInit_answersOnce (base len : Word) (s : State) : AnswersOnce s (execSmpInit base len s) :=
  .ite (.raise rfl) (.ite (.ite (.complete rfl) (.raise rfl)) (.complete rfl))

/-- R157: a cell that can be read answers with its value; one outside the address space is no answer but a fault. -/
theorem execSmpRdcell_answersOnce (i : BitVec 16) (s : State) : AnswersOnce s (execSmpRdcell i s) := by
  refine .ite (.raise rfl) (.ite (.raise rfl) ?_)
  split
  · exact .fault
  · exact .complete rfl

theorem execSmpGetf_answersOnce (f : BitVec 2) (s : State) : AnswersOnce s (execSmpGetf f s) := by
  unfold execSmpGetf
  split
  · exact .raise rfl
  · exact .complete rfl

theorem execSmpClrf_answersOnce (f : BitVec 2) (s : State) : AnswersOnce s (execSmpClrf f s) := by
  unfold execSmpClrf
  split
  · exact .raise rfl
  · exact .complete rfl

/-- R159: nothing to disable, a disable that succeeds, or one that does not. -/
theorem execSmpDmadis_answersOnce (s : State) : AnswersOnce s (execSmpDmadis s) :=
  .ite (.complete rfl) (.ite (.complete rfl) (.raise rfl))

/-- R201: not initialised, the first reading, no time gone by, or a new speed. -/
theorem execEncRpm_answersOnce (nowMs : Word) (s : State) : AnswersOnce s (execEncRpm nowMs s) :=
  .ite (.raise rfl) (.ite (.complete rfl) (.ite (.complete rfl) (.complete (speed_responses ..))))

/-- R222: the four checks, or a registration. -/
theorem execBtnAdd_answersOnce (b : BitVec 3) (s : State) : AnswersOnce s (execBtnAdd b s) :=
  .ite (.raise rfl) (.ite (.raise rfl) (.ite (.raise rfl) (.ite (.raise rfl) (.complete rfl))))

/-- R223: no manager, a scan that is due, or one that is not. -/
theorem execBtnScan_answersOnce (s : State) : AnswersOnce s (execBtnScan s) := by
  have hscan := (foldl_sampleHandle_responses (timerExpired 1 s).2.mgr.registered (timerExpired 1 s).2).trans
    (timerExpired_responses 1 s)
  exact .ite (.raise rfl) (.ite (.complete hscan) (.complete (timerExpired_responses 1 s)))

/-! ## The events -/

/-- R155: a conversion stored in memory, a conversion kept in the data register, or no conversion. -/
theorem execEvSample_answersNothing (v12 : BitVec 12) (s : State) : AnswersNothing s (execEvSample v12 s) := by
  refine .ite (.ite ?_ (.next rfl)) .refused
  split
  · exact .fault
  · exact .next rfl

/-- R137, R133: a tick answers nothing of its own; it may end a hold, whose `TCK.DELAY` then answers. -/
theorem execEvTick_responses {s t : State} (h : execEvTick s = .next t) :
    t.responses = s.responses
      ∨ (s.tick.delay.active = true ∧ t.tick.delay.active = false
          ∧ t.responses = { st := .success, rsp := 0 } :: s.responses) := by
  unfold execEvTick at h
  split at h
  · cases h
    exact releaseHold_responses { s with tick := { s.tick with ms := s.tick.ms + 1 } }
  · cases h

/-! ## The dispatch -/

/-- R11, R249: a host command that is one atomic step answers once. -/
theorem exec_command_answersOnce {i : Instr} (s : State) (hhost : issuedByHost i = true) (hprt : i ≠ .prtTick)
    (henc : i ≠ .encUpdate) (hdelay : ∀ n, i ≠ .tckDelay n) : AnswersOnce s (exec i s) := by
  cases i with
  | tckInit fCpu => exact execTckInit_answersOnce fCpu s
  | tckNow => exact .complete rfl
  | tckElapsed since => exact .complete rfl
  | tckDelay n => exact absurd rfl (hdelay n)
  | tmrInit t ar interval => exact .complete rfl
  | tmrStart t => exact .complete rfl
  | tmrExpired t => exact .complete (timerExpired_responses t s)
  | smpInit base len => exact execSmpInit_answersOnce base len s
  | smpStart => exact .ite (.raise rfl) (.complete rfl)
  | smpReady => exact .complete rfl
  | smpClear => exact .complete rfl
  | smpRdcell j => exact execSmpRdcell_answersOnce j s
  | smpGetf f => exact execSmpGetf_answersOnce f s
  | smpClrf f => exact execSmpClrf_answersOnce f s
  | smpDmaen => exact .ite (.raise rfl) (.ite (.complete rfl) (.complete rfl))
  | smpDmadis => exact execSmpDmadis_answersOnce s
  | prtTick => exact absurd rfl hprt
  | motSet v1 => exact .complete rfl
  | motGet => exact .complete rfl
  | encInit polA polB uie cpr maxCount => exact .ite (.raise rfl) (.complete rfl)
  | encStart => exact .ite (.raise rfl) (.complete rfl)
  | encStop => exact .ite (.raise rfl) (.complete rfl)
  | encReset => exact .ite (.raise rfl) (.complete rfl)
  | encCount => exact .ite (.raise rfl) (.complete rfl)
  | encDir => exact .ite (.raise rfl) (.complete rfl)
  | encUpdate => exact absurd rfl henc
  | encRpm nowMs => exact execEncRpm_answersOnce nowMs s
  | btnInit b pin port al => exact .complete rfl
  | btnMinit => exact .complete rfl
  | btnAdd b => exact execBtnAdd_answersOnce b s
  | btnScan => exact execBtnScan_answersOnce s
  | btnTake b => exact .ite (.raise rfl) (.complete rfl)
  | btnPressed b => exact .ite (.raise rfl) (.complete rfl)
  | evTick | evSample | evDmairq | evDmate | evQa | evQb | evEncirq | evPin | evReset => cases hhost

/-- R11: an event other than a tick answers nothing. -/
theorem exec_event_answersNothing {i : Instr} (s : State) (hev : issuedByHost i = false) (htick : i ≠ .evTick) :
    AnswersNothing s (exec i s) := by
  cases i with
  | evTick => exact absurd rfl htick
  | evSample v12 => exact execEvSample_answersNothing v12 s
  | evDmairq => exact .ite (.next rfl) .refused
  | evDmate => exact .ite (.next rfl) .refused
  | evQa v1 => exact .ite (.next rfl) (.ite (.next rfl) (.next rfl))
  | evQb v1 => exact .ite (.next rfl) (.ite (.next rfl) (.next rfl))
  | evEncirq => exact .ite (.next rfl) .refused
  | evPin v1 pin port => exact .next rfl
  | evReset => exact .next rfl
  | _ => cases hev

/-- Settles O14: the dispatch gives the events' and the commands' parts, and the tick's is that of `execEvTick`. -/
theorem commandsAnswerOnceEventsNever : Obligations.CommandsAnswerOnceEventsNever := by
  intro i s t h
  refine ⟨fun hev htick => ?_, fun htick => ?_, fun hhost hprt henc hdelay => ?_⟩
  · exact exec_event_answersNothing s hev htick t h
  · subst htick
    exact execEvTick_responses h
  · exact exec_command_answersOnce s hhost hprt henc hdelay t h

end Sys2Proof.Machine

/-! PROOFS. What no step writes (R43, R270) and what one kind of step alone writes (R24, R35, R36): an instruction other
than `MOT.SET`, `EV.TICK`, `EV.DMAIRQ` and `EV.RESET`, and every sub-step, is quiet. -/

namespace Sys2Proof.Machine

/-! ## Quiet changes -/

/-- The configuration and the tick count are as they were, and neither `BATCH_READY` nor the motor line was raised. -/
structure Quiet (s t : State) : Prop where
  cfg : t.cfg = s.cfg
  ms : t.tick.ms = s.tick.ms
  batchReady : t.smp.batchReady = true → s.smp.batchReady = true
  motorEn : t.motorEn = true → s.motorEn = true

/-- A change to none of the four. -/
theorem Quiet.same {s t : State} (hcfg : t.cfg = s.cfg := by rfl) (hms : t.tick.ms = s.tick.ms := by rfl)
    (hbatch : t.smp.batchReady = s.smp.batchReady := by rfl) (hmotor : t.motorEn = s.motorEn := by rfl) :
    Quiet s t :=
  ⟨hcfg, hms, fun h => hbatch ▸ h, fun h => hmotor ▸ h⟩

theorem Quiet.trans {s t u : State} (hst : Quiet s t) (htu : Quiet t u) : Quiet s u :=
  ⟨htu.cfg.trans hst.cfg, htu.ms.trans hst.ms, fun h => hst.batchReady (htu.batchReady h),
    fun h => hst.motorEn (htu.motorEn h)⟩

/-- An outcome that goes on, if it does, to a state reached by a quiet change. -/
def GoesQuietly (s : State) (o : Result) : Prop := NextHas (Quiet s) o

theorem GoesQuietly.ite {s : State} {c : Prop} [Decidable c] {a b : Result} (ha : GoesQuietly s a)
    (hb : GoesQuietly s b) : GoesQuietly s (if c then a else b) :=
  NextHas.ite ha hb

theorem GoesQuietly.complete {s u : State} {rsp : Word} (h : Quiet s u) : GoesQuietly s (complete u rsp) :=
  .next (h.trans .same)

theorem GoesQuietly.raise {s u : State} {st : Status} (h : Quiet s u) : GoesQuietly s (raise u st) :=
  .next (h.trans .same)

/-! ## The shared operations are quiet -/

theorem timerExpired_quiet (t : BitVec 2) (s : State) : Quiet s (timerExpired t s).2 :=
  .same (timerExpired_cfg t s) (by rw [timerExpired_tick]) (by rw [timerExpired_smp]) (timerExpired_motorEn t s)

theorem fold_quiet (r m : Nat) (s : State) : Quiet s (fold r m s).2 := by
  obtain ⟨d, hd⟩ := fold_state r m s
  rw [hd]
  exact .same

theorem speed_quiet (total lastTotal : Word) (cpr : Half) (dt : Word) (s : State) :
    Quiet s (speed total lastTotal cpr dt s).2 := by
  obtain ⟨d, hd⟩ := speed_state total lastTotal cpr dt s
  rw [hd]
  exact .same

/-- R133: the end of a hold leaves the tick count alone. -/
theorem releaseHold_quiet (s : State) : Quiet s (releaseHold s) := by
  rcases releaseHold_cases s with ⟨-, h⟩ | ⟨-, h⟩ <;> rw [h] <;> exact .same

/-- R223: a scan writes the handles and nothing else. -/
theorem foldl_sampleHandle_frame (bs : List (BitVec 3)) (s : State) :
    ∃ btn, bs.foldl sampleHandle s = { s with btn := btn } := by
  induction bs generalizing s with
  | nil => exact ⟨s.btn, rfl⟩
  | cons b bs ih =>
    obtain ⟨btn, h⟩ := ih (sampleHandle s b)
    exact ⟨btn, h⟩

theorem foldl_sampleHandle_quiet (bs : List (BitVec 3)) (s : State) : Quiet s (bs.foldl sampleHandle s) := by
  obtain ⟨btn, h⟩ := foldl_sampleHandle_frame bs s
  rw [h]
  exact .same

/-- R180, R197: a sub-step clears `BATCH_READY` (P5) and the motor line (P6), and raises neither. -/
theorem subStep_quiet {p : Progress} {s t : State} (h : subStep p s = .next t) : Quiet s t := by
  rcases subStep_cases h with ⟨d, -, rfl⟩ | ⟨d, x, -, rfl⟩ | ⟨-, -, rfl⟩ | ⟨-, -, -, rfl⟩ | ⟨-, -, -, rfl⟩
    | ⟨i, sum, v, -, -, rfl⟩ | ⟨sum, d, -, rfl⟩ | ⟨avg, -, rfl⟩
  · exact .same
  · exact .same
  · exact .same
  · exact .same
  · exact .same
  · exact .same
  · exact ⟨rfl, rfl, nofun, id⟩
  · refine ⟨rfl, rfl, id, fun hm => ?_⟩
    dsimp only at hm
    split at hm
    · cases hm
    · exact hm

theorem continueHost_quiet {s u : State} (h : Quiet s u) : GoesQuietly s (continueHost u) := fun t ht =>
  runHost_keeps (P := Quiet s) (fun _ _ _ _ hs hsub => hs.trans (.trans .same (subStep_quiet hsub))) _ u t h ht

theorem resumeHost_quiet {p : Progress} {s t : State} (hp : s.inProgress = some p) (h : resumeHost p s = .next t) :
    Quiet s t :=
  resumeHost_keeps (P := Quiet s) (fun _ _ _ _ hs hsub => hs.trans (.trans .same (subStep_quiet hsub))) hp .same h

/-! ## The instructions with more than one way to end -/

/-- R150: a ring set up, or not; what it sets up has `BATCH_READY` false. -/
theorem execSmpInit_quiet (base len : Word) (s : State) : GoesQuietly s (execSmpInit base len s) :=
  .ite (.raise .same) (.ite (.ite (.complete ⟨rfl, rfl, nofun, id⟩) (.raise .same)) (.complete ⟨rfl, rfl, nofun, id⟩))

theorem execSmpRdcell_quiet (i : BitVec 16) (s : State) : GoesQuietly s (execSmpRdcell i s) := by
  refine .ite (.raise .same) (.ite (.raise .same) ?_)
  split
  · exact .fault
  · exact .complete .same

theorem execSmpGetf_quiet (f : BitVec 2) (s : State) : GoesQuietly s (execSmpGetf f s) := by
  unfold execSmpGetf
  split
  · exact .raise .same
  · exact .complete .same

/-- R163: the clear of a flag writes the three flags at most. -/
theorem clearFlag_frame {p q : Sampler} {f : BitVec 2} (h : p.clearFlag f = some q) :
    q = { p with tcif := q.tcif, htif := q.htif, teif := q.teif } := by
  unfold Sampler.clearFlag at h
  split at h
  · cases h; rfl
  · split at h
    · cases h; rfl
    · split at h
      · cases h; rfl
      · cases h

theorem execSmpClrf_quiet (f : BitVec 2) (s : State) : GoesQuietly s (execSmpClrf f s) := by
  unfold execSmpClrf
  split
  · exact .raise .same
  · rename_i q hq
    have hbatch : q.batchReady = s.smp.batchReady := by rw [clearFlag_frame hq]
    exact .complete (.same (hbatch := hbatch))

theorem execEvSample_quiet (v12 : BitVec 12) (s : State) : GoesQuietly s (execEvSample v12 s) := by
  refine .ite (.ite ?_ (.next .same)) .refused
  split
  · exact .fault
  · exact .next .same

theorem execPrtTick_quiet (s : State) : GoesQuietly s (execPrtTick s) :=
  .ite (continueHost_quiet (.trans (timerExpired_quiet 0 s) .same)) (.complete (timerExpired_quiet 0 s))

theorem execEncUpdate_quiet (s : State) : GoesQuietly s (execEncUpdate s) :=
  .ite (.raise .same) (continueHost_quiet (.trans (fold_quiet ..) .same))

theorem execEncRpm_quiet (nowMs : Word) (s : State) : GoesQuietly s (execEncRpm nowMs s) :=
  .ite (.raise .same) (.ite (.complete .same)
    (.ite (.complete .same) (.complete (.trans (speed_quiet ..) .same))))

theorem execBtnScan_quiet (s : State) : GoesQuietly s (execBtnScan s) :=
  .ite (.raise .same) (.ite (.complete (.trans (timerExpired_quiet 1 s) (foldl_sampleHandle_quiet ..)))
    (.complete (timerExpired_quiet 1 s)))

/-! ## The dispatch -/

/-- Every instruction is quiet but the four that write the tick count, `BATCH_READY` or the motor line. -/
theorem exec_quiet {i : Instr} (s : State) (hmot : ∀ v, i ≠ .motSet v) (htick : i ≠ .evTick) (hirq : i ≠ .evDmairq)
    (hreset : i ≠ .evReset) : GoesQuietly s (exec i s) := by
  cases i with
  | motSet v1 => exact absurd rfl (hmot v1)
  | evTick => exact absurd rfl htick
  | evDmairq => exact absurd rfl hirq
  | evReset => exact absurd rfl hreset
  | tckInit fCpu => exact .ite (.raise .same) (.ite (.raise .same) (.complete .same))
  | tckDelay n => exact .next (.trans .same (releaseHold_quiet _))
  | tmrExpired t => exact .complete (timerExpired_quiet t s)
  | smpInit base len => exact execSmpInit_quiet base len s
  | smpClear => exact .complete ⟨rfl, rfl, nofun, id⟩
  | smpRdcell j => exact execSmpRdcell_quiet j s
  | smpGetf f => exact execSmpGetf_quiet f s
  | smpClrf f => exact execSmpClrf_quiet f s
  | smpDmaen => exact .ite (.raise .same) (.ite (.complete .same) (.complete .same))
  | smpDmadis => exact .ite (.complete .same) (.ite (.complete .same) (.raise .same))
  | prtTick => exact execPrtTick_quiet s
  | encUpdate => exact execEncUpdate_quiet s
  | encRpm nowMs => exact execEncRpm_quiet nowMs s
  | btnAdd b => exact .ite (.raise .same) (.ite (.raise .same) (.ite (.raise .same) (.ite (.raise .same)
      (.complete .same))))
  | btnScan => exact execBtnScan_quiet s
  | evSample v12 => exact execEvSample_quiet v12 s
  | evDmate => exact .ite (.next .same) .refused
  | evQa v1 => exact .ite (.next .same) (.ite (.next .same) (.next .same))
  | evQb v1 => exact .ite (.next .same) (.ite (.next .same) (.next .same))
  | evEncirq => exact .ite (.next .same) .refused
  | evPin v1 pin port => exact .next .same
  | tckNow | tckElapsed | tmrInit | tmrStart | smpReady | motGet | btnInit | btnMinit => exact .complete .same
  | smpStart | encInit | encStart | encStop | encReset | encCount | encDir | btnTake | btnPressed =>
    exact .ite (.raise .same) (.complete .same)

/-- What an instruction may do to the four: nothing to the configuration, and to each of the others what its one or two
writers do (R24, R35, R36). -/
structure WritesAsOwner (i : Instr) (s t : State) : Prop where
  cfg : t.cfg = s.cfg
  ms : t.tick.ms = s.tick.ms ∨ (i = .evTick ∧ t.tick.ms = s.tick.ms + 1 ∧ s.tick.systEn = true)
    ∨ (i = .evReset ∧ t.tick.ms = 0)
  batchReady : t.smp.batchReady = true →
    s.smp.batchReady = true ∨ (i = .evDmairq ∧ s.smp.tcif = true ∧ s.smp.tcie = true)
  motorEn : t.motorEn = true → s.motorEn = true ∨ i = .motSet true

theorem Quiet.writesAsOwner {i : Instr} {s t : State} (h : Quiet s t) : WritesAsOwner i s t :=
  ⟨h.cfg, .inl h.ms, fun hb => .inl (h.batchReady hb), fun hm => .inl (h.motorEn hm)⟩

/-- R137: the tick counts, whether or not it ends a hold. -/
theorem execEvTick_writesAsOwner {s t : State} (h : execEvTick s = .next t) : WritesAsOwner .evTick s t := by
  unfold execEvTick at h
  split at h
  · rename_i hen
    cases h
    have hq := releaseHold_quiet { s with tick := { s.tick with ms := s.tick.ms + 1 } }
    exact ⟨hq.cfg, .inr (.inl ⟨rfl, hq.ms, hen⟩), fun hb => .inl (hq.batchReady hb), fun hm => .inl (hq.motorEn hm)⟩
  · cases h

/-- R160: the handler raises `BATCH_READY` for an enabled transfer-complete flag. -/
theorem execEvDmairq_writesAsOwner {s t : State} (h : execEvDmairq s = .next t) : WritesAsOwner .evDmairq s t := by
  unfold execEvDmairq at h
  split at h
  · cases h
    refine ⟨rfl, .inl rfl, fun hb => ?_, .inl⟩
    have hb : s.smp.batchReady = true ∨ s.smp.tcif = true ∧ s.smp.tcie = true := by simpa using hb
    exact hb.imp_right fun hflag => ⟨rfl, hflag⟩
  · cases h

theorem exec_writesAsOwner {i : Instr} {s t : State} (h : exec i s = .next t) : WritesAsOwner i s t := by
  cases i with
  | motSet v1 =>
    cases h
    exact ⟨rfl, .inl rfl, .inl, fun hm => .inr (congrArg _ hm)⟩
  | evTick => exact execEvTick_writesAsOwner h
  | evDmairq => exact execEvDmairq_writesAsOwner h
  | evReset =>
    cases h
    exact ⟨rfl, .inr (.inr ⟨rfl, rfl⟩), nofun, nofun⟩
  | _ => refine (exec_quiet s ?_ ?_ ?_ ?_ t h).writesAsOwner <;> nofun

/-! ## The step -/

/-- A step is quiet, or it ran the instruction at the head of the trace, which writes as it may. -/
theorem step_quiet_or_exec {s t : State} (h : step s = .next t) :
    Quiet s t ∨ ∃ i rest, decode s.trace = .step i rest ∧ WritesAsOwner i s t := by
  rcases step_cases h with ⟨-, h⟩ | ⟨p, -, -, -, h⟩ | ⟨p, hp, -, h⟩
  · rcases runTrace_cases h with ⟨i, rest, hd, -, h⟩ | ⟨rest, -, -, rfl⟩
    · have hw := exec_writesAsOwner h
      exact .inr ⟨i, rest, hd, hw.cfg, hw.ms, hw.batchReady, hw.motorEn⟩
    · exact .inl .same
  · rcases runTrace_cases h with ⟨i, rest, hd, -, h⟩ | ⟨rest, -, -, rfl⟩
    · have hw := exec_writesAsOwner h
      exact .inr ⟨i, rest, hd, hw.cfg, hw.ms, hw.batchReady, hw.motorEn⟩
    · exact .inl .same
  · exact .inl (resumeHost_quiet hp h)

/-- Settles O12: neither a quiet change nor an instruction writes the configuration. -/
theorem stepKeepsConfiguration : Obligations.StepKeepsConfiguration := by
  intro s t h
  rcases step_quiet_or_exec h with hq | ⟨i, rest, -, hw⟩
  · exact hq.cfg
  · exact hw.cfg

/-- Settles O15: a quiet change does not raise the line, and the one instruction that does is `MOT.SET` with 1. -/
theorem motorLineRaisedOnlyByMotSet : Obligations.MotorLineRaisedOnlyByMotSet := by
  intro s t h hlow hhigh
  rcases step_quiet_or_exec h with hq | ⟨i, rest, hd, hw⟩
  · exact absurd (hq.motorEn hhigh) (by simp [hlow])
  · rcases hw.motorEn hhigh with hs | rfl
    · exact absurd hs (by simp [hlow])
    · exact ⟨rest, hd⟩

/-- Settles O16: a quiet change does not set the flag, and the one instruction that does is the handler. -/
theorem batchReadySetOnlyByHandler : Obligations.BatchReadySetOnlyByHandler := by
  intro s t h hclear hset
  rcases step_quiet_or_exec h with hq | ⟨i, rest, hd, hw⟩
  · exact absurd (hq.batchReady hset) (by simp [hclear])
  · rcases hw.batchReady hset with hs | ⟨rfl, hflag⟩
    · exact absurd hs (by simp [hclear])
    · exact ⟨⟨rest, hd⟩, hflag⟩

/-- Settles O17: a quiet change keeps the count, and the instructions that write it are the tick and the reset. -/
theorem tickCountWrittenOnlyByTickAndReset : Obligations.TickCountWrittenOnlyByTickAndReset := by
  intro s t h hne
  rcases step_quiet_or_exec h with hq | ⟨i, rest, hd, hw⟩
  · exact absurd hq.ms hne
  · rcases hw.ms with hs | ⟨rfl, htick⟩ | ⟨rfl, hzero⟩
    · exact absurd hs hne
    · exact .inl ⟨rest, hd, htick⟩
    · exact .inr ⟨rest, hd, hzero⟩

end Sys2Proof.Machine

/-! PROOFS. What the spec says of every reachable state (U23's predicate) is kept: first by a change of one unit, then
by each instruction and each sub-step, then by the step. -/

namespace Sys2Proof.Machine

/-! ## Outcomes that go on to an admissible state -/

/-- The next state is admissible, if there is a next state. -/
def StaysAdmissible (o : Result) : Prop := NextHas State.Admissible o

theorem StaysAdmissible.ite {c : Prop} [Decidable c] {a b : Result} (ha : c → StaysAdmissible a)
    (hb : ¬ c → StaysAdmissible b) : StaysAdmissible (if c then a else b) := by
  split
  · exact ha ‹_›
  · exact hb ‹_›

/-- No invariant reads the responses. -/
theorem State.Admissible.respond {s : State} (h : s.Admissible) (st : Status) (rsp : Word) :
    (s.respond st rsp).Admissible :=
  ⟨h.delay, h.ring, h.sampler, h.encoder, h.manager, h.memory, h.progress⟩

theorem StaysAdmissible.complete {s : State} {rsp : Word} (h : s.Admissible) : StaysAdmissible (complete s rsp) :=
  .next (h.respond .success rsp)

theorem StaysAdmissible.raise {s : State} {st : Status} (h : s.Admissible) : StaysAdmissible (raise s st) :=
  .next (h.respond st 0)

/-- The test most commands begin with: not initialised, the command raises (R241). -/
theorem StaysAdmissible.iteInited {s : State} {c : Bool} {st : Status} {o : Result} (h : s.Admissible)
    (ho : c = true → StaysAdmissible o) :
    StaysAdmissible (if c = false then Sys2Proof.Machine.raise s st else o) :=
  .ite (fun _ => .raise h) (fun hc => ho (by simpa using hc))

/-! ## What an admissible state says, one fact at a time -/

namespace State.Admissible

variable {s : State}

/-- R33. -/
theorem widx_lt (h : s.Admissible) (hin : s.smp.inited = true) : s.smp.widx.toNat < s.smp.n.toNat := by
  obtain ⟨-, -, -, -, -, -, hw⟩ := h.ring hin
  exact hw

/-- R28. -/
theorem n_pos (h : s.Admissible) (hin : s.smp.inited = true) : 0 < s.smp.n.toNat :=
  Nat.lt_of_le_of_lt (Nat.zero_le _) (h.widx_lt hin)

theorem base_even (h : s.Admissible) (hin : s.smp.inited = true) : s.smp.base.toNat % 2 = 0 := by
  obtain ⟨-, -, -, hb, -, -, -⟩ := h.ring hin
  exact hb

/-- R30: one bit says both. -/
theorem adcOn_eq (h : s.Admissible) : s.smp.adcOn = s.smp.adcRun := by
  obtain ⟨-, -, -, -, -, -, -, -, -, -, hon, -, -⟩ := h.sampler
  exact hon

/-- R182: nothing of the sampler runs before `SMP.INIT`. -/
theorem sampler_idle (h : s.Admissible) (hin : s.smp.inited = false) :
    s.smp.adcOn = false ∧ s.smp.dmaEn = false ∧ s.smp.batchReady = false := by
  obtain ⟨-, -, -, -, -, -, -, -, -, -, -, hidle, -⟩ := h.sampler
  exact hidle hin

/-- R31. -/
theorem adcDr_lt (h : s.Admissible) : s.smp.adcDr.toNat < 4096 := by
  obtain ⟨-, -, -, -, -, -, -, -, -, -, -, -, hdr⟩ := h.sampler
  exact hdr

theorem tcie_eq (h : s.Admissible) : s.smp.tcie = s.smp.inited := by
  obtain ⟨-, -, -, -, -, -, -, -, htc, -, -, -, -⟩ := h.sampler
  exact htc

theorem inited_of_dmaEn (h : s.Admissible) (hen : s.smp.dmaEn = true) : s.smp.inited = true := by
  by_contra hin
  obtain ⟨-, hdis, -⟩ := h.sampler_idle (by simpa using hin)
  simp [hen] at hdis

/-- R42: nothing counts before `ENC.INIT`. -/
theorem encoder_idle (h : s.Admissible) (hin : s.enc.inited = false) :
    s.enc.arr = 0 ∧ s.enc.cen = false ∧ s.enc.uif = false ∧ s.enc.uie = false ∧ s.enc.seeded = false := by
  obtain ⟨-, -, -, -, hidle⟩ := h.encoder
  exact hidle hin

/-- R37. -/
theorem cnt_le (h : s.Admissible) : s.enc.cnt.toNat ≤ s.enc.arr.toNat := by
  obtain ⟨hcnt, -, -, -, -⟩ := h.encoder
  exact hcnt

theorem hwCount_le (h : s.Admissible) : s.enc.hwCount.toNat ≤ s.enc.arr.toNat := by
  obtain ⟨-, hhw, -, -, -⟩ := h.encoder
  exact hhw

theorem lastHw_le (h : s.Admissible) : s.enc.lastHw.toNat ≤ s.enc.arr.toNat := by
  obtain ⟨-, -, hlast, -, -⟩ := h.encoder
  exact hlast

/-- R26: a held host has no other command in progress. -/
theorem delay_inactive {p : Progress} (h : s.Admissible) (hp : s.inProgress = some p) :
    s.tick.delay.active = false := by
  by_contra ha
  obtain ⟨hnone, -⟩ := h.delay (by simpa using ha)
  simp [hp] at hnone

end State.Admissible

/-! ## A change of one unit -/

theorem delayOk_of_inactive {s : State} (h : s.tick.delay.active = false) : s.delayOk := by
  intro ha
  simp [h] at ha

theorem progressOk_of_idle {s : State} (h : s.inProgress = none) : s.progressOk = true := by
  simp only [State.progressOk, h]

/-- The sampler `p` with the setup of `q`: all that `SMP.INIT` alone writes (R161). -/
def Sampler.withSetupOf (p q : Sampler) : Sampler :=
  { p with
    inited := q.inited, base := q.base, n := q.n, adcCont := q.adcCont, adcAlignRight := q.adcAlignRight
    adcRes12 := q.adcRes12, adcDma := q.adcDma, adcDds := q.adcDds, dmaCirc := q.dmaCirc, dmaMinc := q.dmaMinc
    htie := q.htie, tcie := q.tcie, teie := q.teie }

/-- The encoder `e` with the setup of `f`: what `ENC.INIT` alone writes (R190) and a bound or a divisor comes from. -/
def Encoder.withSetupOf (e f : Encoder) : Encoder :=
  { e with inited := f.inited, arr := f.arr, maxCount := f.maxCount, cpr := f.cpr }

namespace State.Admissible

variable {s : State}

theorem withTrace (h : s.Admissible) (rest : List Word) : ({ s with trace := rest }).Admissible :=
  ⟨h.delay, h.ring, h.sampler, h.encoder, h.manager, h.memory, h.progress⟩

theorem turnTaken (h : s.Admissible) : s.turnTaken.Admissible :=
  ⟨h.delay, h.ring, h.sampler, h.encoder, h.manager, h.memory, h.progress⟩

theorem withDraws (h : s.Admissible) (d : Nat) : ({ s with draws := d }).Admissible :=
  ⟨h.delay, h.ring, h.sampler, h.encoder, h.manager, h.memory, h.progress⟩

theorem withMotorEn (h : s.Admissible) (v : Bool) : ({ s with motorEn := v }).Admissible :=
  ⟨h.delay, h.ring, h.sampler, h.encoder, h.manager, h.memory, h.progress⟩

theorem setTimer (h : s.Admissible) (t : BitVec 2) (v : Timer) : (s.setTimer t v).Admissible :=
  ⟨h.delay, h.ring, h.sampler, h.encoder, h.manager, h.memory, h.progress⟩

theorem setGpio (h : s.Admissible) (port pin : BitVec 4) (v : Bool) : (s.setGpio port pin v).Admissible :=
  ⟨h.delay, h.ring, h.sampler, h.encoder, h.manager, h.memory, h.progress⟩

theorem timerExpired (h : s.Admissible) (t : BitVec 2) : (timerExpired t s).2.Admissible := by
  rcases timerExpired_state t s with e | ⟨v, e⟩ <;> rw [e]
  · exact h
  · exact h.setTimer t v

/-- A command may come into progress, go on or end where no hold is on. -/
theorem withProgress (h : s.Admissible) (hdelay : s.tick.delay.active = false) {q : Option Progress}
    (hq : ({ s with inProgress := q }).progressOk = true) : ({ s with inProgress := q }).Admissible :=
  ⟨delayOk_of_inactive hdelay, h.ring, h.sampler, h.encoder, h.manager, h.memory, hq⟩

/-- The stream runs on its setup: what has to be said of the fields that are not setup. -/
theorem withStream (h : s.Admissible) {p : Sampler} (hsetup : p = p.withSetupOf s.smp)
    (hwidx : s.smp.inited = true → p.widx.toNat < s.smp.n.toNat) (hon : p.adcOn = p.adcRun)
    (hidle : s.smp.inited = false → p.adcOn = false ∧ p.dmaEn = false ∧ p.batchReady = false)
    (hdr : p.adcDr.toNat < 4096) : ({ s with smp := p }).Admissible := by
  rw [hsetup]
  obtain ⟨hcont, halign, hres, hdma, hdds, hcirc, hminc, hht, htc, hte, -, -, -⟩ := h.sampler
  refine ⟨h.delay, fun hin => ?_,
    ⟨hcont, halign, hres, hdma, hdds, hcirc, hminc, hht, htc, hte, hon, hidle, hdr⟩, h.encoder, h.manager,
    h.memory, h.progress⟩
  obtain ⟨hmin, heven, hmax, hbase, hend, hregion, -⟩ := h.ring hin
  exact ⟨hmin, heven, hmax, hbase, hend, hregion, hwidx hin⟩

/-- The counter runs on its setup: what has to be said of the fields that are not setup. -/
theorem withCounter (h : s.Admissible) {e : Encoder} (hsetup : e = e.withSetupOf s.enc)
    (hcnt : e.cnt.toNat ≤ s.enc.arr.toNat) (hhw : e.hwCount.toNat ≤ s.enc.arr.toNat)
    (hlast : e.lastHw.toNat ≤ s.enc.arr.toNat)
    (hidle : s.enc.inited = false → e.cen = false ∧ e.uif = false ∧ e.uie = false ∧ e.seeded = false) :
    ({ s with enc := e }).Admissible := by
  rw [hsetup]
  obtain ⟨-, -, -, hcfg, -⟩ := h.encoder
  refine ⟨h.delay, h.ring, h.sampler, ⟨hcnt, hhw, hlast, hcfg, fun hin => ?_⟩, h.manager, h.memory, h.progress⟩
  obtain ⟨harr, -⟩ := h.encoder_idle hin
  exact ⟨harr, hidle hin⟩

/-- The same after `ENC.INIT`, where the counter may do anything within its bound. -/
theorem withInitedCounter (h : s.Admissible) (hin : s.enc.inited = true) {e : Encoder}
    (hsetup : e = e.withSetupOf s.enc) (hcnt : e.cnt.toNat ≤ s.enc.arr.toNat)
    (hhw : e.hwCount.toNat ≤ s.enc.arr.toNat) (hlast : e.lastHw.toNat ≤ s.enc.arr.toNat) :
    ({ s with enc := e }).Admissible :=
  h.withCounter hsetup hcnt hhw hlast (fun hno => absurd (hin.symm.trans hno) nofun)

end State.Admissible

/-! ## The tick unit -/

/-- R26, R133: whatever the tick unit becomes, a hold that goes on has time to run. -/
theorem State.Admissible.releaseHold {s : State} (h : s.Admissible) {u : TickUnit}
    (hidle : u.delay.active = true → s.inProgress = none) : (releaseHold { s with tick := u }).Admissible := by
  rcases releaseHold_cases { s with tick := u } with ⟨hover, e⟩ | ⟨-, e⟩ <;> rw [e]
  · exact ⟨fun ha => ⟨hidle ha, hover⟩, h.ring, h.sampler, h.encoder, h.manager, h.memory, h.progress⟩
  · exact ⟨nofun, h.ring, h.sampler, h.encoder, h.manager, h.memory, h.progress⟩

theorem execTckInit_staysAdmissible (fCpu : Word) {s : State} (h : s.Admissible) :
    StaysAdmissible (execTckInit fCpu s) := by
  refine .ite (fun _ => .raise h) fun _ => .ite (fun _ => .raise h) fun _ => .complete ?_
  exact ⟨h.delay, h.ring, h.sampler, h.encoder, h.manager, h.memory, h.progress⟩

theorem execEvTick_staysAdmissible {s : State} (h : s.Admissible) : StaysAdmissible (execEvTick s) :=
  .ite (fun _ => .next (h.releaseHold fun ha => (h.delay ha).1)) fun _ => .refused

/-! ## The sampler -/

/-- R150: the accepted operands make a ring. -/
theorem State.Admissible.configured {s : State} (h : s.Admissible) (hnone : s.inProgress = none) {base len : Word}
    (hok : smpInitOperandsOk base len s = true) : ({ s with smp := s.smp.configured base len }).Admissible := by
  simp only [smpInitOperandsOk, Bool.and_eq_true, decide_eq_true_eq] at hok
  obtain ⟨⟨⟨⟨⟨hne, heven⟩, hle⟩, hbase⟩, hend⟩, hregion⟩ := hok
  have hn : (len.setWidth 16).toNat = len.toNat := by
    rw [BitVec.toNat_setWidth, Nat.mod_eq_of_lt (by omega)]
  refine ⟨h.delay, fun _ => ?_, ⟨rfl, rfl, rfl, rfl, rfl, rfl, rfl, rfl, rfl, rfl, rfl, nofun, h.adcDr_lt⟩, h.encoder,
    h.manager, h.memory, progressOk_of_idle hnone⟩
  show 2 ≤ (len.setWidth 16).toNat ∧ (len.setWidth 16).toNat % 2 = 0 ∧ (len.setWidth 16).toNat ≤ 65534
    ∧ base.toNat % 2 = 0 ∧ base.toNat + 2 * (len.setWidth 16).toNat ≤ 0x100000000
    ∧ inRegion s.cfg.memRegion base.toNat (base.toNat + 2 * (len.setWidth 16).toNat) = true
    ∧ 0 < (len.setWidth 16).toNat
  rw [hn]
  exact ⟨by omega, heven, hle, hbase, hend, hregion, by omega⟩

theorem execSmpInit_staysAdmissible (base len : Word) {s : State} (h : s.Admissible) (hnone : s.inProgress = none) :
    StaysAdmissible (execSmpInit base len s) := by
  refine .ite (fun _ => .raise h) fun hok => ?_
  rw [Bool.not_eq_false] at hok
  refine .ite (fun _ => .ite (fun _ => .complete ?_) fun _ => .raise (h.withDraws _)) fun _ =>
    .complete (h.configured hnone hok)
  exact (h.withDraws (s.draws + 1)).configured hnone hok

theorem execSmpStart_staysAdmissible {s : State} (h : s.Admissible) : StaysAdmissible (execSmpStart s) := by
  refine .iteInited h fun hin => .complete (h.withStream rfl (fun _ => ?_) rfl (by simp [hin]) h.adcDr_lt)
  dsimp only
  split
  · exact h.widx_lt hin
  · exact h.n_pos hin

theorem execSmpRdcell_staysAdmissible (i : BitVec 16) {s : State} (h : s.Admissible) :
    StaysAdmissible (execSmpRdcell i s) := by
  refine .ite (fun _ => .raise h) fun _ => .ite (fun _ => .raise h) fun _ => ?_
  split
  · exact .fault
  · exact .complete h

theorem execSmpGetf_staysAdmissible (f : BitVec 2) {s : State} (h : s.Admissible) :
    StaysAdmissible (execSmpGetf f s) := by
  unfold execSmpGetf
  split
  · exact .raise h
  · exact .complete h

theorem execSmpClrf_staysAdmissible (f : BitVec 2) {s : State} (h : s.Admissible) :
    StaysAdmissible (execSmpClrf f s) := by
  unfold execSmpClrf
  split
  · exact .raise h
  · rename_i q hq
    rw [clearFlag_frame hq]
    exact .complete (h.withStream rfl h.widx_lt h.adcOn_eq h.sampler_idle h.adcDr_lt)

/-- R154, R180: a clear of `BATCH_READY`. -/
theorem State.Admissible.clearBatch {s : State} (h : s.Admissible) :
    ({ s with smp := { s.smp with batchReady := false } }).Admissible := by
  refine h.withStream rfl h.widx_lt h.adcOn_eq (fun hin => ?_) h.adcDr_lt
  obtain ⟨hon, hen, -⟩ := h.sampler_idle hin
  exact ⟨hon, hen, rfl⟩

theorem execSmpDmaen_staysAdmissible {s : State} (h : s.Admissible) : StaysAdmissible (execSmpDmaen s) :=
  .iteInited h fun hin => .ite (fun _ => .complete h) fun _ =>
    .complete (h.withStream rfl h.n_pos h.adcOn_eq (by simp [hin]) h.adcDr_lt)

/-- R159, R162: a stop of the stream, whatever the flags become. -/
theorem State.Admissible.stopStream {s : State} (h : s.Admissible) (tc ht te : Bool) :
    ({ s with smp := { s.smp with dmaEn := false, tcif := tc, htif := ht, teif := te } }).Admissible := by
  refine h.withStream rfl h.widx_lt h.adcOn_eq (fun hin => ?_) h.adcDr_lt
  obtain ⟨hon, -, hbatch⟩ := h.sampler_idle hin
  exact ⟨hon, rfl, hbatch⟩

theorem execSmpDmadis_staysAdmissible {s : State} (h : s.Admissible) : StaysAdmissible (execSmpDmadis s) :=
  .ite (fun _ => .complete h) fun _ =>
    .ite (fun _ => .complete ((h.withDraws (s.draws + 3)).stopStream _ _ _)) fun _ => .raise (h.withDraws _)

theorem execEvDmate_staysAdmissible {s : State} (h : s.Admissible) : StaysAdmissible (execEvDmate s) :=
  .ite (fun _ => .next (h.stopStream _ _ _)) fun _ => .refused

/-- R160: before `SMP.INIT` the transfer-complete interrupt is not enabled, so the handler sets no batch. -/
theorem execEvDmairq_staysAdmissible {s : State} (h : s.Admissible) : StaysAdmissible (execEvDmairq s) := by
  refine .ite (fun _ => .next (h.withStream rfl h.widx_lt h.adcOn_eq (fun hin => ?_) h.adcDr_lt)) fun _ => .refused
  obtain ⟨hon, hen, hbatch⟩ := h.sampler_idle hin
  exact ⟨hon, hen, by simp [hbatch, h.tcie_eq, hin]⟩

/-! ### The conversion -/

theorem sample_toNat_lt (v : BitVec 12) : (v.setWidth 16).toNat < 4096 := by
  rw [BitVec.toNat_setWidth]
  omega

/-- R74: a 12-bit sample at an even address leaves four bits in the high byte. -/
theorem memoryOk_write16 {s : State} {m : List Host.Cell} {a : Nat} {v : Half} (h : s.memoryOk) (heven : a % 2 = 0)
    (hv : v.toNat < 4096) (hw : Memory.write16 s.mem a v = some m) : ({ s with mem := m }).memoryOk := by
  obtain ⟨hwf, hhigh⟩ := h
  obtain ⟨-, -, -, -, hkeep, hcells⟩ := Memory.write16_spec hw
  refine ⟨hkeep hwf, fun c hc hodd => ?_⟩
  rcases hcells c hc with hold | rfl | rfl
  · exact hhigh c hold hodd
  · dsimp only at hodd
    omega
  · rw [BitVec.extractLsb'_toNat, Nat.shiftRight_eq_div_pow]
    omega

/-- R155: the sample's fields after a conversion, with and without a transfer. -/
theorem execEvSample_staysAdmissible (v12 : BitVec 12) {s : State} (h : s.Admissible) :
    StaysAdmissible (execEvSample v12 s) := by
  have hdr := sample_toNat_lt v12
  refine .ite (fun _ => .ite (fun hen => ?_) fun _ => .next ?_) fun _ => .refused
  · have hin := h.inited_of_dmaEn hen
    have heven := h.base_even hin
    split
    · exact .fault
    · rename_i m hm
      have hmem := memoryOk_write16 h.memory (by unfold cellAddr; omega) hdr hm
      have hm : ({ s with mem := m }).Admissible :=
        ⟨h.delay, h.ring, h.sampler, h.encoder, h.manager, hmem, h.progress⟩
      have hwidx := transferred_widx_lt { s.smp with adcDr := v12.setWidth 16 } (h.widx_lt hin)
      exact .next (hm.withStream rfl (fun _ => hwidx) h.adcOn_eq h.sampler_idle hdr)
  · exact h.withStream rfl h.widx_lt h.adcOn_eq h.sampler_idle hdr

/-! ## The encoder -/

/-- R190: the accepted operands make a counter at 0. -/
theorem execEncInit_staysAdmissible (polA polB uie : Bool) (cpr maxCount : BitVec 16) {s : State} (h : s.Admissible)
    (hnone : s.inProgress = none) : StaysAdmissible (execEncInit polA polB uie cpr maxCount s) := by
  refine .ite (fun _ => .raise h) fun hok => .complete ?_
  obtain ⟨hcpr, hmax⟩ := not_or.mp hok
  exact ⟨h.delay, h.ring, h.sampler, ⟨Nat.zero_le _, Nat.zero_le _, Nat.zero_le _, fun _ => ⟨rfl, hmax, hcpr⟩, nofun⟩,
    h.manager, h.memory, progressOk_of_idle hnone⟩

theorem execEncStart_staysAdmissible {s : State} (h : s.Admissible) : StaysAdmissible (execEncStart s) :=
  .iteInited h fun hin => .complete (h.withInitedCounter hin rfl h.cnt_le h.hwCount_le h.lastHw_le)

theorem execEncStop_staysAdmissible {s : State} (h : s.Admissible) : StaysAdmissible (execEncStop s) :=
  .iteInited h fun hin => .complete (h.withInitedCounter hin rfl h.cnt_le h.hwCount_le h.lastHw_le)

theorem execEncReset_staysAdmissible {s : State} (h : s.Admissible) : StaysAdmissible (execEncReset s) :=
  .iteInited h fun hin =>
    .complete (h.withInitedCounter hin rfl (Nat.zero_le _) (Nat.zero_le _) (Nat.zero_le _))

theorem execEncRpm_staysAdmissible (nowMs : Word) {s : State} (h : s.Admissible) :
    StaysAdmissible (execEncRpm nowMs s) := by
  refine .iteInited h fun hin => .ite
    (fun _ => .complete (h.withInitedCounter hin rfl h.cnt_le h.hwCount_le h.lastHw_le)) fun _ =>
    .ite (fun _ => .complete h) fun _ => .complete ?_
  obtain ⟨d, hd⟩ := speed_state s.enc.total s.enc.lastTotal s.enc.cpr (nowMs - s.enc.lastTickMs) s
  rw [hd]
  exact (h.withDraws d).withInitedCounter hin rfl h.cnt_le h.hwCount_le h.lastHw_le

/-- R205: the handler clears its flag. -/
theorem execEvEncirq_staysAdmissible {s : State} (h : s.Admissible) : StaysAdmissible (execEvEncirq s) := by
  refine .ite (fun _ => .next (h.withCounter rfl h.cnt_le h.hwCount_le h.lastHw_le fun hin => ?_)) fun _ => .refused
  obtain ⟨-, hcen, -, huie, hseeded⟩ := h.encoder_idle hin
  exact ⟨hcen, rfl, huie, hseeded⟩

/-- R202, R204: a level that changes without a count. -/
theorem State.Admissible.withLevels {s : State} (h : s.Admissible) (qa qb : Bool) :
    ({ s with enc := { s.enc with qa := qa, qb := qb } }).Admissible :=
  h.withCounter rfl h.cnt_le h.hwCount_le h.lastHw_le fun hin => (h.encoder_idle hin).2

/-- R203: a count, up or down, of an enabled counter, which is an initialised one. -/
theorem State.Admissible.count {s : State} (h : s.Admissible) (hcen : s.enc.cen = true) (c : Prop) [Decidable c] :
    ({ s with enc := if c then s.enc.countUp else s.enc.countDown }).Admissible := by
  have hin : s.enc.inited = true := by
    by_contra hno
    obtain ⟨-, hoff, -⟩ := h.encoder_idle (by simpa using hno)
    simp [hcen] at hoff
  split
  · have hcnt := countUp_cnt_le s.enc h.cnt_le
    rw [countUp_frame] at hcnt ⊢
    exact h.withInitedCounter hin rfl hcnt h.hwCount_le h.lastHw_le
  · have hcnt := countDown_cnt_le s.enc h.cnt_le
    rw [countDown_frame] at hcnt ⊢
    exact h.withInitedCounter hin rfl hcnt h.hwCount_le h.lastHw_le

theorem execEvQa_staysAdmissible (v1 : Bool) {s : State} (h : s.Admissible) : StaysAdmissible (execEvQa v1 s) :=
  have h' := h.withLevels v1 s.enc.qb
  .ite (fun _ => .next h) fun _ => .ite (fun hcen => .next (h'.count hcen _)) fun _ => .next h'

theorem execEvQb_staysAdmissible (v1 : Bool) {s : State} (h : s.Admissible) : StaysAdmissible (execEvQb v1 s) :=
  have h' := h.withLevels s.enc.qa v1
  .ite (fun _ => .next h) fun _ => .ite (fun hcen => .next (h'.count hcen _)) fun _ => .next h'

/-! ## The buttons -/

/-- A write of one handle that does not take its initialisation away takes no handle's. -/
theorem initialized_setButton {s : State} {b c : BitVec 3} {v : Button}
    (hv : (s.button b).initialized = true → v.initialized = true) (hc : (s.button c).initialized = true) :
    ((s.setButton b v).button c).initialized = true := by
  by_cases hcb : c = b
  · subst hcb
    rw [State.button_setButton_same]
    exact hv hc
  · rw [State.button_setButton_other s b c v hcb]
    exact hc

theorem State.Admissible.setButton {s : State} (h : s.Admissible) {b : BitVec 3} {v : Button}
    (hv : (s.button b).initialized = true → v.initialized = true) : (s.setButton b v).Admissible := by
  obtain ⟨hcount, hempty, hnodup, hinit⟩ := h.manager
  exact ⟨h.delay, h.ring, h.sampler, h.encoder,
    ⟨hcount, hempty, hnodup, fun c hc => initialized_setButton hv (hinit c hc)⟩, h.memory, h.progress⟩

/-- R224: a sample leaves a handle initialised. -/
theorem State.Admissible.scan {s : State} (h : s.Admissible) (bs : List (BitVec 3)) :
    (bs.foldl sampleHandle s).Admissible := by
  induction bs generalizing s with
  | nil => exact h
  | cons b bs ih => exact ih (h.setButton id)

theorem execBtnScan_staysAdmissible {s : State} (h : s.Admissible) : StaysAdmissible (execBtnScan s) :=
  have h' := h.timerExpired 1
  .ite (fun _ => .raise h) fun _ => .ite (fun _ => .complete (h'.scan _)) fun _ => .complete h'

/-- R221: the manager is emptied. -/
theorem execBtnMinit_staysAdmissible {s : State} (h : s.Admissible) : StaysAdmissible (execBtnMinit s) :=
  .complete ⟨h.delay, h.ring, h.sampler, h.encoder, ⟨Nat.zero_le _, nofun, List.nodup_nil, nofun⟩, h.memory, h.progress⟩

/-- R222: a registration puts the handle after those registered. -/
theorem registered_add (m : Manager) (b : BitVec 3) (hlt : m.count.toNat < 8) :
    ({ m with slot := m.slot.setIfInBounds m.count.toNat b, count := m.count + 1 } : Manager).registered
      = m.registered ++ [b] := by
  have hcount : (m.count + 1).toNat = m.count.toNat + 1 := by
    rw [BitVec.toNat_add]
    exact Nat.mod_eq_of_lt (by show m.count.toNat + 1 < 2 ^ 4; omega)
  simp only [Manager.registered, hcount, Vector.toList_setIfInBounds, List.take_add_one]
  rw [List.take_set_of_le (Nat.le_refl _), List.getElem?_set_self (by simpa using hlt)]
  rfl

/-- R222: the checks leave a free slot and a handle that is initialised and not registered. -/
theorem execBtnAdd_staysAdmissible (b : BitVec 3) {s : State} (h : s.Admissible) :
    StaysAdmissible (execBtnAdd b s) := by
  refine .iteInited h fun hmgr => .iteInited h fun hb => .ite (fun _ => .raise h) fun hfull =>
    .ite (fun _ => .raise h) fun hnew => .complete ?_
  obtain ⟨hcount, -, hnodup, hinit⟩ := h.manager
  have hne : s.mgr.count.toNat ≠ 8 := fun e => hfull (BitVec.eq_of_toNat_eq e)
  have hreg := registered_add s.mgr b (by omega)
  refine ⟨h.delay, h.ring, h.sampler, h.encoder, ⟨?_, fun hno => absurd (hmgr.symm.trans hno) nofun, ?_, ?_⟩, h.memory,
    h.progress⟩
  · show (s.mgr.count + 1).toNat ≤ 8
    rw [BitVec.toNat_add]
    exact Nat.le_trans (Nat.mod_le _ _) (by show s.mgr.count.toNat + 1 ≤ 8; omega)
  · rw [hreg]
    simpa [List.nodup_append, hnodup] using fun c hc (hcb : c = b) => hnew (hcb ▸ hc)
  · rw [hreg]
    intro c hc
    rcases List.mem_append.mp hc with hc | hc
    · exact hinit c hc
    · cases List.mem_singleton.mp hc
      exact hb

theorem execBtnTake_staysAdmissible (b : BitVec 3) {s : State} (h : s.Admissible) : StaysAdmissible (execBtnTake b s) :=
  .ite (fun _ => .raise h) fun _ => .complete (h.setButton id)

/-! ## The sub-stepped commands -/

/-- R197: a residue lies below its modulus. -/
theorem countResidue_lt (hw last : Half) {m : Nat} (hm : 0 < m) : countResidue hw last m < m := by
  unfold countResidue
  have := Int.emod_lt_of_pos ((hw.toNat : Int) - last.toNat) (by omega : (0 : Int) < m)
  omega

/-- R198: a folded difference is at most half the modulus, of either sign. -/
theorem fold_natAbs_le {r m : Nat} (hr : r < m) (s : State) : 2 * (fold r m s).1.natAbs ≤ m := by
  rcases fold_cases r m s with ⟨hlt, h⟩ | ⟨hgt, h⟩ | ⟨heq, h | h, -⟩ <;> rw [h]
  · show 2 * (r : Int).natAbs ≤ m
    omega
  · show 2 * ((r : Int) - m).natAbs ≤ m
    omega
  · omega
  · omega

/-- R180: the average of half-words is a half-word. -/
theorem average_le {sum : Nat} {s : State} (hn : 0 < s.smp.n.toNat) (hsum : sum ≤ s.smp.n.toNat * 65535) :
    (average sum s).1 ≤ 65535 := by
  have hne : s.smp.n ≠ 0 := fun e => by simp [e] at hn
  rw [average, if_neg hne]
  exact Nat.div_le_of_le_mul hsum

/-- R180: what the next read of P3, or P5 after the last one, starts from. -/
theorem protNext_progressOk {s : State} {i sum : Nat} (hin : s.smp.inited = true) (hi : i ≤ s.smp.n.toNat)
    (hsum : sum ≤ i * 65535) : ({ s with inProgress := some (protNext s i sum) }).progressOk = true := by
  unfold protNext
  split
  · rename_i hlt
    simp [State.progressOk, hin, hlt, hsum]
  · have heq : i = s.smp.n.toNat := by omega
    simp [State.progressOk, hin, ← heq, hsum]

theorem subStep_keepsAdmissible {p : Progress} {s t : State} (h : s.Admissible) (hp : s.inProgress = some p)
    (hstep : subStep p s = .next t) : t.Admissible := by
  have hdelay := h.delay_inactive hp
  have hprog := h.progress
  have hdone : ({ s with inProgress := none }).Admissible := h.withProgress hdelay rfl
  simp only [State.progressOk, hp] at hprog
  rcases subStep_cases hstep with ⟨d, rfl, rfl⟩ | ⟨d, x, rfl, rfl⟩ | ⟨rfl, -, rfl⟩ | ⟨rfl, -, -, rfl⟩
    | ⟨rfl, -, hin, rfl⟩ | ⟨i, sum, v, rfl, -, rfl⟩ | ⟨sum, d, rfl, rfl⟩ | ⟨avg, rfl, rfl⟩
  · exact h.withProgress hdelay hprog
  · have hwritten := hdone.withCounter (e := { s.enc with total := toI32 (x.toInt + d), lastHw := s.enc.hwCount }) rfl
      h.cnt_le h.hwCount_le h.hwCount_le fun hin => (h.encoder_idle hin).2
    exact hwritten.respond _ _
  · exact hdone.respond _ _
  · exact hdone.respond _ _
  · exact h.withProgress hdelay (protNext_progressOk hin (Nat.zero_le _) (Nat.zero_le _))
  · simp only [Bool.and_eq_true, decide_eq_true_eq] at hprog
    obtain ⟨⟨hin, hi⟩, hsum⟩ := hprog
    have hv := v.isLt
    exact h.withProgress hdelay (protNext_progressOk hin hi (by omega))
  · simp only [Bool.and_eq_true, decide_eq_true_eq] at hprog
    obtain ⟨hin, hsum⟩ := hprog
    have havg := average_le (h.n_pos hin) hsum
    exact (h.clearBatch.withDraws d).withProgress hdelay (by simp [State.progressOk, hin, havg])
  · exact (hdone.withMotorEn _).respond _ _

/-- R249: the host's run through its sub-steps. -/
theorem continueHost_staysAdmissible {s : State} (h : s.Admissible) : StaysAdmissible (continueHost s) := fun t ht =>
  runHost_keeps (fun _ _ _ hp hs hsub => subStep_keepsAdmissible hs.turnTaken hp hsub) _ s t h ht

theorem execPrtTick_staysAdmissible {s : State} (h : s.Admissible) (hdelay : s.tick.delay.active = false) :
    StaysAdmissible (execPrtTick s) := by
  have h' := h.timerExpired 0
  have hdelay' : (timerExpired 0 s).2.tick.delay.active = false := by rw [timerExpired_tick]; exact hdelay
  exact .ite (fun _ => continueHost_staysAdmissible (h'.withProgress hdelay' rfl)) fun _ => .complete h'

/-- R197: U1 copies the counter and folds the difference. -/
theorem execEncUpdate_staysAdmissible {s : State} (h : s.Admissible) (hdelay : s.tick.delay.active = false) :
    StaysAdmissible (execEncUpdate s) := by
  refine .iteInited h fun hin => continueHost_staysAdmissible ?_
  have hfold := fold_natAbs_le (countResidue_lt s.enc.cnt s.enc.lastHw (m := s.enc.modulus) (Nat.succ_pos _)) s
  obtain ⟨d, hd⟩ := fold_state (countResidue s.enc.cnt s.enc.lastHw s.enc.modulus) s.enc.modulus s
  rw [hd]
  have hcopied := (h.withDraws d).withInitedCounter hin (e := { s.enc with hwCount := s.enc.cnt }) rfl h.cnt_le h.cnt_le
    h.lastHw_le
  refine hcopied.withProgress hdelay ?_
  simp only [State.progressOk, hin, Bool.true_and, decide_eq_true_eq]
  exact hfold

/-! ## Reset -/

/-- R51, R270: every unit at its reset value, whatever is kept, over a memory that is canonical. -/
theorem execEvReset_staysAdmissible {s : State} (hmem : s.memoryOk) : StaysAdmissible (execEvReset s) :=
  .next
    { delay := nofun
      ring := nofun
      sampler := ⟨rfl, rfl, rfl, rfl, rfl, rfl, rfl, rfl, rfl, rfl, rfl, fun _ => ⟨rfl, rfl, rfl⟩,
        (by decide : (0 : Half).toNat < 4096)⟩
      encoder := ⟨Nat.le_refl _, Nat.le_refl _, Nat.le_refl _, nofun, fun _ => ⟨rfl, rfl, rfl, rfl, rfl⟩⟩
      manager := ⟨Nat.zero_le _, fun _ => rfl, List.nodup_nil, nofun⟩
      memory := hmem
      progress := rfl }

/-- Settles O10: the reset state is what `EV.RESET` makes of itself, and its memory is empty. -/
theorem resetAdmissible : Obligations.ResetAdmissible :=
  execEvReset_staysAdmissible (s := State.reset) ⟨⟨List.Pairwise.nil, nofun⟩, nofun⟩ State.reset rfl

/-! ## The dispatch -/

/-- Every instruction keeps the invariants; the host issues its own only where no other is in progress and no hold is
on (R85, R26). -/
theorem exec_staysAdmissible {i : Instr} {s : State} (h : s.Admissible)
    (hnone : issuedByHost i = true → s.inProgress = none)
    (hdelay : issuedByHost i = true → s.tick.delay.active = false) : StaysAdmissible (exec i s) := by
  cases i with
  | tckInit fCpu => exact execTckInit_staysAdmissible fCpu h
  | tckDelay n => exact .next (h.releaseHold fun _ => hnone rfl)
  | tmrInit t ar interval => exact .complete (h.setTimer t _)
  | tmrStart t => exact .complete (h.setTimer t _)
  | tmrExpired t => exact .complete (h.timerExpired t)
  | smpInit base len => exact execSmpInit_staysAdmissible base len h (hnone rfl)
  | smpStart => exact execSmpStart_staysAdmissible h
  | smpClear => exact .complete h.clearBatch
  | smpRdcell j => exact execSmpRdcell_staysAdmissible j h
  | smpGetf f => exact execSmpGetf_staysAdmissible f h
  | smpClrf f => exact execSmpClrf_staysAdmissible f h
  | smpDmaen => exact execSmpDmaen_staysAdmissible h
  | smpDmadis => exact execSmpDmadis_staysAdmissible h
  | prtTick => exact execPrtTick_staysAdmissible h (hdelay rfl)
  | motSet v1 => exact .complete (h.withMotorEn v1)
  | encInit polA polB uie cpr maxCount => exact execEncInit_staysAdmissible polA polB uie cpr maxCount h (hnone rfl)
  | encStart => exact execEncStart_staysAdmissible h
  | encStop => exact execEncStop_staysAdmissible h
  | encReset => exact execEncReset_staysAdmissible h
  | encUpdate => exact execEncUpdate_staysAdmissible h (hdelay rfl)
  | encRpm nowMs => exact execEncRpm_staysAdmissible nowMs h
  | btnInit b pin port al => exact .complete (h.setButton fun _ => rfl)
  | btnMinit => exact execBtnMinit_staysAdmissible h
  | btnAdd b => exact execBtnAdd_staysAdmissible b h
  | btnScan => exact execBtnScan_staysAdmissible h
  | btnTake b => exact execBtnTake_staysAdmissible b h
  | evTick => exact execEvTick_staysAdmissible h
  | evSample v12 => exact execEvSample_staysAdmissible v12 h
  | evDmairq => exact execEvDmairq_staysAdmissible h
  | evDmate => exact execEvDmate_staysAdmissible h
  | evQa v1 => exact execEvQa_staysAdmissible v1 h
  | evQb v1 => exact execEvQb_staysAdmissible v1 h
  | evEncirq => exact execEvEncirq_staysAdmissible h
  | evPin v1 pin port => exact .next (h.setGpio port pin v1)
  | evReset => exact execEvReset_staysAdmissible h.memory
  | tckNow | tckElapsed | smpReady | motGet => exact .complete h
  | encCount | encDir | btnPressed => exact .iteInited h fun _ => .complete h

/-- Settles O9: every instruction and every sub-step keeps the invariants, and so every step does. -/
theorem stepKeepsAdmissible : Obligations.StepKeepsAdmissible := by
  intro s t h hstep
  refine step_keeps (fun _ rest hs => hs.withTrace rest) (fun _ hs => hs.turnTaken) (fun _ hs => hs.respond _ _)
    (fun i s t hnone hdelay hs hexec => ?_) (fun _ _ _ hp hs hsub => subStep_keepsAdmissible hs.turnTaken hp hsub)
    h hstep
  refine exec_staysAdmissible hs (fun hhost => ?_) (fun hhost => ?_) t hexec
  · by_contra hp
    exact absurd (hhost.symm.trans (hnone hp)) nofun
  · by_contra ha
    exact absurd (hhost.symm.trans (hdelay (by simpa using ha))) nofun

end Sys2Proof.Machine

/-! PROOFS. Data memory (20_memory.md): most instructions do not access it at all; those that do stay inside the address
space in an admissible state (R70, R73, R150), and of them only the sample writes, in the cell at `DMA_WIDX` (R155). -/

namespace Sys2Proof.Machine

/-! ## Outcomes that are no fault -/

theorem safe.next {s : State} : safe (.next s) := nofun

theorem safe.refused {r : Refusal} : safe (.refused r) := nofun

theorem safe.ite {c : Prop} [Decidable c] {a b : Result} (ha : c → safe a) (hb : ¬ c → safe b) :
    safe (if c then a else b) := by
  split
  · exact ha ‹_›
  · exact hb ‹_›

theorem safe.complete {s : State} {rsp : Word} : safe (complete s rsp) := .next

theorem safe.raise {s : State} {st : Status} : safe (raise s st) := .next

/-! ## Instructions that do not access memory -/

/-- An outcome that goes on, if it does, to a state with the memory of `s`. -/
def KeepsMemory (s : State) (o : Result) : Prop := NextHas (fun t => t.mem = s.mem) o

theorem KeepsMemory.next {s u : State} (h : u.mem = s.mem) : KeepsMemory s (.next u) := NextHas.next h

theorem KeepsMemory.ite {s : State} {c : Prop} [Decidable c] {a b : Result} (ha : KeepsMemory s a)
    (hb : KeepsMemory s b) : KeepsMemory s (if c then a else b) :=
  NextHas.ite ha hb

/-- What comes of an instruction that does not access memory: no fault, and memory as it was. -/
structure AccessesNoMemory (s : State) (o : Result) : Prop where
  noFault : safe o
  mem : KeepsMemory s o

namespace AccessesNoMemory

variable {s u : State}

theorem next (h : u.mem = s.mem) : AccessesNoMemory s (.next u) := ⟨.next, .next h⟩

theorem refused {r : Refusal} : AccessesNoMemory s (.refused r) := ⟨.refused, NextHas.refused⟩

theorem ite {c : Prop} [Decidable c] {a b : Result} (ha : AccessesNoMemory s a) (hb : AccessesNoMemory s b) :
    AccessesNoMemory s (if c then a else b) :=
  ⟨.ite (fun _ => ha.noFault) fun _ => hb.noFault, .ite ha.mem hb.mem⟩

theorem complete {rsp : Word} (h : u.mem = s.mem) : AccessesNoMemory s (complete u rsp) := .next h

theorem raise {st : Status} (h : u.mem = s.mem) : AccessesNoMemory s (raise u st) := .next h

end AccessesNoMemory

theorem releaseHold_mem (s : State) : (releaseHold s).mem = s.mem := by
  rcases releaseHold_cases s with ⟨-, h⟩ | ⟨-, h⟩ <;> rw [h]

theorem speed_mem (total lastTotal : Word) (cpr : Half) (dt : Word) (s : State) :
    (speed total lastTotal cpr dt s).2.mem = s.mem := by
  obtain ⟨d, h⟩ := speed_state total lastTotal cpr dt s
  rw [h]

theorem fold_mem (r m : Nat) (s : State) : (fold r m s).2.mem = s.mem := by
  obtain ⟨d, h⟩ := fold_state r m s
  rw [h]

theorem foldl_sampleHandle_mem (bs : List (BitVec 3)) (s : State) : (bs.foldl sampleHandle s).mem = s.mem := by
  obtain ⟨btn, h⟩ := foldl_sampleHandle_frame bs s
  rw [h]

theorem execSmpGetf_accessesNoMemory (f : BitVec 2) (s : State) : AccessesNoMemory s (execSmpGetf f s) := by
  unfold execSmpGetf
  split
  · exact .raise rfl
  · exact .complete rfl

theorem execSmpClrf_accessesNoMemory (f : BitVec 2) (s : State) : AccessesNoMemory s (execSmpClrf f s) := by
  unfold execSmpClrf
  split
  · exact .raise rfl
  · exact .complete rfl

theorem execBtnScan_accessesNoMemory (s : State) : AccessesNoMemory s (execBtnScan s) :=
  .ite (.raise rfl) (.ite (.complete ((foldl_sampleHandle_mem ..).trans (timerExpired_mem 1 s)))
    (.complete (timerExpired_mem 1 s)))

/-- R74, R75: a cell's read, a sample and a `PRT.TICK` access memory, and no other instruction does. (`ENC.UPDATE` is left
out only because its outcome is that of the host's run through its sub-steps, which has lemmas of its own below.) -/
theorem exec_accessesNoMemory {i : Instr} (s : State) (hread : ∀ j, i ≠ .smpRdcell j) (hsample : ∀ v, i ≠ .evSample v)
    (hprt : i ≠ .prtTick) (henc : i ≠ .encUpdate) : AccessesNoMemory s (exec i s) := by
  cases i with
  | smpRdcell j => exact absurd rfl (hread j)
  | evSample v12 => exact absurd rfl (hsample v12)
  | prtTick => exact absurd rfl hprt
  | encUpdate => exact absurd rfl henc
  | tckInit fCpu => exact .ite (.raise rfl) (.ite (.raise rfl) (.complete rfl))
  | tckDelay n => exact .next (releaseHold_mem _)
  | tmrExpired t => exact .complete (timerExpired_mem t s)
  | smpInit base len => exact .ite (.raise rfl) (.ite (.ite (.complete rfl) (.raise rfl)) (.complete rfl))
  | smpGetf f => exact execSmpGetf_accessesNoMemory f s
  | smpClrf f => exact execSmpClrf_accessesNoMemory f s
  | smpDmaen => exact .ite (.raise rfl) (.ite (.complete rfl) (.complete rfl))
  | smpDmadis => exact .ite (.complete rfl) (.ite (.complete rfl) (.raise rfl))
  | encRpm nowMs =>
    exact .ite (.raise rfl) (.ite (.complete rfl) (.ite (.complete rfl) (.complete (speed_mem ..))))
  | btnAdd b =>
    exact .ite (.raise rfl) (.ite (.raise rfl) (.ite (.raise rfl) (.ite (.raise rfl) (.complete rfl))))
  | btnScan => exact execBtnScan_accessesNoMemory s
  | evTick => exact .ite (.next (releaseHold_mem _)) .refused
  | evQa v1 | evQb v1 => exact .ite (.next rfl) (.ite (.next rfl) (.next rfl))
  | evDmairq | evDmate | evEncirq => exact .ite (.next rfl) .refused
  | evPin | evReset => exact .next rfl
  | tckNow | tckElapsed | tmrInit | tmrStart | smpReady | smpClear | motSet | motGet | btnInit | btnMinit =>
    exact .complete rfl
  | smpStart | encInit | encStart | encStop | encReset | encCount | encDir | btnTake | btnPressed =>
    exact .ite (.raise rfl) (.complete rfl)

/-! ## Accesses inside the address space -/

/-- R73: a cell of a ring that ends inside the address space has both its bytes there. -/
theorem cellAddr_succ_lt {s : State} {i : Nat} (hend : s.smp.base.toNat + 2 * s.smp.n.toNat ≤ 0x100000000)
    (hi : i < s.smp.n.toNat) : cellAddr s i + 1 < 0x100000000 := by
  unfold cellAddr
  omega

/-- R150. -/
theorem State.Admissible.ring_end {s : State} (h : s.Admissible) (hin : s.smp.inited = true) :
    s.smp.base.toNat + 2 * s.smp.n.toNat ≤ 0x100000000 := by
  obtain ⟨-, -, -, -, hend, -, -⟩ := h.ring hin
  exact hend

theorem execSmpRdcell_safe (j : BitVec 16) {s : State} (h : s.Admissible) : safe (execSmpRdcell j s) := by
  refine .ite (fun _ => .raise) fun hin => .ite (fun _ => .raise) fun hj => ?_
  have hlt : j.toNat < s.smp.n.toNat := by simpa [BitVec.le_def] using hj
  rw [Memory.read16_isSome _ _ (cellAddr_succ_lt (h.ring_end (by simpa using hin)) hlt)]
  exact .complete

theorem execEvSample_safe (v12 : BitVec 12) {s : State} (h : s.Admissible) : safe (execEvSample v12 s) := by
  refine .ite (fun _ => .ite (fun hen => ?_) fun _ => .next) fun _ => .refused
  have hin := h.inited_of_dmaEn hen
  obtain ⟨m, hm⟩ := Memory.write16_isSome s.mem (cellAddr s s.smp.widx.toNat) (v12.setWidth 16)
    (cellAddr_succ_lt (h.ring_end hin) (h.widx_lt hin))
  rw [hm]
  exact .next

/-! ### The reads of `PRT.TICK` -/

/-- What keeps the reads of a `PRT.TICK` inside the address space: the ring ends there, and the cell to be read next is
one of its cells. Unlike admissibility it says nothing of the hold and of the sums, so it holds of every state a command
starts its sub-steps from. -/
structure ReadsInRing (s : State) : Prop where
  ring_end : s.smp.inited = true → s.smp.base.toNat + 2 * s.smp.n.toNat ≤ 0x100000000
  index : ∀ i sum, s.inProgress = some (.protRead i sum) → s.smp.inited = true ∧ i < s.smp.n.toNat

theorem State.Admissible.readsInRing {s : State} (h : s.Admissible) : ReadsInRing s := by
  refine ⟨h.ring_end, fun i sum hp => ?_⟩
  have hprog := h.progress
  simp only [State.progressOk, hp, Bool.and_eq_true, decide_eq_true_eq] at hprog
  obtain ⟨⟨hin, hi⟩, -⟩ := hprog
  exact ⟨hin, hi⟩

theorem protNext_index {s : State} {i j sum sum' : Nat} (h : protNext s i sum = .protRead j sum') :
    j < s.smp.n.toNat := by
  unfold protNext at h
  split at h
  · cases h
    assumption
  · cases h

/-- R180: the batch test and each read go on to a cell of the ring; no other sub-step goes on to a read. -/
theorem subStep_keepsReadsInRing {p : Progress} {s t : State} (h : ReadsInRing s) (hp : s.inProgress = some p)
    (hstep : subStep p s = .next t) : ReadsInRing t := by
  rcases subStep_cases hstep with ⟨d, -, rfl⟩ | ⟨d, x, -, rfl⟩ | ⟨-, -, rfl⟩ | ⟨-, -, -, rfl⟩ | ⟨-, -, hin, rfl⟩
    | ⟨i, sum, v, rfl, -, rfl⟩ | ⟨sum, d, -, rfl⟩ | ⟨avg, -, rfl⟩
  · exact ⟨h.ring_end, nofun⟩
  · exact ⟨h.ring_end, nofun⟩
  · exact ⟨h.ring_end, nofun⟩
  · exact ⟨h.ring_end, nofun⟩
  · exact ⟨h.ring_end, fun _ _ hq => ⟨hin, protNext_index (Option.some.inj hq)⟩⟩
  · obtain ⟨hin, -⟩ := h.index i sum hp
    exact ⟨h.ring_end, fun _ _ hq => ⟨hin, protNext_index (Option.some.inj hq)⟩⟩
  · exact ⟨h.ring_end, nofun⟩
  · exact ⟨h.ring_end, nofun⟩

theorem subStep_safe {p : Progress} {s : State} (h : ReadsInRing s) (hp : s.inProgress = some p) :
    safe (subStep p s) := by
  cases p with
  | updateU2 d => exact .next
  | updateU3 d x => exact .complete
  | protP2 => exact .ite (fun _ => .complete) fun _ => .ite (fun _ => .raise) fun _ => .next
  | protRead i sum =>
    obtain ⟨hin, hi⟩ := h.index i sum hp
    rw [subStep, protRead, Memory.read16_isSome _ _ (cellAddr_succ_lt (h.ring_end hin) hi)]
    exact .next
  | protP5 sum => exact .next
  | protP6 avg => exact .complete

theorem ReadsInRing.turnTaken {s : State} (h : ReadsInRing s) : ReadsInRing s.turnTaken := ⟨h.ring_end, h.index⟩

/-- R249: the host's run through its sub-steps. -/
theorem runHost_safe (fuel : Nat) {s : State} (h : ReadsInRing s) : safe (runHost fuel s) := by
  induction fuel generalizing s with
  | zero => exact .next
  | succ fuel ih =>
    rw [runHost]
    cases hp : s.inProgress with
    | none => exact .next
    | some p =>
      refine .ite (fun _ => .next) fun _ => ?_
      cases hsub : subStep p s.turnTaken with
      | next t => exact ih (subStep_keepsReadsInRing h.turnTaken hp hsub)
      | fault r => exact absurd hsub (subStep_safe h.turnTaken hp r)
      | refused r => exact .refused

theorem resumeHost_safe {p : Progress} {s : State} (h : ReadsInRing s) (hp : s.inProgress = some p) :
    safe (resumeHost p s) := by
  unfold resumeHost
  cases hsub : subStep p s.turnTaken with
  | next t => exact runHost_safe _ (subStep_keepsReadsInRing h.turnTaken hp hsub)
  | fault r => exact absurd hsub (subStep_safe h.turnTaken hp r)
  | refused r => exact .refused

theorem execPrtTick_safe {s : State} (h : s.Admissible) : safe (execPrtTick s) :=
  .ite (fun _ => runHost_safe _ ⟨(h.timerExpired 0).ring_end, nofun⟩) fun _ => .complete

theorem execEncUpdate_safe {s : State} (h : s.Admissible) : safe (execEncUpdate s) := by
  refine .ite (fun _ => .raise) fun _ => runHost_safe _ ⟨?_, nofun⟩
  obtain ⟨d, hd⟩ := fold_state (countResidue s.enc.cnt s.enc.lastHw s.enc.modulus) s.enc.modulus s
  rw [hd]
  exact h.ring_end

/-! ### The step -/

theorem exec_safe (i : Instr) {s : State} (h : s.Admissible) : safe (exec i s) := by
  cases i with
  | smpRdcell j => exact execSmpRdcell_safe j h
  | evSample v12 => exact execEvSample_safe v12 h
  | prtTick => exact execPrtTick_safe h
  | encUpdate => exact execEncUpdate_safe h
  | _ => refine (exec_accessesNoMemory s ?_ ?_ ?_ ?_).noFault <;> nofun

theorem runTrace_safe {s : State} (h : s.Admissible) : safe (runTrace s) := by
  unfold runTrace
  cases decode s.trace with
  | step i rest => exact .ite (fun _ => .refused) fun _ => exec_safe i (h.withTrace rest)
  | illegalHost rest => exact .ite (fun _ => .refused) fun _ => .raise
  | illegalEvent | truncated | ended => exact .refused

/-- Settles O11: an instruction of the trace does not fault, and neither does the host going on with its command. -/
theorem admissibleStepNeverFaults : Obligations.AdmissibleStepNeverFaults := by
  intro s h
  unfold step nextStep
  cases hp : s.inProgress with
  | none => exact runTrace_safe h
  | some p => exact .ite (fun _ => runTrace_safe h.turnTaken) fun _ => resumeHost_safe h.readsInRing hp

/-! ## What writes memory -/

/-- R180, R197: a sub-step reads memory at most. -/
theorem subStep_mem {p : Progress} {s t : State} (h : subStep p s = .next t) : t.mem = s.mem := by
  rcases subStep_cases h with ⟨d, -, rfl⟩ | ⟨d, x, -, rfl⟩ | ⟨-, -, rfl⟩ | ⟨-, -, -, rfl⟩ | ⟨-, -, -, rfl⟩
    | ⟨i, sum, v, -, -, rfl⟩ | ⟨sum, d, -, rfl⟩ | ⟨avg, -, rfl⟩
  all_goals rfl

theorem continueHost_mem {s u : State} (h : u.mem = s.mem) : KeepsMemory s (continueHost u) := fun t ht =>
  runHost_keeps (P := fun t => t.mem = s.mem) (fun _ _ _ _ hs hsub => (subStep_mem hsub).trans hs) _ u t h ht

theorem resumeHost_mem {p : Progress} {s t : State} (hp : s.inProgress = some p) (h : resumeHost p s = .next t) :
    t.mem = s.mem :=
  resumeHost_keeps (P := fun t => t.mem = s.mem) (fun _ _ _ _ hs hsub => (subStep_mem hsub).trans hs) hp rfl h

theorem execSmpRdcell_mem (j : BitVec 16) (s : State) : KeepsMemory s (execSmpRdcell j s) := by
  refine .ite (.next rfl) (.ite (.next rfl) ?_)
  split
  · exact NextHas.fault
  · exact .next rfl

theorem exec_mem_of_ne_evSample {i : Instr} (s : State) (hsample : ∀ v, i ≠ .evSample v) :
    KeepsMemory s (exec i s) := by
  cases i with
  | evSample v12 => exact absurd rfl (hsample v12)
  | smpRdcell j => exact execSmpRdcell_mem j s
  | prtTick => exact .ite (continueHost_mem (timerExpired_mem 0 s)) (.next (timerExpired_mem 0 s))
  | encUpdate => exact .ite (.next rfl) (continueHost_mem (fold_mem ..))
  | _ => refine (exec_accessesNoMemory s ?_ ?_ ?_ ?_).mem <;> nofun

/-- R155: an address is one of the two bytes of the cell the stream writes next. -/
def InNextCell (s : State) (a : Nat) : Prop :=
  a = cellAddr s s.smp.widx.toNat ∨ a = cellAddr s s.smp.widx.toNat + 1

theorem Memory.byteAt_write16_other {m m' : List Host.Cell} {a x : Nat} {v : Half}
    (h : Memory.write16 m a v = some m') (hlow : x ≠ a) (hhigh : x ≠ a + 1) :
    Memory.byteAt m' x = Memory.byteAt m x := by
  obtain ⟨-, -, -, hother, -, -⟩ := Memory.write16_spec h
  rw [Memory.byteAt, Memory.byteAt, hother x hlow hhigh]

/-- R155: a sample leaves memory as it was, or writes its value in the next cell, with the stream enabled. -/
theorem execEvSample_mem {v12 : BitVec 12} {s t : State} (h : execEvSample v12 s = .next t) :
    t.mem = s.mem ∨ (s.smp.dmaEn = true
      ∧ Memory.write16 s.mem (cellAddr s s.smp.widx.toNat) (v12.setWidth 16) = some t.mem) := by
  unfold execEvSample at h
  split at h
  · split at h
    · rename_i hen
      dsimp only at h
      split at h
      · cases h
      · rename_i m hm
        cases h
        exact .inr ⟨hen, hm⟩
    · cases h
      exact .inl rfl
  · cases h

theorem execEvSample_byteAt {v12 : BitVec 12} {s t : State} {a : Nat} (h : execEvSample v12 s = .next t)
    (hne : Memory.byteAt t.mem a ≠ Memory.byteAt s.mem a) : s.smp.dmaEn = true ∧ InNextCell s a := by
  rcases execEvSample_mem h with hmem | ⟨hen, hwrite⟩
  · exact absurd (by rw [hmem]) hne
  · refine ⟨hen, ?_⟩
    by_contra hout
    obtain ⟨hlow, hhigh⟩ := not_or.mp hout
    exact hne (Memory.byteAt_write16_other hwrite hlow hhigh)

/-- R74, R155: an instruction that changes a byte is a sample that writes it. -/
theorem exec_byteAt {i : Instr} {s t : State} {a : Nat} (h : exec i s = .next t)
    (hne : Memory.byteAt t.mem a ≠ Memory.byteAt s.mem a) :
    ∃ v, i = .evSample v ∧ s.smp.dmaEn = true ∧ InNextCell s a := by
  by_cases hsample : ∃ v, i = .evSample v
  · obtain ⟨v, rfl⟩ := hsample
    exact ⟨v, rfl, execEvSample_byteAt h hne⟩
  · have hmem := exec_mem_of_ne_evSample s (fun v hv => hsample ⟨v, hv⟩) t h
    exact absurd (by rw [hmem]) hne

/-- A step taken from the trace changes a byte as its instruction does. -/
theorem runTrace_byteAt {s t : State} {a : Nat} (h : runTrace s = .next t)
    (hne : Memory.byteAt t.mem a ≠ Memory.byteAt s.mem a) :
    ∃ v rest, decode s.trace = .step (.evSample v) rest ∧ s.smp.dmaEn = true ∧ InNextCell s a := by
  rcases runTrace_cases h with ⟨i, rest, hd, -, h⟩ | ⟨rest, -, -, rfl⟩
  · obtain ⟨v, rfl, hwritten⟩ := exec_byteAt h hne
    exact ⟨v, rest, hd, hwritten⟩
  · exact absurd rfl hne

/-- Settles O18: only a sample changes a byte; the host's going on with its command reads memory at most. -/
theorem memoryWrittenOnlyBySamples : Obligations.MemoryWrittenOnlyBySamples := by
  refine ⟨fun i s t a h hout => ?_, fun s t a h hne => ?_⟩
  · by_contra hne
    obtain ⟨v, hi, hen, hcell⟩ := exec_byteAt h hne
    exact not_or.mpr (hout v hi hen) hcell
  · rcases step_cases h with ⟨-, h⟩ | ⟨p, -, -, -, h⟩ | ⟨p, hp, -, h⟩
    · exact runTrace_byteAt h hne
    · exact runTrace_byteAt (s := s.turnTaken) h hne
    · exact absurd (by rw [resumeHost_mem hp h]) hne

end Sys2Proof.Machine

/-! PROOFS. The encoding (30_encoding.md): what a field of a step word reads and writes, row by row what `encode` and
the decoder make of each other's words, and what a step does with an illegal word, a truncated step and a legal one. -/

namespace Sys2Proof

/-! ## Fields of a step word -/

/-- The bits of a word that a field of `n` bits at bit `lo` holds (R101). -/
def fieldMask (n lo : Nat) : Word := place (BitVec.allOnes n) lo

theorem getLsbD_place {n : Nat} (x : BitVec n) (lo i : Nat) :
    (place x lo).getLsbD i = (decide (i < 32) && !decide (i < lo) && x.getLsbD (i - lo)) := by
  by_cases hi : i < 32
  · have hsub : i - lo < 32 := by omega
    simp only [place, BitVec.getLsbD_shiftLeft, BitVec.getLsbD_setWidth, hi, hsub, decide_true, Bool.true_and]
  · simp only [place, BitVec.getLsbD_shiftLeft, hi, decide_false, Bool.false_and]

theorem place_extractLsb' (w : Word) (lo n : Nat) : place (w.extractLsb' lo n) lo = w &&& fieldMask n lo := by
  apply BitVec.eq_of_getLsbD_eq
  intro i hi
  simp only [BitVec.getLsbD_and, fieldMask, getLsbD_place, BitVec.getLsbD_extractLsb', BitVec.getLsbD_allOnes]
  by_cases hlo : i < lo
  · simp [hlo]
  · rw [Nat.add_sub_cancel' (Nat.le_of_not_lt hlo)]
    simp [hi, hlo, Bool.and_comm]

theorem placeBit_getLsbD (w : Word) (lo : Nat) : placeBit (w.getLsbD lo) lo = w &&& fieldMask 1 lo := by
  have hbit : BitVec.ofBool (w.getLsbD lo) = w.extractLsb' lo 1 := by
    apply BitVec.eq_of_getLsbD_eq
    intro i hi
    obtain rfl : i = 0 := by omega
    simp
  rw [placeBit, hbit, place_extractLsb']

@[simp] theorem extractLsb'_place_same {n : Nat} (x : BitVec n) {lo : Nat} (h : lo + n ≤ 32) :
    (place x lo).extractLsb' lo n = x := by
  apply BitVec.eq_of_getLsbD_eq
  intro i hi
  have hlt : lo + i < 32 := by omega
  simp only [BitVec.getLsbD_extractLsb', getLsbD_place, hi, hlt]
  simp

@[simp] theorem extractLsb'_place_of_disjoint {n : Nat} (x : BitVec n) {lo lo' m : Nat}
    (h : lo + n ≤ lo' ∨ lo' + m ≤ lo) : (place x lo).extractLsb' lo' m = 0#m := by
  apply BitVec.eq_of_getLsbD_eq
  intro i hi
  by_cases hlo : lo' + i < lo
  · simp only [BitVec.getLsbD_extractLsb', getLsbD_place, hlo]
    simp
  · have hge : n ≤ lo' + i - lo := by omega
    simp only [BitVec.getLsbD_extractLsb', getLsbD_place, BitVec.getLsbD_of_ge x _ hge]
    simp

theorem getLsbD_placeBit (c : Bool) {lo : Nat} (i : Nat) (h : lo < 32) :
    (placeBit c lo).getLsbD i = (decide (i = lo) && c) := by
  rw [placeBit, getLsbD_place]
  obtain hlt | rfl | hgt := Nat.lt_trichotomy i lo
  · simp [hlt, hlt.ne]
  · simp [h]
  · have hge : 1 ≤ i - lo := by omega
    simp [BitVec.getLsbD_of_ge _ _ hge, hgt.ne']

theorem getLsbD_place_of_disjoint {n : Nat} (x : BitVec n) {lo i : Nat} (h : lo + n ≤ i ∨ i < lo) :
    (place x lo).getLsbD i = false := by
  rw [getLsbD_place]
  obtain hge | hlt := h
  · rw [BitVec.getLsbD_of_ge x _ (by omega), Bool.and_false]
  · simp [hlt]

@[simp] theorem extractLsb'_placeBit_of_disjoint (c : Bool) {lo lo' m : Nat} (h : lo + 1 ≤ lo' ∨ lo' + m ≤ lo) :
    (placeBit c lo).extractLsb' lo' m = 0#m := extractLsb'_place_of_disjoint _ h

theorem getLsbD_stepWord (op : BitVec 8) (fields : Word) {i : Nat} (h : i < 24) :
    (stepWord op fields).getLsbD i = fields.getLsbD i := by
  rw [stepWord, BitVec.getLsbD_or, getLsbD_place_of_disjoint op (.inr h), Bool.false_or]

@[simp] theorem getElem_placeBit (c : Bool) {lo i : Nat} (hi : i < 32) (h : lo < 32) :
    (placeBit c lo)[i] = (decide (i = lo) && c) := getLsbD_placeBit c i h

@[simp] theorem getElem_place_of_disjoint {n : Nat} (x : BitVec n) {lo i : Nat} (hi : i < 32)
    (h : lo + n ≤ i ∨ i < lo) : (place x lo)[i] = false := getLsbD_place_of_disjoint x h

@[simp] theorem getElem_stepWord (op : BitVec 8) (fields : Word) {i : Nat} (hi : i < 32) (h : i < 24) :
    (stepWord op fields)[i] = fields[i] := getLsbD_stepWord op fields h

@[simp] theorem extractLsb'_stepWord (op : BitVec 8) (fields : Word) {lo n : Nat} (h : lo + n ≤ 24) :
    (stepWord op fields).extractLsb' lo n = fields.extractLsb' lo n := by
  rw [stepWord, BitVec.extractLsb'_or, extractLsb'_place_of_disjoint op (.inr h), BitVec.zero_or]

theorem getLsbD_reserved (r : Row) {i : Nat} (h : i < 32) :
    r.reserved.getLsbD i = (decide (i < 24) && !r.fieldBits.getLsbD i) := by
  have hoperand : 0x00FFFFFF#32 = (BitVec.allOnes 24).setWidth 32 := rfl
  simp only [Row.reserved, hoperand, BitVec.getLsbD_and, BitVec.getLsbD_not, BitVec.getLsbD_setWidth,
    BitVec.getLsbD_allOnes, h, decide_true, Bool.true_and]

/-- A word whose reserved bits are 0 is made of its opcode and its operand bits (R100, R101). -/
theorem stepWord_of_reserved_zero {r : Row} {w : Word} (h : w &&& r.reserved = 0) :
    stepWord (opOf w) (w &&& r.fieldBits) = w := by
  apply BitVec.eq_of_getLsbD_eq
  intro i hi
  by_cases hlt : i < 24
  · have hres : (w &&& r.reserved).getLsbD i = false := by rw [h]; exact BitVec.getLsbD_zero
    rw [BitVec.getLsbD_and, getLsbD_reserved r hi] at hres
    rw [getLsbD_stepWord _ _ hlt, BitVec.getLsbD_and]
    cases hw : w.getLsbD i
    · rfl
    · simpa [hw, hlt] using hres
  · have hop : (opOf w).getLsbD (i - 24) = w.getLsbD i := by
      rw [opOf_bit w _ (by omega), Nat.add_sub_cancel' (Nat.le_of_not_lt hlt)]
    rw [stepWord, BitVec.getLsbD_or, getLsbD_place, hop, BitVec.getLsbD_and]
    cases w.getLsbD i <;> simp [hi, hlt]

@[simp] theorem opOf_and (x y : Word) : opOf (x &&& y) = opOf x &&& opOf y := by
  apply BitVec.eq_of_getLsbD_eq
  intro i hi
  simp only [opOf_bit _ _ hi, BitVec.getLsbD_and]

/-! ## Extension words -/

/-- R101: no format has more than two extension words. -/
theorem extWords_le_two (f : Format) : f.extWords ≤ 2 := by
  cases f <;> decide

theorem take_getD_of_length_le_two {ext : List Word} (h : ext.length ≤ 2) :
    [ext.getD 0 0, ext.getD 1 0].take ext.length = ext := by
  match ext, h with
  | [], _ => rfl
  | [_], _ => rfl
  | [_, _], _ => rfl

/-- R110, step (3): where the extension words are there, they are taken and make the instruction. -/
theorem decodeExt_append (r : Row) (w : Word) {ext : List Word} (rest : List Word)
    (h : ext.length = r.format.extWords) :
    decodeExt r w (ext ++ rest) = .step (r.make w (ext.getD 0 0) (ext.getD 1 0)) rest := by
  have hle := extWords_le_two r.format
  rw [← h] at hle
  unfold decodeExt
  rw [← h]
  match ext, hle with
  | [], _ => rfl
  | [_], _ => rfl
  | [_, _], _ => rfl

/-- R107: where they are not, the step is truncated. -/
theorem decodeExt_truncated (r : Row) (w : Word) {rest : List Word} (h : rest.length < r.format.extWords) :
    decodeExt r w rest = .truncated := by
  have hle := extWords_le_two r.format
  unfold decodeExt
  match hn : r.format.extWords, rest, h, hle with
  | 1, [], _, _ => rfl
  | 2, [], _, _ => rfl
  | 2, [_], _, _ => rfl

/-- A step by a row has taken the extension words of the row's format. -/
theorem decodeExt_eq_step {r : Row} {w : Word} {ws rest : List Word} {i : Instr}
    (h : decodeExt r w ws = .step i rest) :
    ∃ ext, ext.length = r.format.extWords ∧ ws = ext ++ rest ∧ i = r.make w (ext.getD 0 0) (ext.getD 1 0) := by
  obtain hlt | hle := Nat.lt_or_ge ws.length r.format.extWords
  · rw [decodeExt_truncated r w hlt] at h
    cases h
  · have hlen : (ws.take r.format.extWords).length = r.format.extWords := List.length_take_of_le hle
    rw [← List.take_append_drop r.format.extWords ws, decodeExt_append r w _ hlen] at h
    cases h
    exact ⟨_, hlen, (List.take_append_drop ..).symm, rfl⟩

/-! ## Operand bits inside a row's fields -/

/-- The operand bits lie in a row's fields. -/
def FitsIn (fields bits : Word) : Prop := fields &&& bits = fields

namespace FitsIn

theorem zero {bits : Word} : FitsIn 0 bits := BitVec.zero_and

theorem or {x y bits : Word} (hx : FitsIn x bits) (hy : FitsIn y bits) : FitsIn (x ||| y) bits := by
  rw [FitsIn, BitVec.and_comm, BitVec.and_or_distrib_left, BitVec.and_comm, hx, BitVec.and_comm, hy]

/-- A field fits where its mask does. -/
theorem place {n lo : Nat} {bits : Word} (x : BitVec n) (h : FitsIn (fieldMask n lo) bits) :
    FitsIn (place x lo) bits := by
  have hx : Sys2Proof.place x lo &&& fieldMask n lo = Sys2Proof.place x lo := by
    apply BitVec.eq_of_getLsbD_eq
    intro i hi
    rw [BitVec.getLsbD_and, fieldMask, getLsbD_place, getLsbD_place, BitVec.getLsbD_allOnes]
    by_cases hn : i - lo < n
    · cases x.getLsbD (i - lo) <;> simp [hn]
    · simp [BitVec.getLsbD_of_ge x _ (Nat.le_of_not_lt hn)]
  rw [FitsIn, ← hx, BitVec.and_assoc, h]

theorem placeBit {lo : Nat} {bits : Word} (c : Bool) (h : FitsIn (fieldMask 1 lo) bits) :
    FitsIn (placeBit c lo) bits := place _ h

end FitsIn

/-- R101: the fields of every row lie below its opcode. -/
theorem opcodeTable_fieldBits : ∀ r ∈ opcodeTable, opOf r.fieldBits = 0#8 := by decide

/-- Operand bits that fit in a row's fields leave its reserved bits 0 (R101). -/
theorem stepWord_and_reserved {r : Row} (op : BitVec 8) {fields : Word} (h : FitsIn fields r.fieldBits) :
    stepWord op fields &&& r.reserved = 0 := by
  apply BitVec.eq_of_getLsbD_eq
  intro i hi
  rw [BitVec.getLsbD_and, getLsbD_reserved r hi]
  by_cases hlt : i < 24
  · rw [getLsbD_stepWord _ _ hlt, ← h, BitVec.getLsbD_and]
    cases r.fieldBits.getLsbD i <;> simp
  · simp [hlt]

/-! ## Encoding a decoded step -/

/-- The fields written back are the bits of the word under a mask. -/
def SelectsBits (fields : Word → Word) (bits : Word) : Prop := ∀ w, fields w = w &&& bits

namespace SelectsBits

theorem zero : SelectsBits (fun _ => 0) 0 := fun _ => BitVec.and_zero.symm

theorem field (lo n : Nat) : SelectsBits (fun w => place (w.extractLsb' lo n) lo) (fieldMask n lo) :=
  fun w => place_extractLsb' w lo n

theorem bit (lo : Nat) : SelectsBits (fun w => placeBit (w.getLsbD lo) lo) (fieldMask 1 lo) :=
  fun w => placeBit_getLsbD w lo

theorem or {f g : Word → Word} {x y : Word} (hf : SelectsBits f x) (hg : SelectsBits g y) :
    SelectsBits (fun w => f w ||| g w) (x ||| y) := fun w => by
  show f w ||| g w = _
  rw [hf, hg, BitVec.and_or_distrib_left]

end SelectsBits

/-- `encode` gives an instruction of the row the row's opcode, the word's bits in the row's fields, and the extension
words. -/
def Row.EncodesBack (r : Row) : Prop :=
  ∀ w a0 a1, encode (r.make w a0 a1) = stepWord r.op (w &&& r.fieldBits) :: [a0, a1].take r.format.extWords

theorem Row.EncodesBack.fields {op : BitVec 8} {format : Format} {bits : Word} {make : Word → Word → Word → Instr}
    {fields : Word → Word} (hs : SelectsBits fields bits)
    (he : ∀ w a0 a1, encode (make w a0 a1) = stepWord op (fields w) :: [a0, a1].take format.extWords := by
      exact fun _ _ _ => rfl) : Row.EncodesBack ⟨op, format, bits, make⟩ := fun w a0 a1 => by
  rw [he, hs]

theorem Row.EncodesBack.noFields {op : BitVec 8} {format : Format} {make : Word → Word → Word → Instr}
    (he : ∀ w a0 a1, encode (make w a0 a1) = stepWord op 0 :: [a0, a1].take format.extWords := by
      exact fun _ _ _ => rfl) : Row.EncodesBack ⟨op, format, 0, make⟩ := .fields .zero he

/-- The two halves of `ENC.INIT`'s extension word make the word (R101). -/
theorem place_halves (a : Word) : place (a.extractLsb' 0 16) 0 ||| place (a.extractLsb' 16 16) 16 = a := by
  rw [place_extractLsb', place_extractLsb', ← BitVec.and_or_distrib_left]
  exact BitVec.and_allOnes

/-! One entry for each row of R104, in its order: the fields the row has. -/

theorem rowsTick_encodesBack : ∀ r ∈ rowsTick, r.EncodesBack := by
  simp only [rowsTick, List.forall_mem_cons]
  exact ⟨.noFields, .noFields, .noFields, .noFields, .fields (.or (.field 0 2) (.bit 8)), .fields (.field 0 2),
    .fields (.field 0 2), List.forall_mem_nil _⟩

theorem rowsSampler_encodesBack : ∀ r ∈ rowsSampler, r.EncodesBack := by
  simp only [rowsSampler, List.forall_mem_cons]
  exact ⟨.noFields, .noFields, .noFields, .noFields, .fields (.field 0 16), .fields (.field 0 2),
    .fields (.field 0 2), .noFields, .noFields, List.forall_mem_nil _⟩

theorem rowsProtection_encodesBack : ∀ r ∈ rowsProtection, r.EncodesBack := by
  simp only [rowsProtection, List.forall_mem_cons]
  exact ⟨.noFields, .fields (.bit 0), .noFields, List.forall_mem_nil _⟩

theorem rowsEncoder_encodesBack : ∀ r ∈ rowsEncoder, r.EncodesBack := by
  simp only [rowsEncoder, List.forall_mem_cons]
  exact ⟨.fields (.or (.or (.bit 0) (.bit 1)) (.bit 2)) fun _ a0 _ => congrArg ([_, ·]) (place_halves a0),
    .noFields, .noFields, .noFields, .noFields, .noFields, .noFields, .noFields, List.forall_mem_nil _⟩

theorem rowsButton_encodesBack : ∀ r ∈ rowsButton, r.EncodesBack := by
  simp only [rowsButton, List.forall_mem_cons]
  exact ⟨.fields (.or (.or (.or (.field 0 3) (.field 4 4)) (.field 8 4)) (.bit 12)), .noFields,
    .fields (.field 0 3), .noFields, .fields (.field 0 3), .fields (.field 0 3), List.forall_mem_nil _⟩

theorem rowsEvent_encodesBack : ∀ r ∈ rowsEvent, r.EncodesBack := by
  simp only [rowsEvent, List.forall_mem_cons]
  exact ⟨.noFields, .fields (.field 0 12), .noFields, .noFields, .fields (.bit 0), .fields (.bit 0), .noFields,
    .fields (.or (.or (.bit 0) (.field 4 4)) (.field 8 4)), .noFields, List.forall_mem_nil _⟩

theorem opcodeTable_encodesBack : ∀ r ∈ opcodeTable, r.EncodesBack := by
  simp only [opcodeTable, List.forall_mem_append]
  exact ⟨⟨⟨⟨⟨rowsTick_encodesBack, rowsSampler_encodesBack⟩, rowsProtection_encodesBack⟩, rowsEncoder_encodesBack⟩,
    rowsButton_encodesBack⟩, rowsEvent_encodesBack⟩

theorem decodeIllegal_ne_step (w : Word) (ws rest : List Word) (i : Instr) : decodeIllegal w ws ≠ .step i rest := by
  unfold decodeIllegal
  split <;> nofun

/-- A legal step word with the extension words of its row is what `encode` gives its instruction. -/
theorem encode_make_of_legal {r : Row} {w : Word} {ext : List Word} (hr : rowOf (opOf w) = some r)
    (hw : w &&& r.reserved = 0) (hl : ext.length = r.format.extWords) :
    encode (r.make w (ext.getD 0 0) (ext.getD 1 0)) = w :: ext := by
  obtain ⟨hmem, hop⟩ := rowOf_spec hr
  rw [opcodeTable_encodesBack r hmem, hop, stepWord_of_reserved_zero hw, ← hl,
    take_getD_of_length_le_two (hl ▸ extWords_le_two r.format)]

theorem eq_encode_of_decode {ws rest : List Word} {i : Instr} (h : decode ws = .step i rest) :
    ws = encode i ++ rest := by
  cases ws with
  | nil => cases h
  | cons w ws =>
    obtain ⟨r, hr, hw, hd⟩ | hd := decode_cases w ws
    · obtain ⟨ext, hl, rfl, rfl⟩ := decodeExt_eq_step (hd.symm.trans h)
      rw [encode_make_of_legal hr hw hl, List.cons_append]
    · exact absurd (hd.symm.trans h) (decodeIllegal_ne_step w ws rest i)

/-- R105: a word that fits no row of the table is illegal. -/
theorem decode_of_no_row {w : Word} (rest : List Word)
    (h : ∀ r ∈ opcodeTable, r.op = opOf w → w &&& r.reserved ≠ 0) : decode (w :: rest) = decodeIllegal w rest := by
  obtain ⟨r, hr, hw, -⟩ | hd := decode_cases w rest
  · obtain ⟨hmem, hop⟩ := rowOf_spec hr
    exact absurd hw (h r hmem hop)
  · exact hd

end Sys2Proof

namespace Sys2Proof.Machine

/-! ## Decoding an encoded instruction -/

/-- The words of an instruction decode to it where its operand bits fit in the fields of its opcode's row and the row
reads them back. -/
theorem decodesTo_of_row {i : Instr} {op : BitVec 8} {fields : Word} {ext : List Word} {format : Format} {bits : Word}
    {make : Word → Word → Word → Instr} (he : encode i = stepWord op fields :: ext)
    (hr : rowOf op = some ⟨op, format, bits, make⟩) (hf : FitsIn fields bits) (hl : ext.length = format.extWords)
    (hm : make (stepWord op fields) (ext.getD 0 0) (ext.getD 1 0) = i) : DecodesTo (encode i) i := by
  intro rest
  have hbits : opOf fields = 0 := by
    rw [← hf, opOf_and, opcodeTable_fieldBits _ (rowOf_spec hr).1]
    exact BitVec.and_zero
  have hrow : rowOf (opOf (stepWord op fields)) = some ⟨op, format, bits, make⟩ := by
    rw [opOf_stepWord op fields hbits, hr]
  rw [he, List.cons_append, decode_of_row _ hrow (stepWord_and_reserved op hf), decodeExt_append _ _ rest hl]
  exact congrArg (Decoded.step · rest) hm

/-- R104, by the layout of the row: no operand field, one field or flag at bit 0, and the four rows with more. -/
theorem decodesTo_encode : ∀ i : Instr, DecodesTo (encode i) i
  | .tckInit _ | .tckNow | .tckElapsed _ | .tckDelay _ | .smpInit _ _ | .smpStart | .smpReady | .smpClear | .smpDmaen
  | .smpDmadis | .prtTick | .motGet | .encStart | .encStop | .encReset | .encCount | .encDir | .encUpdate | .encRpm _
  | .btnMinit | .btnScan | .evTick | .evDmairq | .evDmate | .evEncirq | .evReset =>
    decodesTo_of_row rfl rfl .zero rfl rfl
  | .tmrStart x | .tmrExpired x | .smpRdcell x | .smpGetf x | .smpClrf x | .btnAdd x | .btnTake x | .btnPressed x
  | .evSample x => decodesTo_of_row rfl rfl (.place x rfl) rfl (by simp)
  | .motSet v1 | .evQa v1 | .evQb v1 => decodesTo_of_row rfl rfl (.placeBit v1 rfl) rfl (by simp)
  | .tmrInit t ar _ =>
    decodesTo_of_row rfl rfl (.or (.place t rfl) (.placeBit ar rfl)) rfl (by simp [BitVec.extractLsb'_or])
  | .encInit polA polB uie _ _ =>
    decodesTo_of_row rfl rfl (.or (.or (.placeBit polA rfl) (.placeBit polB rfl)) (.placeBit uie rfl)) rfl
      (by simp [BitVec.extractLsb'_or])
  | .btnInit b pin port al =>
    decodesTo_of_row rfl rfl (.or (.or (.or (.place b rfl) (.place pin rfl)) (.place port rfl)) (.placeBit al rfl)) rfl
      (by simp [BitVec.extractLsb'_or])
  | .evPin v1 pin port =>
    decodesTo_of_row rfl rfl (.or (.or (.placeBit v1 rfl) (.place pin rfl)) (.place port rfl)) rfl
      (by simp [BitVec.extractLsb'_or])

/-! ## One step, by what stands at the head of the trace -/

theorem step_of_idle {s : State} (h : s.inProgress = none) : step s = runTrace s := by
  simp only [step, nextStep, h]

theorem runTrace_of_step {s : State} {i : Instr} {rest : List Word} (hd : decode s.trace = .step i rest)
    (hfree : issuedByHost i = true → s.tick.delay.active = false) : runTrace s = exec i { s with trace := rest } := by
  have hgo : (s.tick.delay.active && issuedByHost i) = false := by
    cases hi : issuedByHost i
    · exact Bool.and_false _
    · rw [hfree hi, Bool.false_and]
  simp only [runTrace, hd, hgo, Bool.false_eq_true, if_false]

theorem runTrace_of_illegal {s : State} {w : Word} {rest : List Word} (hd : decode s.trace = decodeIllegal w rest)
    (hfree : s.tick.delay.active = false) :
    runTrace s = if isEventWord w then .refused .illFormedEvent
      else raise { s with trace := rest } .invalidArgument := by
  unfold decodeIllegal at hd
  split at hd
  next hw => simp only [runTrace, hd, hw, if_true]
  next hw => simp only [runTrace, hd, hw, hfree, Bool.false_eq_true, if_false]

theorem runTrace_of_truncated {s : State} (hd : decode s.trace = .truncated) :
    runTrace s = .refused .truncatedStep := by
  simp only [runTrace, hd]

/-! ## Operands the well-formedness check refuses -/

theorem execTckInit_raises {fCpu : Word} (s : State) (h : (Instr.tckInit fCpu).wellFormed = false) :
    execTckInit fCpu s = raise s .invalidArgument :=
  if_pos (Nat.lt_of_not_le (of_decide_eq_false h))

/-- The checks of R106 are those of `SMP.INIT` that do not read `MEM_REGION` (R150). -/
theorem execSmpInit_raises {base len : Word} (s : State) (h : (Instr.smpInit base len).wellFormed = false) :
    execSmpInit base len s = raise s .invalidArgument := by
  have hcheck : smpInitOperandsOk base len s
      = ((Instr.smpInit base len).wellFormed && inRegion s.cfg.memRegion base.toNat (base.toNat + 2 * len.toNat)) := rfl
  rw [h, Bool.false_and] at hcheck
  exact if_pos hcheck

theorem execSmpGetf_raises {f : BitVec 2} (s : State) (h : (Instr.smpGetf f).wellFormed = false) :
    execSmpGetf f s = raise s .invalidArgument := by
  obtain rfl : f = 3 := not_not.mp (of_decide_eq_false h)
  rfl

theorem execSmpClrf_raises {f : BitVec 2} (s : State) (h : (Instr.smpClrf f).wellFormed = false) :
    execSmpClrf f s = raise s .invalidArgument := by
  obtain rfl : f = 3 := not_not.mp (of_decide_eq_false h)
  rfl

theorem execEncInit_raises {polA polB uie : Bool} {cpr maxCount : Half} (s : State)
    (h : (Instr.encInit polA polB uie cpr maxCount).wellFormed = false) :
    execEncInit polA polB uie cpr maxCount s = raise s .invalidArgument := by
  have hzero : cpr = 0 ∨ maxCount = 0 := by
    simpa [Instr.wellFormed, Decidable.imp_iff_not_or] using h
  exact if_pos hzero

/-- R106, R240: no state makes an ill-formed operand acceptable. -/
theorem exec_raises_of_not_wellFormed {i : Instr} (s : State) (h : i.wellFormed = false) :
    exec i s = raise s .invalidArgument := by
  cases i with
  | tckInit _ => exact execTckInit_raises s h
  | smpInit _ _ => exact execSmpInit_raises s h
  | smpGetf _ => exact execSmpGetf_raises s h
  | smpClrf _ => exact execSmpClrf_raises s h
  | encInit _ _ _ _ _ => exact execEncInit_raises s h
  | _ => cases h

/-! ## The statements -/

/-- Settles O1: row by row, the fields a row reads are the operands `encode` wrote. -/
theorem decodeOfEncode : Obligations.DecodeOfEncode := decodesTo_encode

/-- Settles O2: row by row, `encode` writes back the bits its row reads, and a legal word has no others. -/
theorem encodeOfDecode : Obligations.EncodeOfDecode := fun _ _ _ h => eq_encode_of_decode h

/-- Settles O4: the word fits no row, so the decoder answers by its unit alone. -/
theorem illegalWordOutcome : Obligations.IllegalWordOutcome := by
  intro s w rest hidle hfree htrace hno
  have hd : decode s.trace = decodeIllegal w rest := by rw [htrace, decode_of_no_row rest hno]
  rw [step_of_idle hidle, runTrace_of_illegal hd hfree]
  simp only [isEventWord, decide_eq_true_eq, raise]

/-- Settles O5: the word decodes by its row, whose extension words are not there. -/
theorem truncatedStepRefused : Obligations.TruncatedStepRefused := by
  intro s w rest r hidle htrace hr hw hlt
  have hd : decode s.trace = .truncated := by rw [htrace, decode_of_row rest hr hw, decodeExt_truncated r w hlt]
  rw [step_of_idle hidle, runTrace_of_truncated hd]

/-- Settles O6: the words decode as those of any instruction, and the command's own check is the one that failed. -/
theorem illFormedOperandsRaise : Obligations.IllFormedOperandsRaise :=
  fun i s h => ⟨decodesTo_encode i, exec_raises_of_not_wellFormed s h⟩

/-- Settles O3, by running the decoder on each word. -/
theorem specWordsDecode : Obligations.SpecWordsDecode :=
  ⟨by decide, by decide, by decide, by decide, by decide, by decide, by decide, by decide, by decide⟩

/-- Settles O7: with no command in progress a step is the trace's, and the host is free to issue it. -/
theorem stepRunsDecodedInstruction : Obligations.StepRunsDecodedInstruction := by
  intro s i rest hidle hd hfree
  rw [step_of_idle hidle, runTrace_of_step hd hfree]

end Sys2Proof.Machine

/-! PROOFS. The tick and the software timers (40_tick.md): what each instruction of the unit does, case by case, then
the ticks of a hold (R133) and the period of an auto-reload timer (R138). -/

namespace Sys2Proof.Machine

/-! ## Runs of instructions -/

theorem execAll_cons {i : Instr} {is : List Instr} {s t : State} (h : exec i s = .next t) :
    execAll (i :: is) s = execAll is t := by
  rw [execAll, h]

theorem execAll_append {is js : List Instr} {s t : State} (h : execAll is s = .next t) :
    execAll (is ++ js) s = execAll js t := by
  induction is generalizing s with
  | nil =>
    cases h
    rfl
  | cons i is ih =>
    rw [List.cons_append, execAll]
    rw [execAll] at h
    split at h
    next u hu => exact ih h
    next => cases h
    next => cases h

/-- A spec's encoding line is the instruction's own words. -/
theorem decodesTo_of_encode_eq {i : Instr} {ws : List Word} (h : encode i = ws) : DecodesTo ws i :=
  h ▸ decodesTo_encode i

/-! ## The tick commands -/

/-- R130: 1000 Hz is enough, and no 32-bit frequency is too much for the 24 bits of the reload value. -/
theorem reload_le (f : Word) : f.toNat / 1000 - 1 ≤ 0xFFFFFF := by
  have hf := f.isLt
  omega

theorem exec_tckInit_of_le {f : Word} (s : State) (h : 1000 ≤ f.toNat) :
    exec (.tckInit f) s = .next ({ s with tick := { s.tick with
      systReload := BitVec.ofNat 24 (f.toNat / 1000 - 1), systEn := true } }.respond .success 0) :=
  (if_neg (Nat.not_lt.mpr h)).trans (if_neg (Nat.not_lt.mpr (reload_le f)))

theorem exec_tckElapsed (since : Word) (s : State) :
    exec (.tckElapsed since) s = .next (s.respond .success (s.tick.ms - since)) := rfl

/-- R9, R132: the difference of the words is the difference of their values, modulo `2^32`. -/
theorem sub_eq_ofInt (a b : Word) : a - b = BitVec.ofInt 32 ((a.toNat : Int) - (b.toNat : Int)) := by
  refine BitVec.eq_of_toNat_eq ?_
  have ha := a.isLt
  have hb := b.isLt
  rw [BitVec.toNat_sub, BitVec.toNat_ofInt]
  omega

/-! ## The hold -/

theorem holdOver_of_idle {s : State} (h : s.tick.delay.active = false) : holdOver s = false := by
  rw [holdOver, h, Bool.false_and]

theorem holdOver_of_active {s : State} (h : s.tick.delay.active = true) :
    holdOver s = decide (s.tick.delay.n ≤ s.tick.ms - s.tick.delay.start) := by
  rw [holdOver, h, Bool.true_and]

theorem releaseHold_of_not_over {s : State} (h : holdOver s = false) : releaseHold s = s :=
  if_neg (Bool.eq_false_iff.mp h)

theorem releaseHold_of_over {s : State} (h : holdOver s = true) :
    releaseHold s
      = { s with tick := { s.tick with delay := { s.tick.delay with active := false } } }.respond .success 0 :=
  if_pos h

theorem releaseHold_systEn (s : State) : (releaseHold s).tick.systEn = s.tick.systEn := by
  rcases releaseHold_cases s with ⟨-, h⟩ | ⟨-, h⟩ <;> rw [h]

/-- The state with a `TCK.DELAY` of `n` ticks begun and not yet tested (R133). -/
def State.holding (s : State) (n : Word) : State :=
  { s with tick := { s.tick with delay := { active := true, start := s.tick.ms, n := n } } }

theorem exec_tckDelay (n : Word) (s : State) : exec (.tckDelay n) s = .next (releaseHold (s.holding n)) := rfl

/-! ## The tick -/

/-- The state with `k` ticks counted (R137) and nothing else changed. -/
def State.ticked (s : State) (k : Nat) : State :=
  { s with tick := { s.tick with ms := s.tick.ms + BitVec.ofNat 32 k } }

theorem State.ticked_zero (s : State) : s.ticked 0 = s := by
  rw [State.ticked, BitVec.add_zero]

theorem State.ticked_ticked (s : State) (j k : Nat) : (s.ticked j).ticked k = s.ticked (j + k) := by
  simp only [State.ticked, BitVec.ofNat_add, BitVec.add_assoc]

theorem exec_evTick {s : State} (h : s.tick.systEn = true) : exec .evTick s = .next (releaseHold (s.ticked 1)) :=
  if_pos h

theorem exec_evTick_of_off {s : State} (h : s.tick.systEn = false) : exec .evTick s = .refused .eventNotEnabled :=
  if_neg (Bool.eq_false_iff.mp h)

theorem exec_evTick_of_not_over {s : State} (h : s.tick.systEn = true) (hover : holdOver (s.ticked 1) = false) :
    exec .evTick s = .next (s.ticked 1) := by
  rw [exec_evTick h, releaseHold_of_not_over hover]

/-- Ticks that end no hold only count. -/
theorem execAll_ticks_of_not_over {s : State} (k : Nat) (h : s.tick.systEn = true)
    (hover : ∀ j, j ≤ k → holdOver (s.ticked j) = false) :
    execAll (List.replicate k .evTick) s = .next (s.ticked k) := by
  induction k with
  | zero => rw [State.ticked_zero]; rfl
  | succ k ih =>
    have hrun := ih fun j hj => hover j (Nat.le_succ_of_le hj)
    have hlast : exec .evTick (s.ticked k) = .next (s.ticked (k + 1)) := by
      rw [← State.ticked_ticked]
      exact exec_evTick_of_not_over h (by rw [State.ticked_ticked]; exact hover (k + 1) le_rfl)
    rw [List.replicate_succ', execAll_append hrun, execAll_cons hlast]
    rfl

/-- R137: every tick counts, whether or not it ends a hold. -/
theorem execAll_ticks {s : State} (k : Nat) (h : s.tick.systEn = true) :
    ∃ t, execAll (List.replicate k .evTick) s = .next t ∧ t.tick.ms = s.tick.ms + BitVec.ofNat 32 k := by
  induction k generalizing s with
  | zero => exact ⟨s, rfl, (BitVec.add_zero _).symm⟩
  | succ k ih =>
    obtain ⟨t, hrun, hms⟩ := ih (s := releaseHold (s.ticked 1)) ((releaseHold_systEn _).trans h)
    refine ⟨t, (execAll_cons (exec_evTick h)).trans hrun, ?_⟩
    calc t.tick.ms = (s.ticked 1).tick.ms + BitVec.ofNat 32 k := by rw [hms, (releaseHold_quiet _).ms]
      _ = ((s.ticked 1).ticked k).tick.ms := rfl
      _ = s.tick.ms + BitVec.ofNat 32 (k + 1) := by rw [State.ticked_ticked, Nat.add_comm]; rfl

/-! ## The ticks of a hold -/

/-- R133: a hold of `n` ticks is over with the `n`-th. -/
theorem holdOver_holding_ticked {k : Nat} (n : Word) (s : State) (hk : k < 2 ^ 32) :
    holdOver ((s.holding n).ticked k) = decide (n.toNat ≤ k) := by
  have hsince : s.tick.ms + BitVec.ofNat 32 k - s.tick.ms = BitVec.ofNat 32 k := by
    rw [BitVec.add_comm, BitVec.add_sub_cancel]
  rw [holdOver_of_active rfl]
  simp only [State.ticked, State.holding, hsince, BitVec.le_def, BitVec.toNat_ofNat, Nat.mod_eq_of_lt hk]

theorem exec_tckDelay_zero (s : State) :
    exec (.tckDelay 0) s = .next ({ s with
      tick := { s.tick with delay := { active := false, start := s.tick.ms, n := 0 } } }.respond .success 0) := by
  have hover : holdOver (s.holding 0) = true := by
    rw [← (s.holding 0).ticked_zero, holdOver_holding_ticked 0 s (by decide)]
    rfl
  rw [exec_tckDelay, releaseHold_of_over hover]
  rfl

theorem exec_tckDelay_of_ne_zero {n : Word} (s : State) (h : n ≠ 0) :
    exec (.tckDelay n) s = .next (s.holding n) := by
  have hpos : 0 < n.toNat := Nat.pos_of_ne_zero fun h0 => h (BitVec.eq_of_toNat_eq h0)
  have hover : holdOver (s.holding n) = false := by
    rw [← (s.holding n).ticked_zero, holdOver_holding_ticked n s (by decide)]
    exact decide_eq_false (Nat.not_le.mpr hpos)
  rw [exec_tckDelay, releaseHold_of_not_over hover]

/-- R133: after fewer than `n` ticks the host is still held. -/
theorem execAll_tckDelay_of_lt {n : Word} {k : Nat} {s : State} (h : s.tick.systEn = true) (hk : k < n.toNat) :
    execAll (.tckDelay n :: List.replicate k .evTick) s = .next ((s.holding n).ticked k) := by
  have hne : n ≠ 0 := by
    rintro rfl
    exact absurd hk (Nat.not_lt_zero k)
  rw [execAll_cons (exec_tckDelay_of_ne_zero s hne)]
  refine execAll_ticks_of_not_over k h fun j hj => ?_
  have hjn : j < n.toNat := Nat.lt_of_le_of_lt hj hk
  rw [holdOver_holding_ticked n s (Nat.lt_trans hjn n.isLt)]
  exact decide_eq_false (Nat.not_le.mpr hjn)

/-- R133: with the `n`-th tick the `TCK.DELAY` has returned. -/
theorem execAll_tckDelay_complete (n : Word) {s : State} (h : s.tick.systEn = true) :
    execAll (.tckDelay n :: List.replicate n.toNat .evTick) s = .next ({ s with tick := { s.tick with
      ms := s.tick.ms + n, delay := { active := false, start := s.tick.ms, n := n } } }.respond .success 0) := by
  cases hn : n.toNat with
  | zero =>
    obtain rfl : n = 0 := BitVec.eq_of_toNat_eq hn
    have hms : s.tick.ms + 0 = s.tick.ms := BitVec.add_zero _
    rw [execAll_cons (exec_tckDelay_zero s), hms]
    rfl
  | succ m =>
    have hrun := execAll_tckDelay_of_lt (k := m) h (by omega : m < n.toNat)
    have hover : holdOver (((s.holding n).ticked m).ticked 1) = true := by
      rw [State.ticked_ticked, ← hn, holdOver_holding_ticked n s n.isLt]
      exact decide_eq_true le_rfl
    have hlast := exec_evTick (s := (s.holding n).ticked m) h
    rw [releaseHold_of_over hover, State.ticked_ticked, ← hn] at hlast
    rw [List.replicate_succ', ← List.cons_append, execAll_append hrun, execAll_cons hlast]
    simp only [execAll, State.ticked, State.holding, BitVec.ofNat_toNat, BitVec.setWidth_eq]

/-! ## The timers -/

theorem exec_tmrExpired (t : BitVec 2) (s : State) :
    exec (.tmrExpired t) s = .next ((timerExpired t s).2.respond .success (flagWord (timerExpired t s).1)) := rfl

section
variable {t : BitVec 2} {s : State}

theorem exec_tmrExpired_of_disabled (h : (s.timer t).enabled = false) :
    exec (.tmrExpired t) s = .next (s.respond .success 0) := by
  have htest : timerExpired t s = (false, s) := if_pos h
  rw [exec_tmrExpired, htest]
  rfl

theorem exec_tmrExpired_of_waiting (h : (s.timer t).enabled = true)
    (hlt : s.tick.ms - (s.timer t).startMs < (s.timer t).intervalMs) :
    exec (.tmrExpired t) s = .next (s.respond .success 0) := by
  have htest : timerExpired t s = (false, s) := by
    simp [timerExpired, h, BitVec.not_le.mpr hlt]
  rw [exec_tmrExpired, htest]
  rfl

theorem exec_tmrExpired_of_reload (h : (s.timer t).enabled = true)
    (hle : (s.timer t).intervalMs ≤ s.tick.ms - (s.timer t).startMs) (har : (s.timer t).autoReload = true) :
    exec (.tmrExpired t) s
      = .next ((s.setTimer t { s.timer t with startMs := s.tick.ms }).respond .success 1) := by
  have htest : timerExpired t s = (true, s.setTimer t { s.timer t with startMs := s.tick.ms }) := by
    simp [timerExpired, h, hle, har]
  rw [exec_tmrExpired, htest]
  rfl

theorem exec_tmrExpired_of_oneShot (h : (s.timer t).enabled = true)
    (hle : (s.timer t).intervalMs ≤ s.tick.ms - (s.timer t).startMs) (har : (s.timer t).autoReload = false) :
    exec (.tmrExpired t) s
      = .next ((s.setTimer t { s.timer t with enabled := false }).respond .success 1) := by
  have htest : timerExpired t s = (true, s.setTimer t { s.timer t with enabled := false }) := by
    simp [timerExpired, h, hle, har]
  rw [exec_tmrExpired, htest]
  rfl

end

/-! ## The period of an auto-reload timer -/

/-- The systick counts, no hold is in progress, and timer `n` runs with auto-reload and period `p`, `d` ticks after its
start. -/
structure Periodic (n : BitVec 2) (p : Word) (d : Nat) (s : State) : Prop where
  systEn : s.tick.systEn = true
  free : s.tick.delay.active = false
  enabled : (s.timer n).enabled = true
  autoReload : (s.timer n).autoReload = true
  interval : (s.timer n).intervalMs = p
  since : (s.tick.ms - (s.timer n).startMs).toNat = d

/-- An answer leaves the timer alone. -/
theorem Periodic.respond {n : BitVec 2} {p : Word} {d : Nat} {s : State} (h : Periodic n p d s) (st : Status)
    (rsp : Word) : Periodic n p d (s.respond st rsp) :=
  ⟨h.systEn, h.free, h.enabled, h.autoReload, h.interval, h.since⟩

/-- From `s` the instructions run to a state with the timer `d` ticks after its start, and `c` of the answers on the way
are 1. -/
def RunsReporting (n : BitVec 2) (p : Word) (is : List Instr) (s : State) (d c : Nat) : Prop :=
  ∃ t rs, execAll is s = .next t ∧ Periodic n p d t ∧ t.responses = rs ++ s.responses
    ∧ rs.count { st := .success, rsp := 1 } = c

section
variable {n : BitVec 2} {p : Word} {d : Nat} {s : State}

theorem RunsReporting.nil (h : Periodic n p d s) : RunsReporting n p [] s d 0 :=
  ⟨s, [], rfl, h, rfl, rfl⟩

/-- One run after another: the answers of 1 add up. -/
theorem RunsReporting.append {is js : List Instr} {d' c c' : Nat} (h : RunsReporting n p is s d c)
    (hjs : ∀ t, Periodic n p d t → RunsReporting n p js t d' c') : RunsReporting n p (is ++ js) s d' (c + c') := by
  obtain ⟨t, rs, hrun, ht, hrs, hc⟩ := h
  obtain ⟨u, rs', hrun', hu, hrs', hc'⟩ := hjs t ht
  refine ⟨u, rs' ++ rs, (execAll_append hrun).trans hrun', hu, ?_, ?_⟩
  · rw [hrs', hrs, List.append_assoc]
  · rw [List.count_append, hc, hc', Nat.add_comm]

/-- R137: a tick within the period takes the timer one tick on. -/
theorem Periodic.tick (h : Periodic n p d s) (hd : d < p.toNat) : RunsReporting n p [.evTick] s (d + 1) 0 := by
  have hover : holdOver (s.ticked 1) = false := holdOver_of_idle h.free
  have hsince : ((s.ticked 1).tick.ms - (s.timer n).startMs).toNat = d + 1 := by
    have hp := p.isLt
    have hs := h.since
    simp only [State.ticked]
    bv_omega
  exact ⟨s.ticked 1, [], execAll_cons (exec_evTick_of_not_over h.systEn hover),
    ⟨h.systEn, h.free, h.enabled, h.autoReload, h.interval, hsince⟩, rfl, rfl⟩

/-- R136: before the period is over a test answers 0 and changes nothing. -/
theorem Periodic.test_of_lt (h : Periodic n p d s) (hd : d < p.toNat) :
    RunsReporting n p [.tmrExpired n] s d 0 := by
  have hlt : s.tick.ms - (s.timer n).startMs < (s.timer n).intervalMs := by
    rw [BitVec.lt_def, h.since, h.interval]
    exact hd
  exact ⟨_, [⟨.success, 0⟩], execAll_cons (exec_tmrExpired_of_waiting h.enabled hlt), h.respond _ _, rfl, by decide⟩

/-- R136: when the period is over a test answers 1 and starts the next one. -/
theorem Periodic.test_of_eq (h : Periodic n p p.toNat s) : RunsReporting n p [.tmrExpired n] s 0 1 := by
  have hle : (s.timer n).intervalMs ≤ s.tick.ms - (s.timer n).startMs := by
    rw [BitVec.le_def, h.since, h.interval]
  have hrestarted : Periodic n p 0 (s.setTimer n { s.timer n with startMs := s.tick.ms }) := by
    constructor <;> simp [h.systEn, h.free, h.enabled, h.autoReload, h.interval]
  exact ⟨_, [⟨.success, 1⟩], execAll_cons (exec_tmrExpired_of_reload h.enabled hle h.autoReload),
    hrestarted.respond _ _, rfl, by decide⟩

theorem Periodic.tests_of_lt (h : Periodic n p d s) (hd : d < p.toNat) (k : Nat) :
    RunsReporting n p (List.replicate k (.tmrExpired n)) s d 0 := by
  induction k generalizing s with
  | zero => exact .nil h
  | succ k ih => exact (h.test_of_lt hd).append fun t ht => ih ht

/-- The first test after a tick answers 1 when that tick was the period's last. -/
theorem Periodic.test (hp : 0 < p.toNat) (h : Periodic n p d s) (hd : d ≤ p.toNat) :
    RunsReporting n p [.tmrExpired n] s (d % p.toNat) (d / p.toNat) := by
  rcases Nat.lt_or_eq_of_le hd with hlt | rfl
  · rw [Nat.mod_eq_of_lt hlt, Nat.div_eq_of_lt hlt]
    exact h.test_of_lt hlt
  · rw [Nat.mod_self, Nat.div_self hp]
    exact h.test_of_eq

/-- A tick and the tests after it, at least one: all but the first answer 0. -/
theorem Periodic.round (hp : 0 < p.toNat) (h : Periodic n p d s) (hd : d < p.toNat) (k : Nat) :
    RunsReporting n p (.evTick :: List.replicate (k + 1) (.tmrExpired n)) s
      ((d + 1) % p.toNat) ((d + 1) / p.toNat) := by
  have hrun := (h.tick hd).append fun t ht => (ht.test hp hd).append
    fun u hu => hu.tests_of_lt (Nat.mod_lt _ hp) k
  rwa [Nat.add_zero, Nat.zero_add] at hrun

/-- R138: the answers of 1 over any number of rounds, by induction on the rounds from any point of the period. -/
theorem Periodic.rounds (hp : 0 < p.toNat) (h : Periodic n p d s) (hd : d < p.toNat) (tests : List Nat) :
    RunsReporting n p (tests.flatMap fun k => .evTick :: List.replicate (k + 1) (.tmrExpired n)) s
      ((d + tests.length) % p.toNat) ((d + tests.length) / p.toNat) := by
  induction tests generalizing s d with
  | nil =>
    rw [List.length_nil, Nat.add_zero, Nat.mod_eq_of_lt hd, Nat.div_eq_of_lt hd]
    exact .nil h
  | cons k tests ih =>
    have hrun := (h.round hp hd k).append fun t ht => ih ht (Nat.mod_lt _ hp)
    have hmod : ((d + 1) % p.toNat + tests.length) % p.toNat = (d + (k :: tests).length) % p.toNat := by
      rw [Nat.mod_add_mod, List.length_cons]
      congr 1
      omega
    have hdiv : (d + 1) / p.toNat + ((d + 1) % p.toNat + tests.length) / p.toNat
        = (d + (k :: tests).length) / p.toNat := by
      rw [← Nat.mul_add_div hp, ← Nat.add_assoc, Nat.div_add_mod, List.length_cons]
      congr 1
      omega
    rwa [hmod, hdiv] at hrun

end

/-! ## The statements -/

/-- Settles O20: the two arms of the frequency check; the third cannot be reached. -/
theorem tckInitSetsReload : Obligations.TckInitSetsReload := fun f s =>
  ⟨decodesTo_of_encode_eq rfl, fun h => if_pos h, fun h => ⟨reload_le f, exec_tckInit_of_le s h⟩⟩

/-- Settles O21: both read the count and answer. -/
theorem tckNowAndElapsedRead : Obligations.TckNowAndElapsedRead := fun since s =>
  ⟨decodesTo_of_encode_eq rfl, decodesTo_of_encode_eq rfl, rfl, by rw [exec_tckElapsed, sub_eq_ofInt]⟩

/-- Settles O24: the words are the instructions' own, and each writes one slot. -/
theorem tmrInitAndStart : Obligations.TmrInitAndStart := fun t ar interval s =>
  ⟨decodesTo_of_encode_eq (by rw [BitVec.or_assoc]; rfl), decodesTo_of_encode_eq rfl, rfl, rfl⟩

/-- Settles O25, by the four cases of the timer's test. -/
theorem tmrExpiredTestsAndReloads : Obligations.TmrExpiredTestsAndReloads := fun _ _ =>
  ⟨decodesTo_of_encode_eq rfl, exec_tmrExpired_of_disabled, exec_tmrExpired_of_waiting, exec_tmrExpired_of_reload,
    exec_tmrExpired_of_oneShot⟩

/-- Settles O26: a tick counts, and the hold it finds goes on or is over. -/
theorem evTickCounts : Obligations.EvTickCounts := by
  refine fun s => ⟨decodesTo_of_encode_eq rfl, fun hen hidle => ?_, fun hen hact hlt => ?_, fun hen hact hle => ?_,
    exec_evTick_of_off⟩
  · exact exec_evTick_of_not_over hen (holdOver_of_idle hidle)
  · have hover : holdOver (s.ticked 1) = false :=
      (holdOver_of_active (s := s.ticked 1) hact).trans (decide_eq_false (BitVec.not_le.mpr hlt))
    exact exec_evTick_of_not_over hen hover
  · have hover : holdOver (s.ticked 1) = true :=
      (holdOver_of_active (s := s.ticked 1) hact).trans (decide_eq_true hle)
    rw [exec_evTick hen, releaseHold_of_over hover]
    rfl

/-- R133: no host word is a step while the hold lasts. -/
theorem step_of_held {s : State} {i : Instr} {rest : List Word} (hact : s.tick.delay.active = true)
    (hidle : s.inProgress = none) (hd : decode s.trace = .step i rest) (hhost : issuedByHost i = true) :
    step s = .refused .hostHeld := by
  rw [step_of_idle hidle]
  simp only [runTrace, hd, hact, hhost, Bool.and_self, if_true]

/-- Settles O23: the hold's condition is that `n` ticks were counted since it began. -/
theorem tckDelayHoldsUntilElapsed : Obligations.TckDelayHoldsUntilElapsed := by
  refine fun n s => ⟨decodesTo_of_encode_eq rfl, fun hzero => ?_, exec_tckDelay_of_ne_zero s,
    fun k => execAll_tckDelay_of_lt, execAll_tckDelay_complete n, fun i rest => step_of_held, exec_evTick_of_off⟩
  subst hzero
  exact exec_tckDelay_zero s

/-- Settles O22: the ticks add up in `TICK_MS`, and the timer's rounds are counted from the start of its period. -/
theorem tickAndTimerLaws : Obligations.TickAndTimerLaws := by
  refine ⟨fun k s hen => ?_, fun n s tests hen hfree henabled hreload hstart hp => ?_⟩
  · obtain ⟨t, hrun, hms⟩ := execAll_ticks k.toNat hen
    have helapsed : t.tick.ms - s.tick.ms = k := by
      rw [hms, BitVec.ofNat_toNat, BitVec.setWidth_eq, BitVec.add_comm, BitVec.add_sub_cancel]
    exact ⟨t, hrun, by rw [exec_tckElapsed, helapsed]⟩
  · have hnow : Periodic n (s.timer n).intervalMs 0 s :=
      ⟨hen, hfree, henabled, hreload, rfl, by rw [hstart, BitVec.sub_self]; rfl⟩
    obtain ⟨t, rs, hrun, -, hrs, hc⟩ := hnow.rounds hp hp tests
    exact ⟨t, rs, hrun, hrs, by rw [hc, Nat.zero_add]⟩

end Sys2Proof.Machine

/-! PROOFS. The sampler (41_sampler.md): what each instruction of the unit does, case by case. -/

namespace Sys2Proof.Machine

/-! ## `SMP.INIT` -/

/-- R150: the operands a ring can be made of. The region is the spec's, byte by byte (R79). -/
def RingFits (base len : Word) (s : State) : Prop :=
  len.toNat ≠ 0 ∧ len.toNat % 2 = 0 ∧ len.toNat ≤ 65534 ∧ base.toNat % 2 = 0
    ∧ base.toNat + 2 * len.toNat ≤ 0x100000000
    ∧ ∀ x, base.toNat ≤ x → x < base.toNat + 2 * len.toNat → ∃ r ∈ s.cfg.memRegion, regionHas r x

theorem smpInitOperandsOk_iff (base len : Word) (s : State) :
    smpInitOperandsOk base len s = true ↔ RingFits base len s := by
  simp only [smpInitOperandsOk, Bool.and_eq_true, decide_eq_true_eq, inRegion_iff, RingFits, and_assoc]

section
variable {base len : Word} {s : State}

theorem exec_smpInit_of_not_fits (h : ¬ RingFits base len s) :
    exec (.smpInit base len) s = .next (s.respond .invalidArgument 0) :=
  if_pos (Bool.eq_false_iff.mpr (mt (smpInitOperandsOk_iff base len s).mp h))

/-- R150: with the stream off there is nothing to disable and no draw. -/
theorem exec_smpInit_of_off (h : RingFits base len s) (hoff : s.smp.dmaEn = false) :
    exec (.smpInit base len) s = .next ({ s with smp := s.smp.configured base len }.respond .success 0) := by
  have hok := (smpInitOperandsOk_iff base len s).mpr h
  simp [exec, execSmpInit, hok, hoff, complete_eq]

/-- R151: with the stream on the disable is a draw. -/
theorem exec_smpInit_of_on (h : RingFits base len s) (hon : s.smp.dmaEn = true) :
    exec (.smpInit base len) s = .next (
      if Config.drawBool s.draws then
        { s with smp := s.smp.configured base len, draws := s.draws + 1 }.respond .success 0
      else { s with draws := s.draws + 1 }.respond .peripheralBusy 0) := by
  have hok := (smpInitOperandsOk_iff base len s).mpr h
  cases hd : Config.drawBool s.draws <;>
    simp [exec, execSmpInit, hok, hon, hd, disableAttempt, drawBool, complete_eq, raise_eq]

end

/-! ## Start, cells and flags -/

section
variable {s : State}

theorem exec_smpStart_of_not_inited (h : s.smp.inited = false) :
    exec .smpStart s = .next (s.respond .uninitialized 0) := if_pos h

theorem exec_smpStart_of_inited (h : s.smp.inited = true) :
    exec .smpStart s = .next ({ s with smp := { s.smp with
      tcif := false, htif := false, teif := false, dmaEn := true
      widx := if s.smp.dmaEn then s.smp.widx else 0, adcOn := true, adcRun := true } }.respond .success 0) :=
  if_neg (by simp [h])

/-- R72: a half-word is its high byte times 256 plus its low byte. -/
theorem setWidth_append_bytes (hi lo : Byte) :
    (hi ++ lo : Half).setWidth 32 = BitVec.ofNat 32 (hi.toNat * 256 + lo.toNat) := by
  refine BitVec.eq_of_toNat_eq ?_
  rw [BitVec.toNat_setWidth, BitVec.toNat_ofNat, BitVec.toNat_append, ← Nat.shiftLeft_add_eq_or_of_lt lo.isLt,
    Nat.shiftLeft_eq]

theorem exec_smpRdcell_of_not_inited (i : BitVec 16) (h : s.smp.inited = false) :
    exec (.smpRdcell i) s = .next (s.respond .uninitialized 0) := if_pos h

theorem exec_smpRdcell_of_le {i : BitVec 16} (hin : s.smp.inited = true) (h : s.smp.n.toNat ≤ i.toNat) :
    exec (.smpRdcell i) s = .next (s.respond .invalidArgument 0) :=
  (if_neg (by simp [hin])).trans (if_pos (BitVec.le_def.mpr h))

/-- R157: an index below the length reads its cell. -/
theorem exec_smpRdcell_of_lt {i : BitVec 16} (hin : s.smp.inited = true) (h : i.toNat < s.smp.n.toNat)
    (ha : cellAddr s i.toNat + 1 < 0x100000000) :
    exec (.smpRdcell i) s = .next (s.respond .success (BitVec.ofNat 32
      ((Memory.byteAt s.mem (cellAddr s i.toNat + 1)).toNat * 256
        + (Memory.byteAt s.mem (cellAddr s i.toNat)).toNat))) := by
  have hlt : ¬ s.smp.n ≤ i := fun hle => Nat.not_le.mpr h (BitVec.le_def.mp hle)
  simp only [exec, execSmpRdcell, hin, hlt, Bool.true_eq_false, if_false, Memory.read16_isSome _ _ ha, complete_eq,
    setWidth_append_bytes]

/-! ## Enabling and disabling the stream -/

theorem exec_smpDmaen_of_not_inited (h : s.smp.inited = false) :
    exec .smpDmaen s = .next (s.respond .uninitialized 0) := if_pos h

/-- R158: with the stream on, or a flag set, an enable is refused silently. -/
theorem exec_smpDmaen_of_refused (hin : s.smp.inited = true) (h : (s.smp.dmaEn || s.smp.anyFlag) = true) :
    exec .smpDmaen s = .next (s.respond .success 0) :=
  (if_neg (by simp [hin])).trans (if_pos h)

theorem exec_smpDmaen_of_clear (hin : s.smp.inited = true) (h : (s.smp.dmaEn || s.smp.anyFlag) = false) :
    exec .smpDmaen s = .next ({ s with smp := { s.smp with dmaEn := true, widx := 0 } }.respond .success 0) :=
  (if_neg (by simp [hin])).trans (if_neg (by simp [h]))

/-- R158: the three flags that forbid an enable. -/
theorem Sampler.anyFlag_iff (p : Sampler) : p.anyFlag = true ↔ p.tcif = true ∨ p.htif = true ∨ p.teif = true := by
  simp only [Sampler.anyFlag, Bool.or_eq_true, or_assoc]

theorem exec_smpDmadis_of_off (h : s.smp.dmaEn = false) : exec .smpDmadis s = .next (s.respond .success 0) := if_pos h

/-- R151, R159: the attempt draws once, and a disable that succeeds draws for each event flag. -/
theorem exec_smpDmadis_of_on (h : s.smp.dmaEn = true) :
    exec .smpDmadis s = .next (
      if Config.drawBool s.draws then
        { s with
          smp := { s.smp with
            dmaEn := false, tcif := s.smp.tcif || Config.drawBool (s.draws + 1)
            htif := s.smp.htif || Config.drawBool (s.draws + 2) }
          draws := s.draws + 3 }.respond .success 0
      else { s with draws := s.draws + 1 }.respond .peripheralBusy 0) := by
  cases hd : Config.drawBool s.draws <;>
    simp [exec, execSmpDmadis, h, hd, disableAttempt, drawBool, complete_eq, raise_eq]

/-! ## The conversion -/

/-- R155: with the converter off no conversion can occur. -/
theorem exec_evSample_of_off (v : BitVec 12) (h : (s.smp.adcOn && s.smp.adcRun) = false) :
    exec (.evSample v) s = .refused .eventNotEnabled := if_neg (by simp [h])

/-- R155: with the stream off a conversion stays in the data register. -/
theorem exec_evSample_of_stopped (v : BitVec 12) (hon : s.smp.adcOn = true) (hrun : s.smp.adcRun = true)
    (hen : s.smp.dmaEn = false) :
    exec (.evSample v) s = .next { s with smp := { s.smp with adcDr := v.setWidth 16 } } := by
  simp [exec, execEvSample, hon, hrun, hen]

/-- R155: with the stream enabled the cell at `DMA_WIDX` is written, and after it the flags and the index (R81). -/
theorem exec_evSample_of_enabled {v : BitVec 12} {m : List Host.Cell} (hon : s.smp.adcOn = true)
    (hrun : s.smp.adcRun = true) (hen : s.smp.dmaEn = true)
    (hm : Memory.write16 s.mem (cellAddr s s.smp.widx.toNat) (v.setWidth 16) = some m) :
    exec (.evSample v) s
      = .next { s with mem := m, smp := { s.smp with adcDr := v.setWidth 16 }.transferred } := by
  simp [exec, execEvSample, hon, hrun, hen, hm]

end

/-- R72: the low byte of a sample. -/
theorem sample_low_byte (v : BitVec 12) :
    ((v.setWidth 16).extractLsb' 0 8 : Byte) = BitVec.ofNat 8 (v.toNat % 256) := by
  refine BitVec.eq_of_toNat_eq ?_
  rw [BitVec.extractLsb'_toNat, BitVec.toNat_setWidth, BitVec.toNat_ofNat, Nat.shiftRight_zero]
  omega

/-- R72, R74: the high byte of a sample. -/
theorem sample_high_byte (v : BitVec 12) :
    ((v.setWidth 16).extractLsb' 8 8 : Byte) = BitVec.ofNat 8 (v.toNat / 256) := by
  refine BitVec.eq_of_toNat_eq ?_
  rw [BitVec.extractLsb'_toNat, BitVec.toNat_setWidth, BitVec.toNat_ofNat, Nat.shiftRight_eq_div_pow]
  omega

theorem Memory.byteAt_write16_low {m m' : List Host.Cell} {a : Nat} {v : Half}
    (h : Memory.write16 m a v = some m') : Memory.byteAt m' a = v.extractLsb' 0 8 := by
  obtain ⟨-, hlow, -⟩ := Memory.write16_spec h
  rw [Memory.byteAt, hlow, Option.getD_some]

theorem Memory.byteAt_write16_high {m m' : List Host.Cell} {a : Nat} {v : Half}
    (h : Memory.write16 m a v = some m') : Memory.byteAt m' (a + 1) = v.extractLsb' 8 8 := by
  obtain ⟨-, -, hhigh, -⟩ := Memory.write16_spec h
  rw [Memory.byteAt, hhigh, Option.getD_some]

theorem Memory.wf_write16 {m m' : List Host.Cell} {a : Nat} {v : Half} (h : Memory.write16 m a v = some m')
    (hwf : Memory.wf m) : Memory.wf m' := by
  obtain ⟨-, -, -, -, hkeep, -⟩ := Memory.write16_spec h
  exact hkeep hwf

/-! ## The stream's events -/

/-- R160: with a flag set and enabled the handler serves whichever is. -/
theorem exec_evDmairq_of_pending {s : State} (h : s.smp.irqPending = true) :
    exec .evDmairq s = .next { s with smp := { s.smp with
      htif := s.smp.htif && !s.smp.htie
      tcif := s.smp.tcif && !s.smp.tcie
      batchReady := s.smp.batchReady || (s.smp.tcif && s.smp.tcie) } } := if_pos h

theorem exec_evDmairq_of_not_pending {s : State} (h : s.smp.irqPending = false) :
    exec .evDmairq s = .refused .eventNotEnabled := if_neg (by simp [h])

/-- R50, R160: what the handler waits for. -/
theorem Sampler.irqPending_iff (p : Sampler) :
    p.irqPending = true ↔ (p.tcif = true ∧ p.tcie = true) ∨ (p.htif = true ∧ p.htie = true) := by
  simp only [Sampler.irqPending, Bool.or_eq_true, Bool.and_eq_true]

/-- R160: a flag after the handler, cleared if it was served. -/
theorem flag_and_not_enable (flag enable : Bool) :
    (flag && !enable) = if flag = true ∧ enable = true then false else flag := by
  cases flag <;> cases enable <;> rfl

/-- R160: `BATCH_READY` after the handler, set if transfer-complete was served. -/
theorem batch_or_served (batch flag enable : Bool) :
    (batch || (flag && enable)) = if flag = true ∧ enable = true then true else batch := by
  cases batch <;> cases flag <;> cases enable <;> rfl

/-! ## The statements, one instruction each -/

/-- Settles O27: the model's check says what the spec's does, and the draw is made only with the stream on. -/
theorem smpInitChecksAndConfigures : Obligations.SmpInitChecksAndConfigures := by
  intro base len s ok configured
  have hconfigured : s.smp.configured base len = configured := by
    simp only [Sampler.configured, Sampler.clearFlags, ← BitVec.ofNat_toNat]
    rfl
  refine ⟨decodesTo_of_encode_eq rfl, exec_smpInit_of_not_fits, fun hfits hoff => ?_, fun hfits hon => ?_⟩
  · rw [exec_smpInit_of_off hfits hoff, hconfigured]
  · rw [exec_smpInit_of_on hfits hon, hconfigured]

/-- Settles O34: the memory is what the half-word write leaves. -/
theorem evSampleTransfers : Obligations.EvSampleTransfers := by
  intro v s a w
  refine ⟨decodesTo_of_encode_eq rfl, fun hon hrun hen ha => ?_, fun hon hrun hen => ?_, fun hoff => ?_⟩
  · obtain ⟨m, hm⟩ := Memory.write16_isSome s.mem a (v.setWidth 16) ha
    refine ⟨m, ?_, ?_, ?_, fun x => Memory.byteAt_write16_other hm, Memory.wf_write16 hm⟩
    · rw [exec_evSample_of_enabled hon hrun hen hm, BitVec.ofNat_toNat]
      rfl
    · rw [Memory.byteAt_write16_low hm, sample_low_byte]
    · rw [Memory.byteAt_write16_high hm, sample_high_byte]
  · rw [exec_evSample_of_stopped v hon hrun hen, BitVec.ofNat_toNat]
  · refine exec_evSample_of_off v ?_
    rcases hoff with h | h
    · rw [h, Bool.false_and]
    · rw [h, Bool.and_false]

/-- Settles O28: the index is zeroed only with the stream off. -/
theorem smpStartEnables : Obligations.SmpStartEnables := by
  refine fun s => ⟨decodesTo_of_encode_eq rfl, exec_smpStart_of_not_inited, fun hin hoff => ?_, fun hin hon => ?_⟩
  · simp [exec_smpStart_of_inited hin, hoff]
  · simp [exec_smpStart_of_inited hin, hon]

/-- Settles O29: one reads the flag and one writes it. -/
theorem smpReadyAndClear : Obligations.SmpReadyAndClear := fun _ =>
  ⟨decodesTo_of_encode_eq rfl, decodesTo_of_encode_eq rfl, rfl, rfl⟩

/-- Settles O30: the two checks in their order, then the read. -/
theorem smpRdcellReadsCell : Obligations.SmpRdcellReadsCell := fun i _ =>
  ⟨decodesTo_of_encode_eq rfl, exec_smpRdcell_of_not_inited i, exec_smpRdcell_of_le, exec_smpRdcell_of_lt⟩

/-- Settles O31: `f` selects the flag, and 3 selects none. -/
theorem smpGetfAndClrf : Obligations.SmpGetfAndClrf := fun _ _ =>
  ⟨decodesTo_of_encode_eq rfl, decodesTo_of_encode_eq rfl, rfl, rfl, rfl, rfl, rfl, rfl, rfl, rfl⟩

/-- Settles O32: an enable takes place exactly where the stream and its three flags are all off. -/
theorem smpDmaenNeedsClearFlags : Obligations.SmpDmaenNeedsClearFlags := by
  refine fun s => ⟨decodesTo_of_encode_eq rfl, exec_smpDmaen_of_not_inited, fun hin hon => ?_,
    fun hin _ hflag => ?_, fun hin hoff htc hht hte => ?_⟩
  · exact exec_smpDmaen_of_refused hin (by rw [hon, Bool.true_or])
  · exact exec_smpDmaen_of_refused hin (by rw [s.smp.anyFlag_iff.mpr hflag, Bool.or_true])
  · exact exec_smpDmaen_of_clear hin (by rw [Sampler.anyFlag, hoff, htc, hht, hte]; rfl)

/-- Settles O33: one draw for the attempt and one for each event flag. -/
theorem smpDmadisDraws : Obligations.SmpDmadisDraws := fun _ =>
  ⟨decodesTo_of_encode_eq rfl, exec_smpDmadis_of_off, exec_smpDmadis_of_on⟩

/-- Settles O37: a flag is served where it is set and enabled, and the step occurs where one is. -/
theorem evDmairqServesFlags : Obligations.EvDmairqServesFlags := by
  refine fun s => ⟨decodesTo_of_encode_eq rfl, fun hpending => ?_, fun htc hht => ?_⟩
  · rw [exec_evDmairq_of_pending (s.smp.irqPending_iff.mpr hpending), flag_and_not_enable, flag_and_not_enable,
      batch_or_served]
  · exact exec_evDmairq_of_not_pending
      (Bool.eq_false_iff.mpr fun hpending => (s.smp.irqPending_iff.mp hpending).elim htc hht)

/-- Settles O38: the two enabling conditions are the arms of the event's test. -/
theorem evDmateStopsStream : Obligations.EvDmateStopsStream := by
  refine fun s => ⟨decodesTo_of_encode_eq rfl, fun hte hen => ?_, fun hoff => ?_⟩
  · exact if_pos (by rw [hte, hen]; rfl)
  · refine if_neg ?_
    rcases hoff with h | h <;> simp [h]

end Sys2Proof.Machine

/-! PROOFS. The laps of the ring (R164): first what a run of samples does to the index, the flags and the cells, then
what the other instructions cannot do to the index and the flags, and so what `BATCH_READY` says. -/

namespace Sys2Proof.Machine

/-! ## The index and the flags after so many transfers -/

/-- The index and the flags that `k` transfers leave (R155, R164): the index counts modulo the length, transfer complete
is raised where the end of the ring has been reached, half transfer where the half has been passed, in the lap the
transfers began in or in a later one. -/
def Sampler.afterTransfers (p : Sampler) (k : Nat) : Sampler :=
  { p with
    widx := BitVec.ofNat 16 ((p.widx.toNat + k) % p.n.toNat)
    tcif := p.tcif || decide (p.n.toNat ≤ p.widx.toNat + k)
    htif := p.htif || decide ((p.widx.toNat < p.n.toNat / 2 ∧ p.n.toNat / 2 ≤ p.widx.toNat + k)
      ∨ p.n.toNat + p.n.toNat / 2 ≤ p.widx.toNat + k) }

section
variable {p : Sampler}

theorem afterTransfers_zero (h : p.widx.toNat < p.n.toNat) : p.afterTransfers 0 = p := by
  have htc : ¬ p.n.toNat ≤ p.widx.toNat := Nat.not_le.mpr h
  have hlap : ¬ p.n.toNat + p.n.toNat / 2 ≤ p.widx.toNat := by omega
  have hhalf : ¬ (p.widx.toNat < p.n.toNat / 2 ∧ p.n.toNat / 2 ≤ p.widx.toNat) := by omega
  simp [Sampler.afterTransfers, Nat.mod_eq_of_lt h, htc, hlap, hhalf]

/-- R33: the index of a ring stays below its length. -/
theorem afterTransfers_widx (k : Nat) (h : 0 < p.n.toNat) :
    (p.afterTransfers k).widx.toNat = (p.widx.toNat + k) % p.n.toNat := by
  have hlt := Nat.mod_lt (p.widx.toNat + k) h
  have hn := p.n.isLt
  rw [Sampler.afterTransfers, BitVec.toNat_ofNat, Nat.mod_eq_of_lt (by omega)]

/-- The index after one transfer more. -/
theorem succ_mod_eq_ite {q n : Nat} (h : 0 < n) : (q + 1) % n = if q % n + 1 = n then 0 else q % n + 1 := by
  have hlt := Nat.mod_lt q h
  rw [← Nat.mod_add_mod]
  split
  next he => rw [he, Nat.mod_self]
  next hne => exact Nat.mod_eq_of_lt (by omega)

/-- R164: the end of the ring is reached first or again exactly where the index wraps. -/
theorem le_succ_iff_wraps {q n : Nat} : n ≤ q + 1 ↔ n ≤ q ∨ q % n + 1 = n := by
  have hle := Nat.mod_le q n
  have hlt : q < n → q % n = q := Nat.mod_eq_of_lt
  omega

/-- R164: the half is passed first or again exactly where the index reaches it. -/
theorem half_passed_succ_iff {w q n : Nat} (hn : 2 ≤ n) (hw : w < n) (hq : w ≤ q) :
    ((w < n / 2 ∧ n / 2 ≤ q + 1) ∨ n + n / 2 ≤ q + 1)
      ↔ ((w < n / 2 ∧ n / 2 ≤ q) ∨ n + n / 2 ≤ q) ∨ q % n + 1 = n / 2 := by
  have hfirst : q < n → q % n = q := Nat.mod_eq_of_lt
  have hsecond : n ≤ q → q % n = (q - n) % n := Nat.mod_eq_sub_mod
  have hle := Nat.mod_le (q - n) n
  have hlap : q - n < n → (q - n) % n = q - n := Nat.mod_eq_of_lt
  omega

/-- R155, R164: the update after one transfer is that of one transfer more. -/
theorem afterTransfers_transferred (k : Nat) (hn : 2 ≤ p.n.toNat) (hw : p.widx.toNat < p.n.toNat) (dr : Half) :
    ({ p.afterTransfers k with adcDr := dr }).transferred = { p.afterTransfers (k + 1) with adcDr := dr } := by
  have hpos : 0 < p.n.toNat := by omega
  have hwidx := afterTransfers_widx (p := p) k hpos
  have hnext := succ_mod_eq_ite (q := p.widx.toNat + k) hpos
  have htc := le_succ_iff_wraps (q := p.widx.toNat + k) (n := p.n.toNat)
  have hht := half_passed_succ_iff hn hw (Nat.le_add_right p.widx.toNat k)
  simp only [Sampler.transferred, hwidx]
  simp only [Sampler.afterTransfers, ← Nat.add_assoc, hnext, htc, hht, Bool.or_assoc, Bool.decide_or,
    apply_ite (BitVec.ofNat 16)]
  rfl

end

/-! ## A run of samples -/

/-- The stream runs over a ring of at least two cells inside the address space (R70, R150). -/
structure Streaming (s : State) : Prop where
  adcOn : s.smp.adcOn = true
  adcRun : s.smp.adcRun = true
  dmaEn : s.smp.dmaEn = true
  two_le : 2 ≤ s.smp.n.toNat
  widx_lt : s.smp.widx.toNat < s.smp.n.toNat
  ring_end : s.smp.base.toNat + 2 * s.smp.n.toNat ≤ 0x100000000

/-- The cell the `j`-th sample from `s` falls on. -/
def sampleCell (s : State) (j : Nat) : Nat := cellAddr s ((s.smp.widx.toNat + j) % s.smp.n.toNat)

/-- `s` after `k` samples, the last of them `dr`, that left the memory `m`. -/
def State.sampled (s : State) (k : Nat) (dr : Half) (m : List Host.Cell) : State :=
  { s with mem := m, smp := { s.smp.afterTransfers k with adcDr := dr } }

/-- The memory holds each of the last `n` samples in its cell, and outside the cells of the samples what it held in `s`
(R82, R164). -/
structure HoldsSamples (s : State) (vs : List (BitVec 12)) (m : List Host.Cell) : Prop where
  last : ∀ (j : Nat) (hj : j < vs.length), vs.length ≤ j + s.smp.n.toNat →
    Memory.read16 m (sampleCell s j) = some (vs[j].setWidth 16)
  others : ∀ x : Nat, (∀ j, j < vs.length → x ≠ sampleCell s j ∧ x ≠ sampleCell s j + 1) →
    Memory.byteAt m x = Memory.byteAt s.mem x

/-- Two samples less than a lap apart fall on different cells, and two cells share no byte. -/
theorem sampleCell_apart (s : State) {i j : Nat} (hij : i < j) (hj : j < i + s.smp.n.toNat) :
    sampleCell s i + 1 < sampleCell s j ∨ sampleCell s j + 1 < sampleCell s i := by
  have hne : (s.smp.widx.toNat + i) % s.smp.n.toNat ≠ (s.smp.widx.toNat + j) % s.smp.n.toNat := fun he => by
    have hdvd := (Nat.modEq_iff_dvd' (by omega : s.smp.widx.toNat + i ≤ s.smp.widx.toNat + j)).mp he
    have hle := Nat.le_of_dvd (by omega) hdvd
    omega
  unfold sampleCell cellAddr
  omega

section
variable {s : State} {vs : List (BitVec 12)} {m m' : List Host.Cell} {v : BitVec 12}

/-- R73. -/
theorem Streaming.sampleCell_succ_lt (h : Streaming s) (j : Nat) : sampleCell s j + 1 < 0x100000000 :=
  cellAddr_succ_lt h.ring_end (Nat.mod_lt _ (Nat.lt_of_lt_of_le (by decide) h.two_le))

/-- R82: a sample overwrites the one a lap before it and no other. -/
theorem HoldsSamples.append (h : HoldsSamples s vs m)
    (hm : Memory.write16 m (sampleCell s vs.length) (v.setWidth 16) = some m') :
    HoldsSamples s (vs ++ [v]) m' := by
  refine ⟨fun j hj hlap => ?_, fun x hx => ?_⟩
  · rw [List.length_append, List.length_singleton] at hj hlap
    rcases Nat.lt_or_eq_of_le (Nat.le_of_lt_succ hj) with hlt | rfl
    · rw [Memory.read16_write16_other hm (sampleCell_apart s hlt (by omega)), h.last j hlt (by omega),
        List.getElem_append_left hlt]
    · rw [Memory.read16_write16_same hm, List.getElem_concat_length rfl]
  · simp only [List.length_append, List.length_singleton] at hx
    obtain ⟨hlow, hhigh⟩ := hx vs.length (Nat.lt_succ_self _)
    rw [Memory.byteAt_write16_other hm hlow hhigh]
    exact h.others x fun j hj => hx j (Nat.lt_succ_of_lt hj)

/-- R155: a sample in the course of a run. -/
theorem exec_evSample_sampled (h : Streaming s) {k : Nat} (dr : Half)
    (hm : Memory.write16 m (sampleCell s k) (v.setWidth 16) = some m') :
    exec (.evSample v) (s.sampled k dr m) = .next (s.sampled (k + 1) (v.setWidth 16) m') := by
  have hpos : 0 < s.smp.n.toNat := Nat.lt_of_lt_of_le (by decide) h.two_le
  rw [sampleCell, ← afterTransfers_widx k hpos] at hm
  have hnext := afterTransfers_transferred k h.two_le h.widx_lt (v.setWidth 16)
  exact (exec_evSample_of_enabled (s := s.sampled k dr m) h.adcOn h.adcRun h.dmaEn hm).trans
    (congrArg (fun p => (.next { s with mem := m', smp := p } : Result)) hnext)

/-- R164, first part, by induction on the samples from the first to the last. -/
theorem execAll_evSample (h : Streaming s) (vs : List (BitVec 12)) :
    ∃ dr m, execAll (vs.map .evSample) s = .next (s.sampled vs.length dr m) ∧ HoldsSamples s vs m := by
  induction vs using List.reverseRecOn with
  | nil =>
    refine ⟨s.smp.adcDr, s.mem, ?_, nofun, fun _ _ => rfl⟩
    rw [List.length_nil, State.sampled, afterTransfers_zero h.widx_lt]
    rfl
  | append_singleton vs v ih =>
    obtain ⟨dr, m, hrun, hmem⟩ := ih
    obtain ⟨m', hm⟩ := Memory.write16_isSome m (sampleCell s vs.length) (v.setWidth 16)
      (h.sampleCell_succ_lt vs.length)
    refine ⟨v.setWidth 16, m', ?_, hmem.append hm⟩
    rw [List.map_append, execAll_append hrun, List.length_append]
    exact execAll_cons (exec_evSample_sampled h dr hm)

end

/-- Settles O35: the run ends in the state after so many transfers, over a memory that holds the samples. -/
theorem lapLaw : Obligations.LapLaw := by
  intro vs s hon hrun hen htwo hwidx hend n p
  obtain ⟨dr, m, hexec, hlast, hothers⟩ := execAll_evSample ⟨hon, hrun, hen, htwo, hwidx, hend⟩ vs
  refine ⟨_, hexec, afterTransfers_widx vs.length (by omega), rfl, ?_, hlast, hothers, rfl⟩
  rw [Bool.or_assoc, ← Bool.decide_or]
  rfl

/-! ## `BATCH_READY` and the lap before it -/

/-- The ring is the one it was, the index has not gone on, the transfer-complete flag was not raised, and `BATCH_READY`
was set only for a flag that stood. -/
structure NoLapBetween (s t : State) : Prop where
  n : t.smp.n = s.smp.n
  widx_le : t.smp.widx.toNat ≤ s.smp.widx.toNat
  tcif : t.smp.tcif = true → s.smp.tcif = true
  batchReady : t.smp.batchReady = true → s.smp.batchReady = true ∨ s.smp.tcif = true

/-- A change outside the sampler. -/
theorem NoLapBetween.same {s t : State} (h : t.smp = s.smp := by rfl) : NoLapBetween s t :=
  ⟨by rw [h], by rw [h], fun htc => h ▸ htc, fun hb => .inl (h ▸ hb)⟩

theorem NoLapBetween.trans {s t u : State} (hst : NoLapBetween s t) (htu : NoLapBetween t u) : NoLapBetween s u :=
  ⟨htu.n.trans hst.n, htu.widx_le.trans hst.widx_le, fun h => hst.tcif (htu.tcif h),
    fun h => (htu.batchReady h).elim hst.batchReady fun htc => .inr (hst.tcif htc)⟩

/-- An outcome that goes on, if it does, with no lap between. -/
def MakesNoLap (s : State) (o : Result) : Prop := NextHas (NoLapBetween s) o

theorem MakesNoLap.ite {s : State} {c : Prop} [Decidable c] {a b : Result} (ha : MakesNoLap s a)
    (hb : MakesNoLap s b) : MakesNoLap s (if c then a else b) :=
  NextHas.ite ha hb

theorem MakesNoLap.complete {s u : State} {rsp : Word} (h : NoLapBetween s u) : MakesNoLap s (complete u rsp) :=
  .next (h.trans .same)

theorem MakesNoLap.raise {s u : State} {st : Status} (h : NoLapBetween s u) : MakesNoLap s (raise u st) :=
  .next (h.trans .same)

/-! ### The commands and events of the other units -/

theorem releaseHold_smp (s : State) : (releaseHold s).smp = s.smp := by
  rcases releaseHold_cases s with ⟨-, h⟩ | ⟨-, h⟩ <;> rw [h]

theorem fold_smp (r m : Nat) (s : State) : (fold r m s).2.smp = s.smp := by
  obtain ⟨d, h⟩ := fold_state r m s
  rw [h]

theorem speed_smp (total lastTotal : Word) (cpr : Half) (dt : Word) (s : State) :
    (speed total lastTotal cpr dt s).2.smp = s.smp := by
  obtain ⟨d, h⟩ := speed_state total lastTotal cpr dt s
  rw [h]

theorem foldl_sampleHandle_smp (bs : List (BitVec 3)) (s : State) : (bs.foldl sampleHandle s).smp = s.smp := by
  obtain ⟨btn, h⟩ := foldl_sampleHandle_frame bs s
  rw [h]

/-- R180, R197: a sub-step clears `BATCH_READY` at most. -/
theorem subStep_noLapBetween {p : Progress} {s t : State} (h : subStep p s = .next t) : NoLapBetween s t := by
  rcases subStep_cases h with ⟨d, -, rfl⟩ | ⟨d, x, -, rfl⟩ | ⟨-, -, rfl⟩ | ⟨-, -, -, rfl⟩ | ⟨-, -, -, rfl⟩
    | ⟨i, sum, v, -, -, rfl⟩ | ⟨sum, d, -, rfl⟩ | ⟨avg, -, rfl⟩
  · exact .same
  · exact .same
  · exact .same
  · exact .same
  · exact .same
  · exact .same
  · exact ⟨rfl, le_rfl, id, nofun⟩
  · exact .same

theorem continueHost_makesNoLap {s u : State} (h : NoLapBetween s u) : MakesNoLap s (continueHost u) := fun t ht =>
  runHost_keeps (P := NoLapBetween s) (fun _ _ _ _ hs hsub => hs.trans (.trans .same (subStep_noLapBetween hsub)))
    _ u t h ht

theorem execBtnScan_makesNoLap (s : State) : MakesNoLap s (execBtnScan s) :=
  .ite (.raise .same) (.ite (.complete (.same ((foldl_sampleHandle_smp ..).trans (timerExpired_smp 1 s))))
    (.complete (.same (timerExpired_smp 1 s))))

/-! ### The sampler's own -/

/-- R152: a start keeps the index or zeroes it, and clears the flag. -/
theorem execSmpStart_makesNoLap (s : State) : MakesNoLap s (execSmpStart s) := by
  refine .ite (.raise .same) (.complete ⟨rfl, ?_, nofun, .inl⟩)
  dsimp only
  split
  · exact le_rfl
  · exact Nat.zero_le _

theorem execSmpRdcell_makesNoLap (i : BitVec 16) (s : State) : MakesNoLap s (execSmpRdcell i s) := by
  refine .ite (.raise .same) (.ite (.raise .same) ?_)
  split
  · exact .fault
  · exact .complete .same

theorem execSmpGetf_makesNoLap (f : BitVec 2) (s : State) : MakesNoLap s (execSmpGetf f s) := by
  unfold execSmpGetf
  split
  · exact .raise .same
  · exact .complete .same

/-- R163: the clear of a flag raises none. -/
theorem clearFlag_tcif {p q : Sampler} {f : BitVec 2} (h : p.clearFlag f = some q) (htc : q.tcif = true) :
    p.tcif = true := by
  unfold Sampler.clearFlag at h
  split at h
  · cases h
    cases htc
  · split at h
    · cases h
      exact htc
    · split at h
      · cases h
        exact htc
      · cases h

theorem execSmpClrf_makesNoLap (f : BitVec 2) (s : State) : MakesNoLap s (execSmpClrf f s) := by
  unfold execSmpClrf
  split
  · exact .raise .same
  · rename_i q hq
    have hframe := clearFlag_frame hq
    refine .complete ⟨?_, ?_, clearFlag_tcif hq, fun hb => .inl ?_⟩
    · rw [hframe]
    · rw [hframe]
    · rw [hframe] at hb
      exact hb

theorem execSmpDmaen_makesNoLap (s : State) : MakesNoLap s (execSmpDmaen s) :=
  .ite (.raise .same) (.ite (.complete .same) (.complete ⟨rfl, Nat.zero_le _, id, .inl⟩))

/-- R160: `BATCH_READY` is set for a transfer-complete flag that stands. -/
theorem execEvDmairq_makesNoLap (s : State) : MakesNoLap s (execEvDmairq s) := by
  refine .ite (.next ⟨rfl, le_rfl, fun htc => ?_, fun hb => ?_⟩) .refused
  · exact (Bool.and_eq_true_iff.mp htc).1
  · exact (Bool.or_eq_true_iff.mp hb).imp_right fun h => (Bool.and_eq_true_iff.mp h).1

/-! ### The dispatch -/

/-- R164: the index goes on, and the transfer-complete flag is raised, only by a sample, a disable, a reset and an
initialisation. -/
theorem exec_makesNoLap {i : Instr} (s : State) (hsample : ∀ v, i ≠ .evSample v) (hdis : i ≠ .smpDmadis)
    (hreset : i ≠ .evReset) (hinit : ∀ base len, i ≠ .smpInit base len) : MakesNoLap s (exec i s) := by
  cases i with
  | evSample v12 => exact absurd rfl (hsample v12)
  | smpDmadis => exact absurd rfl hdis
  | evReset => exact absurd rfl hreset
  | smpInit base len => exact absurd rfl (hinit base len)
  | smpStart => exact execSmpStart_makesNoLap s
  | smpClear => exact .complete ⟨rfl, le_rfl, id, nofun⟩
  | smpRdcell j => exact execSmpRdcell_makesNoLap j s
  | smpGetf f => exact execSmpGetf_makesNoLap f s
  | smpClrf f => exact execSmpClrf_makesNoLap f s
  | smpDmaen => exact execSmpDmaen_makesNoLap s
  | evDmairq => exact execEvDmairq_makesNoLap s
  | evDmate => exact .ite (.next ⟨rfl, le_rfl, id, .inl⟩) .refused
  | tckInit fCpu => exact .ite (.raise .same) (.ite (.raise .same) (.complete .same))
  | tckDelay n => exact .next (.same (releaseHold_smp _))
  | tmrExpired t => exact .complete (.same (timerExpired_smp t s))
  | prtTick =>
    exact .ite (continueHost_makesNoLap (.same (timerExpired_smp 0 s))) (.complete (.same (timerExpired_smp 0 s)))
  | encUpdate => exact .ite (.raise .same) (continueHost_makesNoLap (.same (fold_smp ..)))
  | encRpm nowMs =>
    exact .ite (.raise .same) (.ite (.complete .same) (.ite (.complete .same) (.complete (.same (speed_smp ..)))))
  | btnAdd b =>
    exact .ite (.raise .same) (.ite (.raise .same) (.ite (.raise .same) (.ite (.raise .same) (.complete .same))))
  | btnScan => exact execBtnScan_makesNoLap s
  | evTick => exact .ite (.next (.same (releaseHold_smp _))) .refused
  | evQa v1 | evQb v1 => exact .ite (.next .same) (.ite (.next .same) (.next .same))
  | evEncirq => exact .ite (.next .same) .refused
  | evPin v1 pin port => exact .next .same
  | tckNow | tckElapsed | tmrInit | tmrStart | smpReady | motSet | motGet | btnInit | btnMinit =>
    exact .complete .same
  | encInit | encStart | encStop | encReset | encCount | encDir | btnTake | btnPressed =>
    exact .ite (.raise .same) (.complete .same)

/-! ### Samples taken -/

/-- The instruction is an `EV.SAMPLE`. -/
def isSample : Instr → Bool
  | .evSample _ => true
  | _ => false

theorem isSample_iff (i : Instr) : isSample i = true ↔ ∃ v, i = .evSample v := by
  cases i <;> simp [isSample]

/-- With `k` samples taken, the index is at most `k`, and a transfer-complete flag or a batch means that they were a
whole lap of `n` (R164). -/
structure LapCounted (n k : Nat) (s : State) : Prop where
  length : s.smp.n.toNat = n
  widx_le : s.smp.widx.toNat ≤ k
  tcif : s.smp.tcif = true → n ≤ k
  batchReady : s.smp.batchReady = true → n ≤ k

section
variable {n k : Nat} {s t : State}

theorem LapCounted.of_noLapBetween (h : LapCounted n k s) (hst : NoLapBetween s t) : LapCounted n k t :=
  ⟨by rw [hst.n, h.length], hst.widx_le.trans h.widx_le, fun htc => h.tcif (hst.tcif htc),
    fun hb => (hst.batchReady hb).elim h.batchReady h.tcif⟩

/-- R155: what a sample makes of the sampler, with the stream off and enabled. -/
theorem execEvSample_smp {v : BitVec 12} (h : execEvSample v s = .next t) :
    t.smp = { s.smp with adcDr := v.setWidth 16 }
      ∨ t.smp = ({ s.smp with adcDr := v.setWidth 16 } : Sampler).transferred := by
  unfold execEvSample at h
  split at h
  · split at h
    · dsimp only at h
      split at h
      · cases h
      · cases h
        exact .inr rfl
    · cases h
      exact .inl rfl
  · cases h

/-- R155: the index goes on by one at most. -/
theorem transferred_widx_le (p : Sampler) : p.transferred.widx.toNat ≤ p.widx.toNat + 1 := by
  simp only [Sampler.transferred]
  split
  · exact Nat.zero_le _
  · rw [BitVec.toNat_ofNat]
    exact Nat.mod_le _ _

/-- R155: transfer complete means that it stood or that the index has come to the end of the ring. -/
theorem transferred_tcif {p : Sampler} (h : p.transferred.tcif = true) :
    p.tcif = true ∨ p.widx.toNat + 1 = p.n.toNat :=
  (Bool.or_eq_true_iff.mp h).imp_right of_decide_eq_true

/-- R164: a sample counts for itself, and the last one of a lap raises the flag. -/
theorem LapCounted.sample (h : LapCounted n k s) {v : BitVec 12} (hexec : exec (.evSample v) s = .next t) :
    LapCounted n (k + 1) t := by
  obtain ⟨hlength, hwidx, htcif, hbatch⟩ := h
  have hmore : n ≤ k → n ≤ k + 1 := Nat.le_succ_of_le
  rcases execEvSample_smp hexec with ht | ht
  · constructor <;> rw [ht]
    · exact hlength
    · exact Nat.le_succ_of_le hwidx
    · exact fun htc => hmore (htcif htc)
    · exact fun hb => hmore (hbatch hb)
  · constructor <;> rw [ht]
    · exact hlength
    · exact (transferred_widx_le _).trans (Nat.succ_le_succ hwidx)
    · intro htc
      rcases transferred_tcif htc with hstood | hend
      · exact hmore (htcif hstood)
      · rw [← hlength, ← hend]
        exact Nat.succ_le_succ hwidx
    · exact fun hb => hmore (hbatch hb)

/-- R164, second part, by induction on the run. -/
theorem LapCounted.execAll {is : List Instr} (h : LapCounted n k s)
    (hfree : ∀ i ∈ is, i ≠ .smpDmadis ∧ i ≠ .evReset ∧ ∀ base len, i ≠ .smpInit base len)
    (hrun : execAll is s = .next t) : LapCounted n (k + is.countP isSample) t := by
  induction is generalizing s k with
  | nil =>
    cases hrun
    exact h
  | cons i is ih =>
    obtain ⟨⟨hdis, hreset, hinit⟩, hrest⟩ := List.forall_mem_cons.mp hfree
    rw [Machine.execAll] at hrun
    split at hrun
    next u hexec =>
      by_cases hsample : isSample i = true
      · obtain ⟨v, rfl⟩ := (isSample_iff i).mp hsample
        rw [List.countP_cons_of_pos hsample, Nat.add_comm _ 1, ← Nat.add_assoc]
        exact ih (h.sample hexec) hrest hrun
      · have hother : ∀ v, i ≠ .evSample v := fun v hv => hsample ((isSample_iff i).mpr ⟨v, hv⟩)
        rw [List.countP_cons_of_neg hsample]
        exact ih (h.of_noLapBetween (exec_makesNoLap s hother hdis hreset hinit u hexec)) hrest hrun
    next => cases hrun
    next => cases hrun

end

/-- Settles O36: at the start no sample has been taken, and the index, the flag and the batch count from there. -/
theorem batchNeedsWholeLap : Obligations.BatchNeedsWholeLap := by
  intro is s t hbatch htcif hwidx hfree hrun hset
  have hstart : LapCounted s.smp.n.toNat 0 s :=
    ⟨rfl, by rw [hwidx]; exact le_rfl, fun h => absurd h (by simp [htcif]), fun h => absurd h (by simp [hbatch])⟩
  have hcount := (hstart.execAll hfree hrun).batchReady hset
  rw [Nat.zero_add] at hcount
  exact hcount

end Sys2Proof.Machine

/-! PROOFS. Protection and motor (42_protection.md): the pass of a `PRT.TICK` with no other agent's turn inside it,
sub-step by sub-step, then what its average says of a ring of cells on one side of the threshold. -/

namespace Sys2Proof.Machine

/-! ## A host with no turns given away -/

theorem turnTaken_of_no_turns {s : State} (h : s.preempt = []) : s.turnTaken = s := by
  rw [State.turnTaken, h, List.tail_nil, ← h]

/-- With no turn given to another agent the host goes on from one sub-step to the next. -/
theorem hostGoesOn_undisturbed {s t : State} {p : Progress} (hturns : s.preempt = [])
    (h : subStep p { s with inProgress := some p } = .next t) :
    hostGoesOn { s with inProgress := some p } = hostGoesOn t := by
  have hown : ({ s with inProgress := some p } : State).turnTaken = { s with inProgress := some p } :=
    turnTaken_of_no_turns hturns
  exact hostGoesOn_subStep rfl (by simp [hturns]) (by rw [hown, h])

/-! ## The cells of the ring -/

/-- R72: a half-word read is its high byte times 256 plus its low byte. -/
theorem toNat_append_bytes (hi lo : Byte) : (hi ++ lo : Half).toNat = hi.toNat * 256 + lo.toNat := by
  rw [BitVec.toNat_append, ← Nat.shiftLeft_add_eq_or_of_lt lo.isLt, Nat.shiftLeft_eq]

/-- R75: what is read at a cell inside the address space is the cell's value. -/
theorem read16_cellAddr {s : State} {i : Nat} (h : cellAddr s i + 1 < 0x100000000) :
    ∃ v, Memory.read16 s.mem (cellAddr s i) = some v ∧ v.toNat = cellValue s i :=
  ⟨_, Memory.read16_isSome _ _ h, toNat_append_bytes _ _⟩

/-- R180: the sum of the first `i` cells, what P3 has after `i` reads. -/
def cellSum (s : State) (i : Nat) : Nat := ((List.range i).map (cellValue s)).sum

theorem cellSum_succ (s : State) (i : Nat) : cellSum s (i + 1) = cellSum s i + cellValue s i := by
  simp [cellSum, List.range_succ]

/-- R180: the average of the ring, floored. -/
def ringAverage (s : State) : Nat := cellSum s s.smp.n.toNat / s.smp.n.toNat

section
variable {s : State}

theorem n_pos_of_ne_zero (hn : s.smp.n ≠ 0) : 0 < s.smp.n.toNat :=
  Nat.pos_of_ne_zero fun h => hn (BitVec.eq_of_toNat_eq h)

/-- The average is above every bound that all cells are above. -/
theorem lt_ringAverage {c : Nat} (hn : s.smp.n ≠ 0) (h : ∀ i < s.smp.n.toNat, c < cellValue s i) :
    c < ringAverage s := by
  have hsum := ((List.range s.smp.n.toNat).map (cellValue s)).card_nsmul_le_sum (c + 1) (by simpa using h)
  rw [List.length_map, List.length_range, smul_eq_mul, Nat.mul_comm] at hsum
  exact (Nat.le_div_iff_mul_le (n_pos_of_ne_zero hn)).mpr hsum

/-- The average is at most every bound that all cells are at most. -/
theorem ringAverage_le {c : Nat} (h : ∀ i < s.smp.n.toNat, cellValue s i ≤ c) : ringAverage s ≤ c := by
  have hsum := ((List.range s.smp.n.toNat).map (cellValue s)).sum_le_card_nsmul c (by simpa using h)
  rw [List.length_map, List.length_range, smul_eq_mul] at hsum
  exact Nat.div_le_of_le_mul hsum

/-! ## The sub-steps of a pass -/

theorem subStep_protP2_of_no_batch (h : s.smp.batchReady = false) :
    subStep .protP2 s = .next ({ s with inProgress := none }.respond .success 0) := if_pos h

theorem subStep_protP2_of_not_inited (hbatch : s.smp.batchReady = true) (hin : s.smp.inited = false) :
    subStep .protP2 s = .next ({ s with inProgress := none }.respond .uninitialized 0) :=
  (if_neg (by simp [hbatch])).trans (if_pos hin)

theorem subStep_protP2_of_batch (hbatch : s.smp.batchReady = true) (hin : s.smp.inited = true) :
    subStep .protP2 s = .next { s with inProgress := some (protNext s 0 0) } :=
  (if_neg (by simp [hbatch])).trans (if_neg (by simp [hin]))

theorem subStep_protRead {i sum : Nat} (h : cellAddr s i + 1 < 0x100000000) :
    subStep (.protRead i sum) s
      = .next { s with inProgress := some (protNext s (i + 1) (sum + cellValue s i)) } := by
  obtain ⟨v, hread, hv⟩ := read16_cellAddr h
  simp only [subStep, protRead, hread, hv]

theorem subStep_protP5 {sum : Nat} (hn : s.smp.n ≠ 0) :
    subStep (.protP5 sum) s = .next { s with
      smp := { s.smp with batchReady := false }, inProgress := some (.protP6 (sum / s.smp.n.toNat)) } := by
  have havg : average sum s = (sum / s.smp.n.toNat, s) := if_neg hn
  rw [subStep, protP5, havg]

end

/-! ## The response -/

/-- R102: the average's field stands clear of the low half-word. -/
theorem averageField_or (avg : Nat) {low : Nat} (h : low < 2 ^ 16) :
    ((BitVec.ofNat 12 avg).setWidth 32 <<< 16) ||| BitVec.ofNat 32 low
      = BitVec.ofNat 32 (avg % 4096 * 65536 + low) := by
  have hfield : ((BitVec.ofNat 12 avg).setWidth 32 <<< 16).toNat = (avg % 4096) <<< 16 := by
    simp only [BitVec.toNat_shiftLeft, BitVec.toNat_setWidth, BitVec.toNat_ofNat, Nat.shiftLeft_eq]
    omega
  have hlow : (BitVec.ofNat 32 low).toNat = low := by
    rw [BitVec.toNat_ofNat]
    omega
  refine BitVec.eq_of_toNat_eq ?_
  rw [BitVec.toNat_or, hfield, hlow, ← Nat.shiftLeft_add_eq_or_of_lt h, Nat.shiftLeft_eq, BitVec.toNat_ofNat]
  omega

theorem protectionResponse_eq (avg : Nat) (cut : Bool) :
    protectionResponse avg cut = BitVec.ofNat 32 (avg % 4096 * 65536 + (if cut then 2 else 0) + 1) := by
  have hflags : (if cut then 2 else 0 : Word) ||| 1 = BitVec.ofNat 32 ((if cut then 2 else 0) + 1) := by
    cases cut <;> rfl
  have hlow : (if cut then 2 else 0) + 1 < 2 ^ 16 := by cases cut <;> decide
  rw [protectionResponse, BitVec.or_assoc, hflags, averageField_or avg hlow, Nat.add_assoc]

/-! ## The run from P2 to the response -/

/-- The state a `PRT.TICK` ends in, where P4 averages to `avg` (R180 P5, P6, R102). -/
def State.protectedBy (s : State) (avg : Nat) : State :=
  let cut := decide (s.cfg.thresh.toNat < avg)
  { s with
    smp := { s.smp with batchReady := false }
    motorEn := if cut then false else s.motorEn
    inProgress := none }.respond .success (BitVec.ofNat 32 (avg % 4096 * 65536 + (if cut then 2 else 0) + 1))

section
variable {s : State}

theorem hostGoesOn_protP2_of_no_batch (hturns : s.preempt = []) (h : s.smp.batchReady = false) :
    hostGoesOn { s with inProgress := some .protP2 } = .next ({ s with inProgress := none }.respond .success 0) :=
  (hostGoesOn_undisturbed hturns (subStep_protP2_of_no_batch h)).trans (hostGoesOn_done rfl)

theorem hostGoesOn_protP2_of_not_inited (hturns : s.preempt = []) (hbatch : s.smp.batchReady = true)
    (hin : s.smp.inited = false) :
    hostGoesOn { s with inProgress := some .protP2 }
      = .next ({ s with inProgress := none }.respond .uninitialized 0) :=
  (hostGoesOn_undisturbed hturns (subStep_protP2_of_not_inited hbatch hin)).trans (hostGoesOn_done rfl)

/-- P3: the reads add up the cells. -/
theorem hostGoesOn_reads (hturns : s.preempt = [])
    (hend : s.smp.base.toNat + 2 * s.smp.n.toNat ≤ 0x100000000) {i : Nat} (hi : i ≤ s.smp.n.toNat) :
    hostGoesOn { s with inProgress := some (protNext s 0 0) }
      = hostGoesOn { s with inProgress := some (protNext s i (cellSum s i)) } := by
  induction i with
  | zero => rfl
  | succ i ih =>
    have hread : protNext s i (cellSum s i) = .protRead i (cellSum s i) := if_pos hi
    rw [ih (Nat.le_of_succ_le hi), hread, cellSum_succ]
    exact hostGoesOn_undisturbed hturns (subStep_protRead (cellAddr_succ_lt hend hi))

/-- P4 to P6: the average, the clear of `BATCH_READY`, the comparison and the response. -/
theorem hostGoesOn_protP5 {sum : Nat} (hturns : s.preempt = []) (hn : s.smp.n ≠ 0) :
    hostGoesOn { s with inProgress := some (.protP5 sum) } = .next (s.protectedBy (sum / s.smp.n.toNat)) := by
  rw [hostGoesOn_undisturbed hturns (subStep_protP5 hn)]
  refine (hostGoesOn_undisturbed (s := { s with smp := { s.smp with batchReady := false } }) hturns rfl).trans ?_
  rw [hostGoesOn_done rfl, protectionResponse_eq]
  rfl

/-- P2 to P6, where a batch is ready. -/
theorem hostGoesOn_protP2_of_batch (hturns : s.preempt = []) (hbatch : s.smp.batchReady = true)
    (hin : s.smp.inited = true) (hn : s.smp.n ≠ 0)
    (hend : s.smp.base.toNat + 2 * s.smp.n.toNat ≤ 0x100000000) :
    hostGoesOn { s with inProgress := some .protP2 } = .next (s.protectedBy (ringAverage s)) := by
  have hlast : protNext s s.smp.n.toNat (cellSum s s.smp.n.toNat) = .protP5 (cellSum s s.smp.n.toNat) :=
    if_neg (Nat.lt_irrefl _)
  calc hostGoesOn { s with inProgress := some .protP2 }
      = hostGoesOn { s with inProgress := some (protNext s 0 0) } :=
        hostGoesOn_undisturbed hturns (subStep_protP2_of_batch hbatch hin)
    _ = hostGoesOn { s with inProgress := some (.protP5 (cellSum s s.smp.n.toNat)) } := by
        rw [hostGoesOn_reads hturns hend le_rfl, hlast]
    _ = .next (s.protectedBy (ringAverage s)) := hostGoesOn_protP5 hturns hn

end

/-! ## `PRT.TICK` -/

/-- R136: a timer after the test that finds it expired. -/
def Timer.afterExpiry (tm : Timer) (now : Word) : Timer :=
  if tm.autoReload then { tm with startMs := now } else { tm with enabled := false }

/-- R136: the condition under which a timer's test finds it expired. -/
def TimerDue (t : BitVec 2) (s : State) : Prop :=
  (s.timer t).enabled = true ∧ (s.timer t).intervalMs ≤ s.tick.ms - (s.timer t).startMs

/-- R180: the state after P1 where timer 0 has expired. -/
def State.afterP1 (s : State) : State := s.setTimer 0 ((s.timer 0).afterExpiry s.tick.ms)

section
variable {s : State}

theorem timerExpired_of_not_due {t : BitVec 2} (h : ¬ TimerDue t s) : timerExpired t s = (false, s) := by
  rcases timerExpired_cases t s with ⟨-, ht⟩ | ⟨hen, hle, -, -⟩ | ⟨hen, hle, -, -⟩ | ⟨-, -, ht⟩
  · exact ht
  · exact absurd ⟨hen, hle⟩ h
  · exact absurd ⟨hen, hle⟩ h
  · exact ht

theorem timerExpired_of_due {t : BitVec 2} (h : TimerDue t s) :
    timerExpired t s = (true, s.setTimer t ((s.timer t).afterExpiry s.tick.ms)) := by
  obtain ⟨hen, hle⟩ := h
  rcases timerExpired_cases t s with ⟨hoff, -⟩ | ⟨-, -, har, ht⟩ | ⟨-, -, har, ht⟩ | ⟨-, hwait, -⟩
  · simp [hen] at hoff
  · rw [ht, Timer.afterExpiry, if_pos har]
  · rw [ht, Timer.afterExpiry, if_neg (by simp [har])]
  · exact absurd hle hwait

theorem exec_prtTick_of_not_due (h : ¬ TimerDue 0 s) : exec .prtTick s = .next (s.respond .success 0) := by
  simp only [exec, execPrtTick, timerExpired_of_not_due h, Bool.false_eq_true, if_false, complete_eq]

theorem exec_prtTick_of_due (h : TimerDue 0 s) :
    exec .prtTick s = hostGoesOn { s.afterP1 with inProgress := some .protP2 } := by
  simp only [exec, execPrtTick, timerExpired_of_due h, if_true, continueHost_eq, State.afterP1]

theorem exec_prtTick_of_no_batch (hturns : s.preempt = []) (hdue : TimerDue 0 s) (h : s.smp.batchReady = false) :
    exec .prtTick s = .next ({ s.afterP1 with inProgress := none }.respond .success 0) :=
  (exec_prtTick_of_due hdue).trans (hostGoesOn_protP2_of_no_batch (s := s.afterP1) hturns h)

theorem exec_prtTick_of_not_inited (hturns : s.preempt = []) (hdue : TimerDue 0 s) (hbatch : s.smp.batchReady = true)
    (hin : s.smp.inited = false) :
    exec .prtTick s = .next ({ s.afterP1 with inProgress := none }.respond .uninitialized 0) :=
  (exec_prtTick_of_due hdue).trans (hostGoesOn_protP2_of_not_inited (s := s.afterP1) hturns hbatch hin)

theorem exec_prtTick_of_batch (hturns : s.preempt = []) (hdue : TimerDue 0 s) (hbatch : s.smp.batchReady = true)
    (hin : s.smp.inited = true) (hn : s.smp.n ≠ 0)
    (hend : s.smp.base.toNat + 2 * s.smp.n.toNat ≤ 0x100000000) :
    exec .prtTick s = .next (s.afterP1.protectedBy (ringAverage s)) :=
  (exec_prtTick_of_due hdue).trans (hostGoesOn_protP2_of_batch (s := s.afterP1) hturns hbatch hin hn hend)

/-- A pass that starts with no command in progress leaves that as it was. -/
theorem afterP1_idle (h : s.inProgress = none) : { s.afterP1 with inProgress := none } = s.afterP1 := by
  rw [← h]
  rfl

/-- R180 P6: an average above the threshold cuts the motor line. -/
theorem protectedBy_motorEn_of_lt {avg : Nat} (h : s.cfg.thresh.toNat < avg) : (s.protectedBy avg).motorEn = false := by
  simp [State.protectedBy, h]

/-- R180 P6: an average at the threshold is not above it. -/
theorem protectedBy_motorEn_of_le {avg : Nat} (h : avg ≤ s.cfg.thresh.toNat) :
    (s.protectedBy avg).motorEn = s.motorEn := by
  simp [State.protectedBy, Nat.not_lt.mpr h]

end

/-! ## The statements -/

/-- Settles O39: the timer's gate, the batch's gate, the unreachable arm, and the whole pass. -/
theorem prtTickPass : Obligations.PrtTickPass := by
  intro s hturns hidle
  refine ⟨decodesTo_of_encode_eq rfl, exec_prtTick_of_not_due, fun hdue hbatch => ?_, fun hdue hbatch hin => ?_,
    fun hdue hbatch hin hn hend => ?_⟩
  · rw [exec_prtTick_of_no_batch hturns hdue hbatch, afterP1_idle hidle]
    rfl
  · rw [exec_prtTick_of_not_inited hturns hdue hbatch hin, afterP1_idle hidle]
    rfl
  · rw [exec_prtTick_of_batch hturns hdue hbatch hin hn hend, State.protectedBy, ← hidle]
    rfl

/-- Settles O40: the average lies on the side of the threshold that every cell lies on. -/
theorem prtTickCutsAboveThreshold : Obligations.PrtTickCutsAboveThreshold := by
  intro s hturns hen hle hbatch hin hn hend
  refine ⟨_, exec_prtTick_of_batch hturns ⟨hen, hle⟩ hbatch hin hn hend, rfl, fun habove => ?_, fun hbelow => ?_⟩
  · refine protectedBy_motorEn_of_lt (lt_ringAverage hn fun i hi => ?_)
    obtain ⟨v, hread, hv⟩ := read16_cellAddr (cellAddr_succ_lt hend hi)
    exact hv ▸ habove i v hi hread
  · refine protectedBy_motorEn_of_le (ringAverage_le fun i hi => ?_)
    obtain ⟨v, hread, hv⟩ := read16_cellAddr (cellAddr_succ_lt hend hi)
    exact hv ▸ hbelow i v hi hread

/-- Settles O41: the line is written with no check, and read with none. -/
theorem motSetAndGet : Obligations.MotSetAndGet := fun _ _ =>
  ⟨decodesTo_of_encode_eq rfl, decodesTo_of_encode_eq rfl, rfl, rfl⟩

end Sys2Proof.Machine

/-! PROOFS. The encoder (43_encoder.md): its arithmetic, then what each instruction of the unit but `ENC.UPDATE` does,
case by case. -/

namespace Sys2Proof.Machine

/-! ## 32-bit totals -/

/-- R9: a sum computed on values is the sum of the words. -/
theorem toI32_add (x : Word) (z : Int) : toI32 (x.toInt + z) = x + BitVec.ofInt 32 z := by
  rw [toI32, BitVec.ofInt_add, BitVec.ofInt_toInt]

theorem toI32_sub (x : Word) (z : Int) : toI32 (x.toInt - z) = x - BitVec.ofInt 32 z := by
  rw [Int.sub_eq_add_neg, toI32_add, BitVec.ofInt_neg, BitVec.sub_eq_add_neg]

/-! ## The residue and the fold -/

/-- R197: the residue is congruent to the difference of the counts. -/
theorem modulus_dvd_countResidue (hw last : Half) {m : Nat} (hm : 0 < m) :
    (m : Int) ∣ (countResidue hw last m : Int) - ((hw.toNat : Int) - (last.toNat : Int)) := by
  have hpos : 0 ≤ ((hw.toNat : Int) - (last.toNat : Int)) % (m : Int) := Int.emod_nonneg _ (by omega)
  rw [countResidue, Int.toNat_of_nonneg hpos]
  exact Int.dvd_emod_sub_self

/-- R198: the integer of least magnitude in a residue class is the only one, unless it is half the modulus. -/
theorem eq_of_dvd_sub_of_natAbs {m : Nat} {d e : Int} (h : (m : Int) ∣ d - e) (hd : 2 * d.natAbs ≤ m)
    (he : 2 * e.natAbs < m) : d = e := by
  have hlt : |d - e| < (m : Int) := by
    rw [abs_lt]
    omega
  exact sub_eq_zero.mp (Int.eq_zero_of_abs_lt_dvd h hlt)

section
variable {r m : Nat}

theorem fold_of_lt (s : State) (h : 2 * r < m) : fold r m s = ((r : Int), s) := if_pos h

theorem fold_of_gt (s : State) (h : m < 2 * r) : fold r m s = ((r : Int) - (m : Int), s) :=
  (if_neg (Nat.lt_asymm h)).trans (if_pos h)

/-- R198: at half the modulus the setting says the sign, by a draw where it is `either`. -/
theorem fold_of_half (s : State) (h : 2 * r = m) :
    fold r m s = match s.cfg.foldHalf with
      | .plus => ((r : Int), s)
      | .minus => (-(r : Int), s)
      | .either => (if Config.drawBool s.draws then (r : Int) else -(r : Int), (drawBool s).2) := by
  rw [fold, if_neg (by omega), if_neg (by omega)]
  rfl

/-- R198: the fold is congruent to the residue. -/
theorem dvd_fold_sub (r m : Nat) (s : State) : (m : Int) ∣ (fold r m s).1 - r := by
  rcases fold_cases r m s with ⟨-, h⟩ | ⟨-, h⟩ | ⟨hhalf, h | h, -⟩ <;> rw [h]
  · exact ⟨0, by ring⟩
  · exact ⟨-1, by ring⟩
  · exact ⟨0, by ring⟩
  · exact ⟨-1, by omega⟩

/-- R198: away from the half the fold lies strictly within half the modulus. -/
theorem fold_natAbs_lt (hr : r < m) (hhalf : 2 * r ≠ m) (s : State) : 2 * (fold r m s).1.natAbs < m := by
  rcases Nat.lt_or_gt_of_ne hhalf with h | h
  · rw [fold_of_lt s h]
    show 2 * (r : Int).natAbs < m
    omega
  · rw [fold_of_gt s h]
    show 2 * ((r : Int) - m).natAbs < m
    omega

/-- R198: away from the half there is no draw. -/
theorem fold_state_of_ne_half (hhalf : 2 * r ≠ m) (s : State) : (fold r m s).2 = s := by
  rcases Nat.lt_or_gt_of_ne hhalf with h | h
  · rw [fold_of_lt s h]
  · rw [fold_of_gt s h]

end

/-! ## Configuration, start, stop, reset and the reads -/

section
variable {s : State}

/-- R101: the extension word of `ENC.INIT`, `max_count` above `cpr`. -/
theorem append_eq_place (maxCount cpr : Half) : maxCount ++ cpr = place cpr 0 ||| place maxCount 16 := by
  rw [← place_halves (maxCount ++ cpr), BitVec.extractLsb'_append_eq_right, BitVec.extractLsb'_append_eq_left]

/-- R101, R190: the words of `ENC.INIT` as the spec's encoding line gives them. -/
theorem encode_encInit (polA polB uie : Bool) (cpr maxCount : Half) :
    encode (.encInit polA polB uie cpr maxCount)
      = [0x30000000#32 ||| placeBit polA 0 ||| placeBit polB 1 ||| placeBit uie 2, maxCount ++ cpr] := by
  rw [append_eq_place, BitVec.or_assoc, BitVec.or_assoc, ← BitVec.or_assoc (placeBit polA 0)]
  rfl

theorem exec_encInit_of_ok {cpr maxCount : Half} (polA polB uie : Bool) (s : State) (hcpr : cpr ≠ 0)
    (hmax : maxCount ≠ 0) :
    exec (.encInit polA polB uie cpr maxCount) s = .next ({ s with enc := {
      cnt := 0, arr := maxCount, qa := s.enc.qa, qb := s.enc.qb, hwCount := 0, total := 0, lastHw := 0
      lastTotal := 0, lastTickMs := 0, speedRpm := 0, cpr := cpr, maxCount := maxCount, seeded := false
      inited := true, cen := false, dir := false, uif := false, uie := uie, pola := polA, polb := polB
      } }.respond .success 0) := if_neg (not_or.mpr ⟨hcpr, hmax⟩)

/-- R191: every command of the unit but `ENC.INIT` has the check for an initialised unit in front of it. -/
theorem ite_inited_eq {a b : Result} (h : s.enc.inited = true) : (if s.enc.inited = false then a else b) = b :=
  if_neg (by simp [h])

theorem exec_encDir_of_up (hin : s.enc.inited = true) (h : s.enc.dir = false) :
    exec .encDir s = .next (s.respond .success 0x00000001) := by
  refine (ite_inited_eq hin).trans ?_
  rw [if_pos h, complete_eq]

theorem exec_encDir_of_down (hin : s.enc.inited = true) (h : s.enc.dir = true) :
    exec .encDir s = .next (s.respond .success 0xFFFFFFFF) := by
  refine (ite_inited_eq hin).trans ?_
  rw [if_neg (by simp [h]), complete_eq]

/-! ## `ENC.RPM` -/

/-- R200: both factors of the quotient fit in 64 bits, with room to spare. -/
theorem speed_dividend_lt (total lastTotal : Word) :
    ((total.toInt - lastTotal.toInt) * 60000).natAbs < 0x1000000000000 := by
  have := total.toInt_lt
  have := total.le_toInt
  have := lastTotal.toInt_lt
  have := lastTotal.le_toInt
  omega

theorem speed_divisor_lt (cpr : Half) (dt : Word) : cpr.toNat * dt.toNat < 0x1000000000000 :=
  Nat.mul_lt_mul'' cpr.isLt dt.isLt

theorem exec_encRpm_of_unseeded (now : Word) (hin : s.enc.inited = true) (h : s.enc.seeded = false) :
    exec (.encRpm now) s = .next ({ s with enc := { s.enc with
      lastTickMs := now, lastTotal := s.enc.total, seeded := true } }.respond .success 0) :=
  (ite_inited_eq hin).trans (if_pos h)

theorem exec_encRpm_of_no_time {now : Word} (hin : s.enc.inited = true) (hseed : s.enc.seeded = true)
    (h : now - s.enc.lastTickMs = 0) : exec (.encRpm now) s = .next (s.respond .success s.enc.speedRpm) :=
  (ite_inited_eq hin).trans ((if_neg (by simp [hseed])).trans (if_pos h))

/-- R201: a speed measured at `now`, which took `k` draws. -/
def State.spedBy (s : State) (now v : Word) (k : Nat) : State :=
  { s with
    enc := { s.enc with speedRpm := v, lastTotal := s.enc.total, lastTickMs := now }
    draws := s.draws + k }.respond .success v

theorem exec_encRpm_of_time {now v : Word} {k : Nat} (hin : s.enc.inited = true) (hseed : s.enc.seeded = true)
    (h : now - s.enc.lastTickMs ≠ 0)
    (hv : speed s.enc.total s.enc.lastTotal s.enc.cpr (now - s.enc.lastTickMs) s
      = (v, { s with draws := s.draws + k })) :
    exec (.encRpm now) s = .next (s.spedBy now v k) := by
  refine (ite_inited_eq hin).trans ((if_neg (by simp [hseed])).trans ((if_neg h).trans ?_))
  rw [hv]
  rfl

theorem speed_of_fits {total lastTotal dt : Word} {cpr : Half} (s : State) (hcpr : cpr ≠ 0)
    (hlo : -(0x80000000 : Int) ≤ speedQuotient total lastTotal cpr dt)
    (hhi : speedQuotient total lastTotal cpr dt < 0x80000000) :
    speed total lastTotal cpr dt s = (toI32 (speedQuotient total lastTotal cpr dt), s) :=
  if_pos ⟨hcpr, hlo, hhi⟩

theorem speed_of_not_fits {total lastTotal dt : Word} {cpr : Half} (s : State)
    (h : speedQuotient total lastTotal cpr dt < -(0x80000000 : Int)
      ∨ 0x80000000 ≤ speedQuotient total lastTotal cpr dt) :
    speed total lastTotal cpr dt s = (Config.drawWord s.draws, { s with draws := s.draws + 1 }) :=
  if_neg fun hfits => by omega

/-! ## The inputs -/

theorem countUp_eq (e : Encoder) :
    e.countUp = { e with
      cnt := if e.cnt = e.arr then 0 else e.cnt + 1, uif := if e.cnt = e.arr then true else e.uif, dir := false } := by
  unfold Encoder.countUp
  split <;> rfl

theorem countDown_eq (e : Encoder) :
    e.countDown = { e with
      cnt := if e.cnt = 0 then e.arr else e.cnt - 1, uif := if e.cnt = 0 then true else e.uif, dir := true } := by
  unfold Encoder.countDown
  split <;> rfl

theorem exec_evQa_of_stopped {v : Bool} (hv : v ≠ s.enc.qa) (h : s.enc.cen = false) :
    exec (.evQa v) s = .next { s with enc := { s.enc with qa := v } } :=
  (if_neg hv).trans (if_neg (by simp [h]))

theorem exec_evQb_of_stopped {v : Bool} (hv : v ≠ s.enc.qb) (h : s.enc.cen = false) :
    exec (.evQb v) s = .next { s with enc := { s.enc with qb := v } } :=
  (if_neg hv).trans (if_neg (by simp [h]))

/-- R202: a change of input A counts up where the effective levels then differ. -/
theorem exec_evQa_of_running {v : Bool} (hv : v ≠ s.enc.qa) (h : s.enc.cen = true) :
    exec (.evQa v) s = .next { s with enc :=
      if (v ^^ s.enc.pola) ≠ (s.enc.qb ^^ s.enc.polb) then ({ s.enc with qa := v }).countUp
      else ({ s.enc with qa := v }).countDown } :=
  (if_neg hv).trans (if_pos h)

/-- R204: a change of input B counts up where the effective levels then agree. -/
theorem exec_evQb_of_running {v : Bool} (hv : v ≠ s.enc.qb) (h : s.enc.cen = true) :
    exec (.evQb v) s = .next { s with enc :=
      if (s.enc.qa ^^ s.enc.pola) = (v ^^ s.enc.polb) then ({ s.enc with qb := v }).countUp
      else ({ s.enc with qb := v }).countDown } :=
  (if_neg hv).trans (if_pos h)

/-! ## The handler -/

theorem exec_evEncirq_of_up (huif : s.enc.uif = true) (huie : s.enc.uie = true) (h : s.enc.dir = false) :
    exec .evEncirq s = .next { s with enc := { s.enc with
      uif := false, total := s.enc.total + BitVec.ofNat 32 (s.enc.arr.toNat + 1) } } := by
  refine (if_pos (by simp [Encoder.irqPending, huif, huie])).trans ?_
  rw [if_pos h, toI32_add, BitVec.ofInt_natCast, Encoder.modulus]

theorem exec_evEncirq_of_down (huif : s.enc.uif = true) (huie : s.enc.uie = true) (h : s.enc.dir = true) :
    exec .evEncirq s = .next { s with enc := { s.enc with
      uif := false, total := s.enc.total - BitVec.ofNat 32 (s.enc.arr.toNat + 1) } } := by
  refine (if_pos (by simp [Encoder.irqPending, huif, huie])).trans ?_
  rw [if_neg (by simp [h]), toI32_sub, BitVec.ofInt_natCast, Encoder.modulus]

theorem exec_evEncirq_of_not_pending (h : s.enc.uif = false ∨ s.enc.uie = false) :
    exec .evEncirq s = .refused .eventNotEnabled := by
  refine if_neg ?_
  rcases h with h | h <;> simp [Encoder.irqPending, h]

end

/-! ## The statements, one instruction each -/

/-- Settles O42: the check of the operands, and the fields an accepted configuration has. -/
theorem encInitConfigures : Obligations.EncInitConfigures := fun polA polB uie cpr maxCount s =>
  ⟨decodesTo_of_encode_eq (encode_encInit polA polB uie cpr maxCount), fun h => if_pos h,
    exec_encInit_of_ok polA polB uie s⟩

/-- Settles O43: each of the three checks that the unit is initialised and writes its fields. -/
theorem encStartStopReset : Obligations.EncStartStopReset := fun _ =>
  ⟨decodesTo_of_encode_eq rfl, decodesTo_of_encode_eq rfl, decodesTo_of_encode_eq rfl,
    fun h => ⟨if_pos h, if_pos h, if_pos h⟩, fun h => ⟨ite_inited_eq h, ite_inited_eq h, ite_inited_eq h⟩⟩

/-- Settles O44: both check that the unit is initialised, and read. -/
theorem encCountAndDir : Obligations.EncCountAndDir := fun _ =>
  ⟨decodesTo_of_encode_eq rfl, decodesTo_of_encode_eq rfl, fun h => ⟨if_pos h, if_pos h⟩, ite_inited_eq,
    exec_encDir_of_up, exec_encDir_of_down⟩

/-- Settles O46: two integers of one residue class within half the modulus are equal, unless both lie at the half. -/
theorem foldIsSignedResidue : Obligations.FoldIsSignedResidue := by
  intro r m s _ hr
  have hcongr := dvd_fold_sub r m s
  refine ⟨Int.emod_eq_zero_of_dvd hcongr, fold_natAbs_le hr s, fun hhalf d hd hle => ?_,
    fun hhalf => fold_state_of_ne_half hhalf s⟩
  have hdiff : (m : Int) ∣ d - (fold r m s).1 := by
    simpa using (Int.dvd_of_emod_eq_zero hd).sub hcongr
  exact eq_of_dvd_sub_of_natAbs hdiff hle (fold_natAbs_lt hr hhalf s)

/-- Settles O48: the gates of `ENC.RPM` in their order, then the quotient that fits and the one that does not. -/
theorem encRpmSpeed : Obligations.EncRpmSpeed := by
  intro now s
  refine ⟨decodesTo_of_encode_eq rfl, speed_dividend_lt _ _, speed_divisor_lt _ _, fun h => if_pos h,
    exec_encRpm_of_unseeded now, exec_encRpm_of_no_time, fun hin hseed hdt hcpr hlo hhi => ?_,
    fun hin hseed hdt _ hout => ?_⟩
  · exact exec_encRpm_of_time (k := 0) hin hseed hdt (speed_of_fits s hcpr hlo hhi)
  · exact exec_encRpm_of_time (k := 1) hin hseed hdt (speed_of_not_fits s hout)

/-- Settles O49: no change, a change with the counter stopped, a change with it running, for each input. -/
theorem quadratureEdgesCount : Obligations.QuadratureEdgesCount := by
  refine fun v s => ⟨decodesTo_of_encode_eq rfl, decodesTo_of_encode_eq rfl, fun h => if_pos h, fun h => if_pos h,
    exec_evQa_of_stopped, exec_evQb_of_stopped, fun hv hcen => ?_, fun hv hcen => ?_⟩
  · rw [exec_evQa_of_running hv hcen, countUp_eq, countDown_eq]
  · rw [exec_evQb_of_running hv hcen, countUp_eq, countDown_eq]

/-- Settles O50: the handler that is pending adds or subtracts; one that is not cannot occur. -/
theorem evEncirqCompensates : Obligations.EvEncirqCompensates := fun _ =>
  ⟨decodesTo_of_encode_eq rfl, exec_evEncirq_of_up, exec_evEncirq_of_down, exec_evEncirq_of_not_pending⟩

end Sys2Proof.Machine

/-! PROOFS. `ENC.UPDATE` (R197): its sub-steps with no turn given to another agent, the counts it makes up for (R206,
R207), and a handler that falls inside it (R199). -/

namespace Sys2Proof.Machine

/-! ## The sub-steps of an update -/

/-- R197: the state after U1 with the fold `d`, and `n` draws made. -/
def State.afterU1 (s : State) (d : Int) (n : Nat) : State :=
  { s with enc := { s.enc with hwCount := s.enc.cnt }, draws := n, inProgress := some (.updateU2 d) }

/-- R197: the state after U3, where U2 read `x`. -/
def State.afterU3 (s : State) (d : Int) (x : Word) : State :=
  { s with
    enc := { s.enc with total := x + BitVec.ofInt 32 d, lastHw := s.enc.hwCount }
    inProgress := none }.respond .success (x + BitVec.ofInt 32 d)

/-- R197: the state an update ends in, where nothing has come between its sub-steps. -/
def State.updatedBy (s : State) (d : Int) (n : Nat) : State := (s.afterU1 d n).afterU3 d s.enc.total

section
variable {s : State} {d : Int} {n : Nat}

theorem subStep_updateU3 (d : Int) (x : Word) (s : State) : subStep (.updateU3 d x) s = .next (s.afterU3 d x) := by
  rw [subStep, encUpdateU3, toI32_add, complete_eq]
  rfl

/-- R197: U1, and then the host goes on. -/
theorem exec_encUpdate (hin : s.enc.inited = true)
    (hfold : fold (countResidue s.enc.cnt s.enc.lastHw s.enc.modulus) s.enc.modulus s = (d, { s with draws := n })) :
    exec .encUpdate s = hostGoesOn (s.afterU1 d n) := by
  refine (ite_inited_eq hin).trans ?_
  rw [hfold, continueHost_eq]
  rfl

/-- With no turn given to another agent, the host going on is a step of its command in progress. -/
theorem hostGoesOn_eq_step {p : Progress} (hp : s.inProgress = some p) (hturns : s.preempt = []) :
    hostGoesOn s = step s := by
  rw [hostGoesOn, if_neg (by simp [hp, hturns])]

theorem step_undisturbed {p : Progress} {t : State} (hp : s.inProgress = some p) (hturns : s.preempt = [])
    (h : subStep p s = .next t) : step s = hostGoesOn t :=
  step_subStep hp (by simp [othersTurn, hturns]) (by rw [turnTaken_of_no_turns hturns, h])

theorem step_updateU3 {x : Word} (hp : s.inProgress = some (.updateU3 d x)) (hturns : s.preempt = []) :
    step s = .next (s.afterU3 d x) :=
  (step_undisturbed hp hturns (subStep_updateU3 d x s)).trans (hostGoesOn_done rfl)

theorem step_updateU2 (hp : s.inProgress = some (.updateU2 d)) (hturns : s.preempt = []) :
    step s = .next (s.afterU3 d s.enc.total) := by
  calc step s
      = hostGoesOn { s with inProgress := some (.updateU3 d s.enc.total) } := step_undisturbed hp hturns rfl
    _ = step { s with inProgress := some (.updateU3 d s.enc.total) } := hostGoesOn_eq_step rfl hturns
    _ = .next (s.afterU3 d s.enc.total) := step_updateU3 rfl hturns

theorem exec_encUpdate_undisturbed (hturns : s.preempt = []) (hin : s.enc.inited = true)
    (hfold : fold (countResidue s.enc.cnt s.enc.lastHw s.enc.modulus) s.enc.modulus s = (d, { s with draws := n })) :
    exec .encUpdate s = .next (s.updatedBy d n) := by
  calc exec .encUpdate s
      = hostGoesOn (s.afterU1 d n) := exec_encUpdate hin hfold
    _ = step (s.afterU1 d n) := hostGoesOn_eq_step rfl hturns
    _ = .next (s.updatedBy d n) := step_updateU2 rfl hturns

/-- An update issued with no command in progress leaves that as it was. -/
theorem updatedBy_of_idle (h : s.inProgress = none) (d : Int) (n : Nat) :
    s.updatedBy d n = { s with
      enc := { s.enc with hwCount := s.enc.cnt, lastHw := s.enc.cnt, total := s.enc.total + BitVec.ofInt 32 d }
      draws := n }.respond .success (s.enc.total + BitVec.ofInt 32 d) := by
  rw [State.updatedBy, State.afterU3, ← h]
  rfl

end

/-! ## Counting -/

section
variable {s : State}

/-- R112, R203: `EV.QSTEP +1` changes one input and counts up. -/
theorem exec_quadratureUp (hcen : s.enc.cen = true) :
    ∃ qa qb, exec (quadratureUp s.enc) s = .next { s with enc := ({ s.enc with qa := qa, qb := qb }).countUp } := by
  unfold quadratureUp Encoder.levelA Encoder.levelB
  by_cases h : (s.enc.qa ^^ s.enc.pola) = (s.enc.qb ^^ s.enc.polb)
  · refine ⟨!s.enc.qa, s.enc.qb, ?_⟩
    rw [if_pos h, exec_evQa_of_running (by simp) hcen, if_pos (by simp [← h])]
  · refine ⟨s.enc.qa, !s.enc.qb, ?_⟩
    rw [if_neg h, exec_evQb_of_running (by simp) hcen, if_pos (by rw [Bool.not_xor]; exact Bool.eq_not.mpr h)]

/-- R112, R203: `EV.QSTEP −1` changes one input and counts down. -/
theorem exec_quadratureDown (hcen : s.enc.cen = true) :
    ∃ qa qb, exec (quadratureDown s.enc) s
      = .next { s with enc := ({ s.enc with qa := qa, qb := qb }).countDown } := by
  unfold quadratureDown Encoder.levelA Encoder.levelB
  by_cases h : (s.enc.qa ^^ s.enc.pola) = (s.enc.qb ^^ s.enc.polb)
  · refine ⟨s.enc.qa, !s.enc.qb, ?_⟩
    rw [if_pos h, exec_evQb_of_running (by simp) hcen, if_neg (by simp [← h])]
  · refine ⟨!s.enc.qa, s.enc.qb, ?_⟩
    rw [if_neg h, exec_evQa_of_running (by simp) hcen, if_neg (by simpa using h)]

end

/-- R203: counting up adds 1 modulo the modulus. -/
theorem modulus_dvd_countUp {e : Encoder} (h : e.cnt.toNat ≤ e.arr.toNat) :
    (e.modulus : Int) ∣ (e.countUp.cnt.toNat : Int) - e.cnt.toNat - 1 := by
  have harr := e.arr.isLt
  rw [countUp_eq, Encoder.modulus]
  by_cases htop : e.cnt = e.arr
  · refine ⟨-1, ?_⟩
    simp [htop]
    omega
  · have hlt : e.cnt.toNat < e.arr.toNat := lt_of_le_of_ne h fun c => htop (BitVec.eq_of_toNat_eq c)
    have hone : (1 : Half).toNat = 1 := rfl
    refine ⟨0, ?_⟩
    simp only [htop, if_false, BitVec.toNat_add, hone]
    omega

/-- R203: counting down subtracts 1 modulo the modulus. -/
theorem modulus_dvd_countDown (e : Encoder) :
    (e.modulus : Int) ∣ (e.countDown.cnt.toNat : Int) - e.cnt.toNat - -1 := by
  rw [countDown_eq, Encoder.modulus]
  by_cases hzero : e.cnt = 0
  · refine ⟨1, ?_⟩
    simp [hzero]
  · have hpos : e.cnt.toNat ≠ 0 := fun c => hzero (BitVec.eq_of_toNat_eq c)
    have hlt := e.cnt.isLt
    have hone : (1 : Half).toNat = 1 := rfl
    refine ⟨0, ?_⟩
    simp only [hzero, if_false, BitVec.toNat_sub, hone]
    omega

/-- A change of the counter alone, by a net number of counts: what an update reads besides is as it was. -/
structure CountedBy (s t : State) (net : Int) : Prop where
  preempt : t.preempt = s.preempt
  inited : t.enc.inited = s.enc.inited
  cen : t.enc.cen = s.enc.cen
  arr : t.enc.arr = s.enc.arr
  lastHw : t.enc.lastHw = s.enc.lastHw
  total : t.enc.total = s.enc.total
  cnt_le : t.enc.cnt.toNat ≤ t.enc.arr.toNat
  net : (s.enc.modulus : Int) ∣ (t.enc.cnt.toNat : Int) - s.enc.cnt.toNat - net

namespace CountedBy

theorem refl {s : State} (h : s.enc.cnt.toNat ≤ s.enc.arr.toNat) : CountedBy s s 0 :=
  ⟨rfl, rfl, rfl, rfl, rfl, rfl, h, by simp⟩

theorem trans {s t u : State} {j k : Int} (hst : CountedBy s t j) (htu : CountedBy t u k) :
    CountedBy s u (j + k) := by
  have hmod : t.enc.modulus = s.enc.modulus := by rw [Encoder.modulus, Encoder.modulus, hst.arr]
  have hsplit : (u.enc.cnt.toNat : Int) - s.enc.cnt.toNat - (j + k)
      = ((t.enc.cnt.toNat : Int) - s.enc.cnt.toNat - j) + ((u.enc.cnt.toNat : Int) - t.enc.cnt.toNat - k) := by ring
  exact ⟨htu.preempt.trans hst.preempt, htu.inited.trans hst.inited, htu.cen.trans hst.cen, htu.arr.trans hst.arr,
    htu.lastHw.trans hst.lastHw, htu.total.trans hst.total, htu.cnt_le, hsplit ▸ hst.net.add (hmod ▸ htu.net)⟩

theorem up {s : State} (h : s.enc.cnt.toNat ≤ s.enc.arr.toNat) (qa qb : Bool) :
    CountedBy s { s with enc := ({ s.enc with qa := qa, qb := qb }).countUp } 1 := by
  have hle := countUp_cnt_le { s.enc with qa := qa, qb := qb } h
  have hnet := modulus_dvd_countUp (e := { s.enc with qa := qa, qb := qb }) h
  rw [countUp_frame] at hle hnet ⊢
  exact ⟨rfl, rfl, rfl, rfl, rfl, rfl, hle, hnet⟩

theorem down {s : State} (h : s.enc.cnt.toNat ≤ s.enc.arr.toNat) (qa qb : Bool) :
    CountedBy s { s with enc := ({ s.enc with qa := qa, qb := qb }).countDown } (-1) := by
  have hle := countDown_cnt_le { s.enc with qa := qa, qb := qb } h
  have hnet := modulus_dvd_countDown { s.enc with qa := qa, qb := qb }
  rw [countDown_frame] at hle hnet ⊢
  exact ⟨rfl, rfl, rfl, rfl, rfl, rfl, hle, hnet⟩

end CountedBy

/-- R112: one count of a run, up or down. -/
theorem exec_quadratureStep {s : State} (up : Bool) (hcen : s.enc.cen = true)
    (h : s.enc.cnt.toNat ≤ s.enc.arr.toNat) :
    ∃ t, exec (if up then quadratureUp s.enc else quadratureDown s.enc) s = .next t
      ∧ CountedBy s t (if up then 1 else -1) := by
  cases up
  · obtain ⟨qa, qb, hexec⟩ := exec_quadratureDown hcen
    exact ⟨_, hexec, .down h qa qb⟩
  · obtain ⟨qa, qb, hexec⟩ := exec_quadratureUp hcen
    exact ⟨_, hexec, .up h qa qb⟩

/-- R206: a run of counts goes on to its end and counts its net number. -/
theorem quadratureRun_counts (ds : List Bool) {s : State} (hcen : s.enc.cen = true)
    (h : s.enc.cnt.toNat ≤ s.enc.arr.toNat) :
    ∃ t, quadratureRun ds s = .next t ∧ CountedBy s t (netCounts ds) := by
  induction ds generalizing s with
  | nil => exact ⟨s, rfl, .refl h⟩
  | cons up ds ih =>
    obtain ⟨u, hexec, hu⟩ := exec_quadratureStep up hcen h
    obtain ⟨t, hrun, ht⟩ := ih (hu.cen.trans hcen) hu.cnt_le
    exact ⟨t, by rw [quadratureRun, hexec]; exact hrun, hu.trans ht⟩

/-! ## The update after a run of counts -/

/-- R197, R206: the update adds an integer congruent to the difference of the counts and within half the modulus. -/
theorem exec_encUpdate_folds {s : State} (hturns : s.preempt = []) (hin : s.enc.inited = true) :
    ∃ d n, exec .encUpdate s = .next (s.updatedBy d n)
      ∧ (s.enc.modulus : Int) ∣ d - ((s.enc.cnt.toNat : Int) - s.enc.lastHw.toNat)
      ∧ 2 * d.natAbs ≤ s.enc.modulus := by
  have hm : 0 < s.enc.modulus := Nat.succ_pos _
  have hdvd := (dvd_fold_sub (countResidue s.enc.cnt s.enc.lastHw s.enc.modulus) s.enc.modulus s).add
    (modulus_dvd_countResidue s.enc.cnt s.enc.lastHw hm)
  rw [sub_add_sub_cancel] at hdvd
  obtain ⟨n, hn⟩ := fold_state (countResidue s.enc.cnt s.enc.lastHw s.enc.modulus) s.enc.modulus s
  exact ⟨_, n, exec_encUpdate_undisturbed hturns hin (Prod.ext rfl hn), hdvd,
    fold_natAbs_le (countResidue_lt _ _ hm) s⟩

/-- R207: the residue of a count that wrapped from the top value to 0 is 1. -/
theorem countResidue_wrapped {top : Half} (h : 0 < top.toNat) : countResidue 0 top (top.toNat + 1) = 1 := by
  have hwrap : ((0 : Half).toNat : Int) - top.toNat = 1 - ((top.toNat + 1 : Nat) : Int) := by simp
  rw [countResidue, hwrap, Int.sub_emod_right, Int.emod_eq_of_lt (by omega) (by omega)]
  rfl

/-- R203: the state after an up count from the top value, with the levels the count left. -/
def State.wrappedUp (s : State) (qa qb : Bool) : State :=
  { s with enc := { s.enc with qa := qa, qb := qb, cnt := 0, uif := true, dir := false } }

theorem exec_quadratureUp_wraps {s : State} (hcen : s.enc.cen = true) (htop : s.enc.cnt = s.enc.arr) :
    ∃ qa qb, exec (quadratureUp s.enc) s = .next (s.wrappedUp qa qb) := by
  obtain ⟨qa, qb, hup⟩ := exec_quadratureUp hcen
  refine ⟨qa, qb, hup.trans ?_⟩
  rw [Encoder.countUp, if_pos htop]
  rfl

/-! ## A handler inside an update -/

/-- R197: the state after U2, which took a turn. -/
def State.afterU2 (s : State) (d : Int) (n : Nat) : State :=
  { s.afterU1 d n with inProgress := some (.updateU3 d s.enc.total), preempt := s.preempt.tail }

/-- R199: the host pauses after U2 where the turn after it is another agent's. -/
theorem hostGoesOn_afterU1_paused {s : State} (d : Int) (n : Nat) (hhost : s.preempt.headD false = false)
    (hother : s.preempt.tail.headD false = true) : hostGoesOn (s.afterU1 d n) = .next (s.afterU2 d n) :=
  (hostGoesOn_subStep (s := s.afterU1 d n) (t := s.afterU2 d n) rfl hhost rfl).trans (hostGoesOn_paused hother)

/-- R249: on another agent's turn the step is the event at the head of the trace. -/
theorem step_of_event {s : State} {i : Instr} {p : Progress} {w : Word} {rest : List Word}
    (hp : s.inProgress = some p) (hturn : s.preempt.headD false = true) (htrace : s.trace = w :: rest)
    (hw : isEventWord w = true) (hd : decode (w :: rest) = .step i rest) :
    step s = exec i { s.turnTaken with trace := rest } := by
  have hnext : nextIsEvent s = true := by rw [nextIsEvent, htrace]; exact hw
  have hother : (othersTurn s && nextIsEvent s) = true := by rw [hnext, Bool.and_true]; exact hturn
  have hevent : issuedByHost i = false := by rw [decode_unit hd, hw]; rfl
  have hrun := runTrace_of_step (s := s.turnTaken) (htrace ▸ hd) (by simp [hevent])
  rw [← hrun, step, nextStep, hp]
  exact if_pos hother

/-- R205: the state after the handler of a counter counting up. -/
def State.handledUp (s : State) : State :=
  { s with enc := { s.enc with uif := false, total := s.enc.total + BitVec.ofNat 32 (s.enc.arr.toNat + 1) } }

/-- The handler's step, where it is the last of the trace and has the last turn. -/
theorem step_evEncirq {s : State} {p : Progress} (hp : s.inProgress = some p) (hturn : s.preempt = [true])
    (htrace : s.trace = [0xE6000000]) (huif : s.enc.uif = true) (huie : s.enc.uie = true) (hdir : s.enc.dir = false) :
    step s = .next { s.handledUp with trace := [], preempt := [] } := by
  have hdecode : DecodesTo [0xE6000000] .evEncirq := decodesTo_of_encode_eq rfl
  rw [step_of_event hp (by rw [hturn]; rfl) htrace rfl (hdecode []), State.turnTaken, hturn]
  exact exec_evEncirq_of_up huif huie hdir

/-! ## The statements -/

/-- Settles O45, by the branches of the fold. -/
theorem encUpdateFoldsDifference : Obligations.EncUpdateFoldsDifference := by
  intro s hturns hidle m r updated
  have hupdate {d : Int} {k : Nat} (hin : s.enc.inited = true)
      (hfold : fold r m s = (d, { s with draws := s.draws + k })) : exec .encUpdate s = .next (updated d k) := by
    rw [exec_encUpdate_undisturbed hturns hin hfold, updatedBy_of_idle hidle]
  refine ⟨decodesTo_of_encode_eq rfl, fun h => if_pos h, fun hin hr => hupdate hin (fold_of_lt s hr),
    fun hin hr => hupdate hin (fold_of_gt s hr), fun hin hr hcfg => hupdate hin ?_,
    fun hin hr hcfg => hupdate hin ?_, fun hin hr hcfg => hupdate hin ?_⟩
  all_goals
    rw [fold_of_half s hr, hcfg]
    rfl

/-- Settles O51: the run counts its net number, and the update folds the difference it left. -/
theorem updateTracksNetCounts : Obligations.UpdateTracksNetCounts := by
  intro ds s hturns hin hcen _ hle hread
  obtain ⟨t, hrun, ht⟩ := quadratureRun_counts ds hcen hle
  obtain ⟨d, k, hexec, hdvd, hd⟩ := exec_encUpdate_folds (ht.preempt.trans hturns) (ht.inited.trans hin)
  have hmod : t.enc.modulus = s.enc.arr.toNat + 1 := by rw [Encoder.modulus, ht.arr]
  rw [ht.lastHw, hread, hmod] at hdvd
  rw [hmod] at hd
  have hnet : ((s.enc.arr.toNat + 1 : Nat) : Int) ∣ d - netCounts ds := by
    simpa using hdvd.add ht.net
  refine ⟨t, _, d, hrun, hexec, ?_, rfl, Int.emod_eq_zero_of_dvd hnet, hd, eq_of_dvd_sub_of_natAbs hnet hd⟩
  rw [← ht.total]
  rfl

/-- Settles O52: the count wraps to 0, the handler adds the modulus for it, and the residue of the update is 1. -/
theorem shortWrapCountedTwice : Obligations.ShortWrapCountedTwice := by
  intro s hturns hin hcen huie harr htop hread
  obtain ⟨qa, qb, hcount⟩ := exec_quadratureUp_wraps hcen htop
  have hirq : exec .evEncirq (s.wrappedUp qa qb) = .next (s.wrappedUp qa qb).handledUp :=
    exec_evEncirq_of_up rfl huie rfl
  have hresidue : countResidue 0 s.enc.lastHw (s.enc.arr.toNat + 1) = 1 := by
    rw [hread, countResidue_wrapped (by omega)]
  have hlt : 2 * 1 < s.enc.arr.toNat + 1 := by omega
  have hupdate : exec .encUpdate (s.wrappedUp qa qb).handledUp
      = .next ((s.wrappedUp qa qb).handledUp.updatedBy 1 s.draws) :=
    exec_encUpdate_undisturbed hturns hin ((congrArg (fold · _ _) hresidue).trans (fold_of_lt _ hlt))
  refine ⟨(s.wrappedUp qa qb).handledUp.updatedBy 1 s.draws, ?_, rfl⟩
  rw [execAll_cons hcount, execAll_cons hirq, execAll_cons hupdate, execAll]

/-- Settles O47: U2 reads `total` after the handler has written it, or before. -/
theorem handlerInsideUpdateIsLost : Obligations.HandlerInsideUpdateIsLost := by
  intro s late hidle hdelay hin huif huie hdir htrace hturns m r hr
  have hdecode : decode s.trace = .step .encUpdate [0xE6000000] :=
    htrace ▸ (decodesTo_of_encode_eq rfl : DecodesTo [0x36000000] .encUpdate) [0xE6000000]
  have hissue : step s = hostGoesOn (({ s with trace := [0xE6000000] } : State).afterU1 r s.draws) := by
    rw [stepRunsDecodedInstruction s _ _ hidle hdecode fun _ => hdelay]
    exact exec_encUpdate hin (fold_of_lt _ hr)
  cases late
  case false =>
    have hpause := hissue.trans (hostGoesOn_paused (congrArg (·.headD false) hturns))
    refine ⟨_, _, _, hpause, step_evEncirq rfl hturns rfl huif huie hdir, step_updateU2 rfl rfl, rfl, ?_, rfl, rfl⟩
    rw [← BitVec.ofInt_natCast 32 r, if_neg (by decide)]
    exact add_right_comm _ _ _
  case true =>
    have hpause := hissue.trans (hostGoesOn_afterU1_paused r s.draws (congrArg (·.headD false) hturns)
      (congrArg (·.tail.headD false) hturns))
    refine ⟨_, _, _, hpause, step_evEncirq rfl (congrArg List.tail hturns) rfl huif huie hdir, step_updateU3 rfl rfl,
      rfl, ?_, rfl, rfl⟩
    rw [← BitVec.ofInt_natCast 32 r, if_pos rfl]
    exact (BitVec.add_zero _).symm

end Sys2Proof.Machine

/-! PROOFS. The buttons (44_button.md): what each instruction of the unit does, case by case, then a registered button
held at its active level from poll to poll (R228). -/

namespace Sys2Proof.Machine

/-! ## Handles and pins -/

/-- R101, R220: the words of `BTN.INIT` as the spec's encoding line gives them. -/
theorem encode_btnInit (b : BitVec 3) (pin port : BitVec 4) (al : Bool) :
    encode (.btnInit b pin port al)
      = [0x40000000#32 ||| place b 0 ||| place pin 4 ||| place port 8 ||| placeBit al 12] := by
  simp only [encode, stepWord, BitVec.or_assoc]
  rfl

/-- R101, R227: the word of `EV.PIN` as the spec's encoding line gives it. -/
theorem encode_evPin (v : Bool) (pin port : BitVec 4) :
    encode (.evPin v pin port) = [0xE7000000#32 ||| placeBit v 0 ||| place pin 4 ||| place port 8] := by
  simp only [encode, stepWord, BitVec.or_assoc]
  rfl

theorem exec_btnInit (b : BitVec 3) (pin port : BitVec 4) (al : Bool) (s : State) :
    exec (.btnInit b pin port al) s = .next ((s.setButton b {
      port := port, pin := pin, activeLevel := al, current := false, last := false, pressLatch := false
      shiftReg := 0, initialized := true }).respond .success 0) := rfl

theorem exec_evPin (v : Bool) (pin port : BitVec 4) (s : State) :
    exec (.evPin v pin port) s = .next (s.setGpio port pin v) := rfl

/-- R227: a read of any pin after the write of one. -/
theorem State.gpioLevel_setGpio (s : State) (port pin p q : BitVec 4) (v : Bool) :
    (s.setGpio port pin v).gpioLevel p q = if p = port ∧ q = pin then v else s.gpioLevel p q := by
  by_cases h : p = port ∧ q = pin
  · obtain ⟨rfl, rfl⟩ := h
    rw [State.gpioLevel_setGpio_same, if_pos ⟨rfl, rfl⟩]
  · rw [State.gpioLevel_setGpio_other s port pin p q v (mt Prod.mk.inj h), if_neg h]

section
variable {b : BitVec 3} {s : State}

theorem exec_btnTake_of_initialized (h : (s.button b).initialized = true) :
    exec (.btnTake b) s = .next ((s.setButton b { s.button b with pressLatch := false }).respond .success
      (if (s.button b).pressLatch then 1 else 0)) := if_neg (ne_false_of_eq_true h)

theorem exec_btnPressed_of_initialized (h : (s.button b).initialized = true) :
    exec (.btnPressed b) s = .next (s.respond .success (if (s.button b).current then 1 else 0)) :=
  if_neg (ne_false_of_eq_true h)

/-! ## Registration -/

/-- R48: the registered handles are those in the slots below the count. -/
theorem Manager.mem_registered_iff (m : Manager) (b : BitVec 3) :
    b ∈ m.registered ↔ ∃ (k : Nat) (_ : k < 8), k < m.count.toNat ∧ m.slot[k] = b := by
  rw [Manager.registered, List.mem_take_iff_getElem]
  constructor
  · rintro ⟨k, hk, rfl⟩
    obtain ⟨hcount, hslots⟩ := lt_min_iff.mp hk
    exact ⟨k, by simpa using hslots, hcount, rfl⟩
  · rintro ⟨k, hk, hcount, rfl⟩
    exact ⟨k, lt_min hcount (by simpa using hk), rfl⟩

theorem setIfInBounds_eq_set {α : Type} {n i : Nat} (v : Vector α n) (x : α) (h : i < n) :
    v.setIfInBounds i x = v.set i x h := by
  ext j hj
  simp [Vector.getElem_setIfInBounds, Vector.getElem_set]

/-- R222: the first two checks. -/
theorem exec_btnAdd_of_uninitialized (h : s.mgr.inited = false ∨ (s.button b).initialized = false) :
    exec (.btnAdd b) s = .next (s.respond .uninitialized 0) := by
  by_cases hin : s.mgr.inited = false
  · exact if_pos hin
  · exact (if_neg hin).trans (if_pos (h.resolve_left hin))

/-- R222: behind the first two checks, the other two. -/
theorem exec_btnAdd_of_initialized (hin : s.mgr.inited = true) (hb : (s.button b).initialized = true) :
    exec (.btnAdd b) s =
      if s.mgr.count = 8 then raise s .invalidArgument
      else if b ∈ s.mgr.registered then raise s .invalidArgument
      else complete { s with mgr := { s.mgr with
        slot := s.mgr.slot.setIfInBounds s.mgr.count.toNat b, count := s.mgr.count + 1 } } 0 :=
  (if_neg (ne_false_of_eq_true hin)).trans (if_neg (ne_false_of_eq_true hb))

theorem exec_btnAdd_of_invalid (hin : s.mgr.inited = true) (hb : (s.button b).initialized = true)
    (h : s.mgr.count = 8 ∨ b ∈ s.mgr.registered) :
    exec (.btnAdd b) s = .next (s.respond .invalidArgument 0) := by
  rw [exec_btnAdd_of_initialized hin hb]
  by_cases hfull : s.mgr.count = 8
  · exact if_pos hfull
  · exact (if_neg hfull).trans (if_pos (h.resolve_left hfull))

theorem exec_btnAdd_of_new (hin : s.mgr.inited = true) (hb : (s.button b).initialized = true)
    (hc : s.mgr.count.toNat < 8) (hnew : b ∉ s.mgr.registered) :
    exec (.btnAdd b) s = .next ({ s with mgr := { s.mgr with
      slot := s.mgr.slot.set s.mgr.count.toNat b hc, count := s.mgr.count + 1 } }.respond .success 0) := by
  have hfree : s.mgr.count ≠ 8 := fun hfull => absurd hc (by rw [hfull]; decide)
  rw [exec_btnAdd_of_initialized hin hb, if_neg hfree, if_neg hnew, setIfInBounds_eq_set s.mgr.slot b hc, complete_eq]

end

/-! ## The debounce law -/

/-- R224: the shift register after a sample at a pin level. -/
def Button.shifted (h : Button) (level : Bool) : BitVec 8 :=
  h.shiftReg <<< 1 ||| if level = h.activeLevel then 1 else 0

/-- R224: the last four samples, with the one at this level. -/
def Button.window (h : Button) (level : Bool) : Nat := (h.shifted level).toNat % 16

theorem lowNibble_eq_iff (x : BitVec 8) (c : BitVec 4) : x.extractLsb' 0 4 = c ↔ x.toNat % 16 = c.toNat := by
  rw [← BitVec.toNat_inj, BitVec.extractLsb'_toNat, Nat.shiftRight_zero]

/-- R224: the debounce law on the value of the last four samples. -/
theorem Button.sample_eq (h : Button) (level : Bool) :
    h.sample level = { h with
      shiftReg := h.shifted level
      last := h.current
      current := if h.window level = 0b1111 ∧ h.current = false then true
        else if h.window level = 0b0000 ∧ h.current = true then false else h.current
      pressLatch := if h.window level = 0b1111 ∧ h.current = false then true else h.pressLatch } := by
  simp only [Button.sample, Button.shifted, Button.window, lowNibble_eq_iff, Bool.and_eq_true, decide_eq_true_eq,
    Bool.not_eq_true', BitVec.toNat_ofNat]
  rfl

/-- R224: a handle as one sample of its pin leaves it. -/
def State.sampledButton (s : State) (b : BitVec 3) : Button :=
  (s.button b).sample (s.gpioLevel (s.button b).port (s.button b).pin)

theorem button_sampleHandle_same (s : State) (b : BitVec 3) : (sampleHandle s b).button b = s.sampledButton b :=
  State.button_setButton_same s b _

theorem button_sampleHandle_other (s : State) {b c : BitVec 3} (h : b ≠ c) :
    (sampleHandle s c).button b = s.button b := State.button_setButton_other s c b _ h

/-- A sample of one handle leaves what another will sample. -/
theorem sampledButton_sampleHandle_other (s : State) {b c : BitVec 3} (h : b ≠ c) :
    (sampleHandle s c).sampledButton b = s.sampledButton b := by
  rw [State.sampledButton, button_sampleHandle_other s h]
  rfl

/-- R223: where no handle is listed twice, each listed one takes one sample and no other is touched. -/
theorem button_foldl_sampleHandle {bs : List (BitVec 3)} (hnodup : bs.Nodup) (s : State) (b : BitVec 3) :
    (bs.foldl sampleHandle s).button b = if b ∈ bs then s.sampledButton b else s.button b := by
  induction bs generalizing s with
  | nil => rfl
  | cons c bs ih =>
    obtain ⟨hc, hbs⟩ := List.nodup_cons.mp hnodup
    rw [List.foldl_cons, ih hbs]
    by_cases hbc : b = c
    · subst hbc
      rw [if_neg hc, if_pos List.mem_cons_self, button_sampleHandle_same]
    · simp [hbc, button_sampleHandle_other s hbc, sampledButton_sampleHandle_other s hbc]

/-! ## The scan -/

section
variable {s : State}

theorem exec_btnScan_of_not_due (hin : s.mgr.inited = true) (h : ¬ TimerDue 1 s) :
    exec .btnScan s = .next (s.respond .success 0) := by
  refine (if_neg (ne_false_of_eq_true hin)).trans ?_
  rw [timerExpired_of_not_due h]
  rfl

/-- R223: an expired scan writes timer 1 and the handles, and samples each registered handle. -/
theorem exec_btnScan_of_due (hin : s.mgr.inited = true) (hnodup : s.mgr.registered.Nodup) (h : TimerDue 1 s) :
    ∃ btn, exec .btnScan s
        = .next ({ s.setTimer 1 ((s.timer 1).afterExpiry s.tick.ms) with btn := btn }.respond .success 1)
      ∧ ∀ b : BitVec 3, btn[b.toNat]'b.isLt
          = if b ∈ s.mgr.registered then s.sampledButton b else s.button b := by
  have hscan : exec .btnScan s = .next ((s.mgr.registered.foldl sampleHandle
      (s.setTimer 1 ((s.timer 1).afterExpiry s.tick.ms))).respond .success 1) := by
    refine (if_neg (ne_false_of_eq_true hin)).trans ?_
    rw [timerExpired_of_due h]
    rfl
  have hbuttons := button_foldl_sampleHandle hnodup (s.setTimer 1 ((s.timer 1).afterExpiry s.tick.ms))
  obtain ⟨btn, hframe⟩ :=
    foldl_sampleHandle_frame s.mgr.registered (s.setTimer 1 ((s.timer 1).afterExpiry s.tick.ms))
  rw [hframe] at hscan hbuttons
  exact ⟨btn, hscan, hbuttons⟩

end

/-! ## A button held at its active level -/

/-- R224: a handle that was released and has then taken `k` samples at its active level. -/
structure Button.HeldFor (h : Button) (k : Nat) : Prop where
  shifted : ∀ i < k, h.shiftReg.getLsbD i = true
  committed : 4 ≤ k → h.current = true
  latched : h.current = true → h.pressLatch = true

theorem Button.HeldFor.of_released {h : Button} (hrel : h.current = false) : h.HeldFor 0 :=
  ⟨nofun, nofun, fun hpressed => absurd hpressed (ne_true_of_eq_false hrel)⟩

/-- R224: a sample at the active level puts a 1 in front of the samples before it. -/
theorem Button.HeldFor.getLsbD_shifted {h : Button} {k : Nat} (held : h.HeldFor k) (hk : k < 8) {i : Nat}
    (hi : i < k + 1) : (h.shifted h.activeLevel).getLsbD i = true := by
  rw [Button.shifted, if_pos rfl]
  cases i with
  | zero => simp
  | succ i =>
    have hlt : i + 1 < 8 := by omega
    rw [BitVec.getLsbD_or, BitVec.getLsbD_shiftLeft, Nat.add_sub_cancel, held.shifted i (by omega)]
    simp [hlt]

theorem Button.HeldFor.window_eq {h : Button} {k : Nat} (held : h.HeldFor k) (hk : k < 8) (hfour : 4 ≤ k + 1) :
    h.window h.activeLevel = 0b1111 := by
  refine (lowNibble_eq_iff (h.shifted h.activeLevel) 0b1111#4).mp (BitVec.eq_of_getLsbD_eq fun i hi => ?_)
  have hones : (0b1111#4).getLsbD i = true := BitVec.getLsbD_allOnes.trans (decide_eq_true hi)
  rw [hones, BitVec.getLsbD_extractLsb', Nat.zero_add, held.getLsbD_shifted hk (by omega), decide_eq_true hi]
  rfl

theorem Button.HeldFor.window_ne_zero {h : Button} {k : Nat} (held : h.HeldFor k) (hk : k < 8) :
    h.window h.activeLevel ≠ 0b0000 := by
  intro hzero
  have hbit := held.getLsbD_shifted hk (Nat.succ_pos k)
  have hbits := (lowNibble_eq_iff (h.shifted h.activeLevel) 0b0000#4).mpr hzero
  have hclear : ((h.shifted h.activeLevel).extractLsb' 0 4).getLsbD 0 = false := by rw [hbits]; rfl
  rw [BitVec.getLsbD_extractLsb', Nat.zero_add, hbit] at hclear
  cases hclear

/-- R228: one more sample at the active level, which presses the handle or leaves it as it was. -/
theorem Button.HeldFor.sample {h : Button} {k : Nat} (held : h.HeldFor k) (hk : k < 8) :
    (h.sample h.activeLevel).HeldFor (k + 1) := by
  have hnorelease : ¬ (h.window h.activeLevel = 0b0000 ∧ h.current = true) :=
    fun hrel => held.window_ne_zero hk hrel.1
  rw [Button.sample_eq, if_neg hnorelease]
  refine ⟨fun i hi => held.getLsbD_shifted hk hi, fun hfour => ?_, fun hpressed => ?_⟩
  · cases hcur : h.current
    · exact if_pos ⟨held.window_eq hk hfour, rfl⟩
    · exact ite_self true
  · by_cases hpress : h.window h.activeLevel = 0b1111 ∧ h.current = false
    · exact if_pos hpress
    · have hcur : h.current = true := (if_neg hpress).symm.trans hpressed
      exact (if_neg hpress).trans (held.latched hcur)

/-- R224: a handle that is pressed latches no further event. -/
theorem sample_pressLatch_of_pressed {h : Button} (level : Bool) (hcur : h.current = true) :
    (h.sample level).pressLatch = h.pressLatch := by
  rw [Button.sample_eq]
  exact if_neg fun hpress => ne_false_of_eq_true hcur hpress.2

/-- Just after a scan: the systick counts, no hold is in progress, timer 1 has just started, and the registered handle
`b` has been held at its active level for `k` samples. -/
structure HeldForPolls (b : BitVec 3) (k : Nat) (s : State) : Prop where
  systEn : s.tick.systEn = true
  free : s.tick.delay.active = false
  inited : s.mgr.inited = true
  nodup : s.mgr.registered.Nodup
  registered : b ∈ s.mgr.registered
  initialized : (s.button b).initialized = true
  timer : s.timer 1 = { startMs := s.tick.ms, intervalMs := 5, enabled := true, autoReload := true }
  level : s.gpioLevel (s.button b).port (s.button b).pin = (s.button b).activeLevel
  held : (s.button b).HeldFor k

section
variable {b : BitVec 3} {k : Nat} {s : State}

/-- R136: timer 1 is due at the fifth tick. -/
theorem HeldForPolls.due (h : HeldForPolls b k s) : TimerDue 1 (s.ticked 5) := by
  have hsince : s.tick.ms + 5#32 - s.tick.ms = 5 := by rw [BitVec.add_comm, BitVec.add_sub_cancel]; rfl
  show (s.timer 1).enabled = true ∧ (s.timer 1).intervalMs ≤ s.tick.ms + 5#32 - (s.timer 1).startMs
  rw [h.timer, hsince]
  exact ⟨rfl, BitVec.le_refl _⟩

/-- R112: one poll of a held button answers 1 and takes one sample. -/
theorem HeldForPolls.poll (h : HeldForPolls b k s) (hk : k < 8) :
    ∃ t, execAll buttonPoll s = .next t ∧ t.responses = ⟨.success, 1⟩ :: s.responses ∧ HeldForPolls b (k + 1) t := by
  have hticks : execAll (List.replicate 5 .evTick) s = .next (s.ticked 5) :=
    execAll_ticks_of_not_over 5 h.systEn fun _ _ => holdOver_of_idle h.free
  obtain ⟨btn, hscan, hbtn⟩ := exec_btnScan_of_due (s := s.ticked 5) h.inited h.nodup h.due
  have hbutton : btn[b.toNat]'b.isLt = (s.button b).sample (s.button b).activeLevel :=
    ((hbtn b).trans (if_pos h.registered)).trans (congrArg (s.button b).sample h.level)
  refine ⟨_, (execAll_append (js := [.btnScan]) hticks).trans (execAll_cons hscan), rfl,
    h.systEn, h.free, h.inited, h.nodup, h.registered, ?_, ?_, ?_, ?_⟩
  · exact (congrArg Button.initialized hbutton).trans h.initialized
  · refine (State.timer_setTimer_same (s.ticked 5) 1 _).trans ?_
    show (s.timer 1).afterExpiry (s.ticked 5).tick.ms = _
    rw [h.timer]
    rfl
  · show s.gpioLevel (btn[b.toNat]'b.isLt).port (btn[b.toNat]'b.isLt).pin = (btn[b.toNat]'b.isLt).activeLevel
    rw [hbutton]
    exact h.level
  · show (btn[b.toNat]'b.isLt).HeldFor (k + 1)
    rw [hbutton]
    exact h.held.sample hk

theorem HeldForPolls.polls (h : HeldForPolls b k s) (n : Nat) (hn : k + n ≤ 8) :
    ∃ t, execAll (List.replicate n buttonPoll).flatten s = .next t
      ∧ t.responses = List.replicate n ⟨.success, 1⟩ ++ s.responses ∧ HeldForPolls b (k + n) t := by
  induction n with
  | zero => exact ⟨s, rfl, rfl, h⟩
  | succ n ih =>
    obtain ⟨t, hrun, hresp, ht⟩ := ih (by omega)
    obtain ⟨u, hpoll, hanswer, hu⟩ := ht.poll (by omega)
    refine ⟨u, ?_, ?_, hu⟩
    · rw [List.replicate_succ', List.flatten_append, List.flatten_singleton, execAll_append hrun, hpoll]
    · rw [hanswer, hresp, List.replicate_succ, List.cons_append]

/-- R225, R226: from a pressed and latched handle, the press is read, and its event is taken once. -/
theorem execAll_pressed_take_take (hin : (s.button b).initialized = true) (hcur : (s.button b).current = true)
    (hlatch : (s.button b).pressLatch = true) :
    ∃ t, execAll [.btnPressed b, .btnTake b, .btnTake b] s = .next t
      ∧ t.responses = [⟨.success, 0⟩, ⟨.success, 1⟩, ⟨.success, 1⟩] ++ s.responses := by
  have hpressed := exec_btnPressed_of_initialized hin
  have htake := exec_btnTake_of_initialized (s := s.respond .success 1) hin
  rw [hcur, if_pos rfl] at hpressed
  rw [State.button_respond, hlatch, if_pos rfl] at htake
  have hagain := exec_btnTake_of_initialized (b := b)
    (s := ((s.respond .success 1).setButton b { s.button b with pressLatch := false }).respond .success 1)
    (by simpa using hin)
  rw [State.button_respond, State.button_setButton_same, if_neg Bool.false_ne_true] at hagain
  exact ⟨_, (execAll_cons hpressed).trans ((execAll_cons htake).trans (execAll_cons hagain)), rfl⟩

end

/-! ## The statements -/

/-- Settles O53: each writes its fields, with no check. -/
theorem btnInitAndMinit : Obligations.BtnInitAndMinit := fun b pin port al s =>
  ⟨decodesTo_of_encode_eq (encode_btnInit b pin port al), decodesTo_of_encode_eq rfl, exec_btnInit b pin port al s, rfl⟩

/-- Settles O54: the first two checks, the other two, and the registration behind all four. -/
theorem btnAddRegisters : Obligations.BtnAddRegisters := by
  refine fun b s => ⟨decodesTo_of_encode_eq rfl, exec_btnAdd_of_uninitialized, fun hin hb hinvalid => ?_,
    fun hc hin hb hnew => ?_⟩
  · exact exec_btnAdd_of_invalid hin hb (hinvalid.imp_right (s.mgr.mem_registered_iff b).mpr)
  · refine exec_btnAdd_of_new hin hb hc fun hreg => ?_
    obtain ⟨k, hk, hcount, hslot⟩ := (s.mgr.mem_registered_iff b).mp hreg
    exact hnew k hk hcount hslot

/-- Settles O55: not initialised, not due, or one sample of each registered handle by the debounce law. -/
theorem btnScanSamplesRegistered : Obligations.BtnScanSamplesRegistered := by
  refine fun s hnodup => ⟨decodesTo_of_encode_eq rfl, fun h => if_pos h, exec_btnScan_of_not_due, fun hin hdue => ?_⟩
  obtain ⟨btn, hscan, hbtn⟩ := exec_btnScan_of_due hin hnodup hdue
  refine ⟨btn, hscan, fun b => ?_⟩
  rw [hbtn b, State.sampledButton, Button.sample_eq]
  simp only [Button.window, Button.shifted, decide_eq_true_eq]
  rfl

/-- Settles O56: four samples at the active level press the handle and set its latch, which the first take clears. -/
theorem fourPollsLatchOneEvent : Obligations.FourPollsLatchOneEvent := by
  refine ⟨fun s b hen hfree hmgr hnodup hreg hin hrel htimer hlevel => ?_,
    fun _ level => sample_pressLatch_of_pressed level⟩
  have hstart : HeldForPolls b 0 s :=
    ⟨hen, hfree, hmgr, hnodup, hreg, hin, htimer, hlevel, .of_released hrel⟩
  obtain ⟨t, hpolls, hpollsAnswer, ht⟩ := hstart.polls 4 (by decide)
  have hcur : (t.button b).current = true := ht.held.committed le_rfl
  obtain ⟨u, htakes, htakesAnswer⟩ := execAll_pressed_take_take ht.initialized hcur (ht.held.latched hcur)
  exact ⟨u, (execAll_append hpolls).trans htakes, by rw [htakesAnswer, hpollsAnswer]; rfl⟩

/-- Settles O57: both check that the handle is initialised. -/
theorem btnTakeAndPressed : Obligations.BtnTakeAndPressed := fun _ _ =>
  ⟨decodesTo_of_encode_eq rfl, decodesTo_of_encode_eq rfl, fun h => ⟨if_pos h, if_pos h⟩,
    fun h => ⟨exec_btnTake_of_initialized h, exec_btnPressed_of_initialized h⟩⟩

/-- Settles O58: the pins after the write of one. -/
theorem evPinSetsLevel : Obligations.EvPinSetsLevel := fun v pin port s =>
  ⟨decodesTo_of_encode_eq (encode_evPin v pin port), (s.setGpio port pin v).gpioIn, exec_evPin v pin port s,
    fun p q => s.gpioLevel_setGpio port pin p q v⟩

end Sys2Proof.Machine

/-! PROOFS. The exceptions (60_exceptions.md): the handlers and the tick in either order (R245), and what a raise leaves
(R241). -/

namespace Sys2Proof.Machine

/-! ## Events in either order -/

/-- The event occurs where `enabled` holds, and there does `act`; elsewhere it cannot occur (R11). -/
def OccursAs (i : Instr) (enabled : State → Bool) (act : State → State) : Prop :=
  ∀ s, exec i s = if enabled s then .next (act s) else .refused .eventNotEnabled

theorem OccursAs.exec_of_enabled {i : Instr} {enabled : State → Bool} {act : State → State}
    (hi : OccursAs i enabled act) {s : State} (h : enabled s = true) : exec i s = .next (act s) :=
  (hi s).trans (if_pos h)

theorem OccursAs.exec_of_not_enabled {i : Instr} {enabled : State → Bool} {act : State → State}
    (hi : OccursAs i enabled act) {s : State} (h : enabled s = false) : exec i s = .refused .eventNotEnabled :=
  (hi s).trans (if_neg (by simp [h]))

/-- Two events that do not decide whether the other can occur, and whose acts commute, give one outcome in both
orders. -/
theorem OccursAs.execAll_comm {i j : Instr} {ci cj : State → Bool} {f g : State → State} (hi : OccursAs i ci f)
    (hj : OccursAs j cj g) (hcj : ∀ s, cj (f s) = cj s) (hci : ∀ s, ci (g s) = ci s) (hfg : ∀ s, g (f s) = f (g s))
    (s : State) : execAll [i, j] s = execAll [j, i] s := by
  cases hs : ci s <;> cases ht : cj s
  · simp only [execAll, hi.exec_of_not_enabled hs, hj.exec_of_not_enabled ht]
  · simp only [execAll, hi.exec_of_not_enabled hs, hj.exec_of_enabled ht, hi.exec_of_not_enabled ((hci s).trans hs)]
  · simp only [execAll, hi.exec_of_enabled hs, hj.exec_of_not_enabled ht, hj.exec_of_not_enabled ((hcj s).trans ht)]
  · simp only [execAll, hi.exec_of_enabled hs, hj.exec_of_enabled ht, hj.exec_of_enabled ((hcj s).trans ht),
      hi.exec_of_enabled ((hci s).trans hs), hfg]

/-- R160: the stream after its handler. -/
def Sampler.served (p : Sampler) : Sampler :=
  { p with
    htif := p.htif && !p.htie
    tcif := p.tcif && !p.tcie
    batchReady := p.batchReady || (p.tcif && p.tcie) }

/-- R205: the encoder after its handler. -/
def Encoder.served (e : Encoder) : Encoder :=
  { e with
    uif := false
    total := if e.dir = false then toI32 (e.total.toInt + e.modulus) else toI32 (e.total.toInt - e.modulus) }

theorem evDmairq_occursAs :
    OccursAs .evDmairq (fun s => s.smp.irqPending) fun s => { s with smp := s.smp.served } := fun _ => rfl

theorem evEncirq_occursAs :
    OccursAs .evEncirq (fun s => s.enc.irqPending) fun s => { s with enc := s.enc.served } := fun _ => rfl

theorem evTick_occursAs : OccursAs .evTick (fun s => s.tick.systEn) fun s => releaseHold (s.ticked 1) := fun _ => rfl

/-- R133: the end of a hold reads and writes nothing of the stream. -/
theorem releaseHold_set_smp (s : State) (p : Sampler) :
    releaseHold { s with smp := p } = { releaseHold s with smp := p } := by
  cases h : holdOver s
  · rw [releaseHold_of_not_over h]
    exact releaseHold_of_not_over h
  · rw [releaseHold_of_over h]
    exact releaseHold_of_over h

/-- R133: nor of the encoder. -/
theorem releaseHold_set_enc (s : State) (e : Encoder) :
    releaseHold { s with enc := e } = { releaseHold s with enc := e } := by
  cases h : holdOver s
  · rw [releaseHold_of_not_over h]
    exact releaseHold_of_not_over h
  · rw [releaseHold_of_over h]
    exact releaseHold_of_over h

theorem releaseHold_enc (s : State) : (releaseHold s).enc = s.enc := by
  rcases releaseHold_cases s with ⟨-, h⟩ | ⟨-, h⟩ <;> rw [h]

/-- Settles O19: each of the three events reads and writes a unit of its own. -/
theorem handlersAndTickCommute : Obligations.HandlersAndTickCommute := by
  intro s
  refine ⟨?_, ?_, ?_, fun hdma henc htick => ?_⟩
  · exact evDmairq_occursAs.execAll_comm evEncirq_occursAs (fun _ => rfl) (fun _ => rfl) (fun _ => rfl) s
  · refine evTick_occursAs.execAll_comm evDmairq_occursAs (fun t => ?_) (fun _ => rfl) (fun t => ?_) s
    · rw [releaseHold_smp]
      rfl
    · rw [releaseHold_smp]
      exact (releaseHold_set_smp (t.ticked 1) _).symm
  · refine evTick_occursAs.execAll_comm evEncirq_occursAs (fun t => ?_) (fun _ => rfl) (fun t => ?_) s
    · rw [releaseHold_enc]
      rfl
    · rw [releaseHold_enc]
      exact (releaseHold_set_enc (t.ticked 1) _).symm
  · have hdma' : (releaseHold (s.ticked 1)).smp.irqPending = true := by rw [releaseHold_smp]; exact hdma
    have henc' : (releaseHold (s.ticked 1)).enc.irqPending = true := by rw [releaseHold_enc]; exact henc
    refine ⟨_, (execAll_cons (evTick_occursAs.exec_of_enabled htick)).trans
      ((execAll_cons (evDmairq_occursAs.exec_of_enabled hdma')).trans
        (execAll_cons (evEncirq_occursAs.exec_of_enabled henc')))⟩

/-! ## What a raise leaves -/

/-- R241: if the state `t` has one more response than `s` and its status is not success, the response word is 0 and
nothing else of `s` has changed but the number of draws made (log 1). -/
def UnchangedIfRaised (s t : State) : Prop :=
  ∀ r : Response, t.responses = r :: s.responses → r.st ≠ .success →
    r.rsp = 0 ∧ t = { s with responses := r :: s.responses, draws := t.draws }

theorem UnchangedIfRaised.of_success {s t : State} {rsp : Word} (h : t.responses = ⟨.success, rsp⟩ :: s.responses) :
    UnchangedIfRaised s t := by
  intro r hr hst
  obtain ⟨rfl, -⟩ := List.cons.inj (hr.symm.trans h)
  exact absurd rfl hst

theorem UnchangedIfRaised.of_no_answer {s t : State} (h : t.responses = s.responses) : UnchangedIfRaised s t := by
  intro r hr
  exact absurd (hr.symm.trans h) (List.cons_ne_self r s.responses)

/-- An outcome that goes on, if it does, with nothing changed where it raises. -/
def RaisesPurely (s : State) (o : Result) : Prop := NextHas (UnchangedIfRaised s) o

namespace RaisesPurely

variable {s u : State}

theorem ite {c : Prop} [Decidable c] {a b : Result} (ha : RaisesPurely s a) (hb : RaisesPurely s b) :
    RaisesPurely s (if c then a else b) :=
  NextHas.ite ha hb

/-- A command that completes does not raise, whatever it has written. -/
theorem complete {rsp : Word} (h : u.responses = s.responses) : RaisesPurely s (complete u rsp) :=
  .next (.of_success (rsp := rsp) (by rw [State.respond_responses, h]))

/-- A raise from the state the command was issued in, but for draws. -/
theorem raise {st : Status} (n : Nat) (h : u = { s with draws := n }) : RaisesPurely s (raise u st) := by
  subst h
  refine .next fun r hr _ => ?_
  obtain ⟨rfl, -⟩ := List.cons.inj hr
  exact ⟨rfl, rfl⟩

theorem event (h : u.responses = s.responses) : RaisesPurely s (.next u) := .next (.of_no_answer h)

end RaisesPurely

theorem releaseHold_unchangedIfRaised {s u : State} (h : u.responses = s.responses) :
    UnchangedIfRaised s (releaseHold u) := by
  rcases releaseHold_responses u with hr | ⟨-, -, hr⟩
  · exact .of_no_answer (hr.trans h)
  · exact .of_success (hr.trans (by rw [h]))

theorem execSmpInit_raisesPurely (base len : Word) (s : State) : RaisesPurely s (execSmpInit base len s) :=
  .ite (.raise _ rfl) (.ite (.ite (.complete rfl) (.raise _ rfl)) (.complete rfl))

theorem execSmpRdcell_raisesPurely (i : BitVec 16) (s : State) : RaisesPurely s (execSmpRdcell i s) := by
  refine .ite (.raise _ rfl) (.ite (.raise _ rfl) ?_)
  split
  · exact .fault
  · exact .complete rfl

theorem execSmpGetf_raisesPurely (f : BitVec 2) (s : State) : RaisesPurely s (execSmpGetf f s) := by
  unfold execSmpGetf
  split
  · exact .raise _ rfl
  · exact .complete rfl

theorem execSmpClrf_raisesPurely (f : BitVec 2) (s : State) : RaisesPurely s (execSmpClrf f s) := by
  unfold execSmpClrf
  split
  · exact .raise _ rfl
  · exact .complete rfl

theorem execBtnScan_raisesPurely (s : State) : RaisesPurely s (execBtnScan s) := by
  have hscan := (foldl_sampleHandle_responses (timerExpired 1 s).2.mgr.registered (timerExpired 1 s).2).trans
    (timerExpired_responses 1 s)
  exact .ite (.raise _ rfl) (.ite (.complete hscan) (.complete (timerExpired_responses 1 s)))

/-! ### The sub-stepped commands -/

/-- The command in progress is past P2, the one sub-step that can raise, and has not answered; or it has answered with
success. -/
def PastRaising (l : List Response) (s : State) : Prop :=
  (∃ p, s.inProgress = some p ∧ p ≠ .protP2 ∧ s.responses = l)
    ∨ (s.inProgress = none ∧ ∃ rsp, s.responses = ⟨.success, rsp⟩ :: l)

theorem protNext_ne_protP2 (s : State) (i sum : Nat) : protNext s i sum ≠ .protP2 := by
  unfold protNext
  split <;> exact nofun

/-- R180, R197: of the sub-steps only P2 raises. -/
theorem subStep_pastRaising {l : List Response} {p : Progress} {s t : State} (hp : s.inProgress = some p)
    (hs : PastRaising l s) (h : subStep p s.turnTaken = .next t) : PastRaising l t := by
  rcases hs with ⟨q, hq, hne, hl⟩ | ⟨hnone, -⟩
  · obtain rfl : q = p := Option.some.inj (hq.symm.trans hp)
    rcases subStep_cases h with ⟨d, -, rfl⟩ | ⟨d, x, -, rfl⟩ | ⟨hP2, -⟩ | ⟨hP2, -⟩ | ⟨hP2, -⟩
      | ⟨i, sum, v, -, -, rfl⟩ | ⟨sum, d, -, rfl⟩ | ⟨avg, -, rfl⟩
    · exact .inl ⟨_, rfl, nofun, hl⟩
    · exact .inr ⟨rfl, _, congrArg _ hl⟩
    · exact absurd hP2 hne
    · exact absurd hP2 hne
    · exact absurd hP2 hne
    · exact .inl ⟨_, rfl, protNext_ne_protP2 _ _ _, hl⟩
    · exact .inl ⟨_, rfl, nofun, hl⟩
    · exact .inr ⟨rfl, _, congrArg _ hl⟩
  · rw [hnone] at hp
    cases hp

theorem hostGoesOn_pastRaising {l : List Response} {s : State} {p : Progress} (hp : s.inProgress = some p)
    (hne : p ≠ .protP2) (hl : s.responses = l) : NextHas (PastRaising l) (hostGoesOn s) := fun t ht =>
  runHost_keeps (P := PastRaising l) (fun _ _ _ hp hs hsub => subStep_pastRaising hp hs hsub) _ s t
    (.inl ⟨p, hp, hne, hl⟩) ((continueHost_eq s).trans ht)

/-- A command past its raising sub-step records no status but success. -/
theorem PastRaising.st_eq_success {l : List Response} {s : State} {r : Response} (h : PastRaising l s)
    (hr : s.responses = r :: l) : r.st = .success := by
  rcases h with ⟨-, -, -, hl⟩ | ⟨-, rsp, hl⟩
  · exact absurd (hr.symm.trans hl) (List.cons_ne_self r l)
  · obtain ⟨rfl, -⟩ := List.cons.inj (hr.symm.trans hl)
    rfl

/-- R198: a fold makes draws, if any, and changes nothing else. -/
theorem fold_draws (r m : Nat) (s : State) : ∃ k, (fold r m s).2 = { s with draws := s.draws + k } := by
  rcases fold_cases r m s with ⟨-, h⟩ | ⟨-, h⟩ | ⟨-, -, h | h⟩
  · exact ⟨0, by rw [h]; rfl⟩
  · exact ⟨0, by rw [h]; rfl⟩
  · exact ⟨0, by rw [h]; rfl⟩
  · exact ⟨1, by rw [h]; rfl⟩

/-- R197, R198: U1 folds the difference of the counts into a number congruent to it and within half the modulus, and the
host goes on from there. -/
theorem exec_encUpdate_goesOn {s : State} (hin : s.enc.inited = true) :
    ∃ d k, exec .encUpdate s = hostGoesOn (s.afterU1 d (s.draws + k))
      ∧ (s.enc.modulus : Int) ∣ d - ((s.enc.cnt.toNat : Int) - s.enc.lastHw.toNat)
      ∧ 2 * d.natAbs ≤ s.enc.modulus := by
  have hm : 0 < s.enc.modulus := Nat.succ_pos _
  have hdvd := (dvd_fold_sub (countResidue s.enc.cnt s.enc.lastHw s.enc.modulus) s.enc.modulus s).add
    (modulus_dvd_countResidue s.enc.cnt s.enc.lastHw hm)
  rw [sub_add_sub_cancel] at hdvd
  obtain ⟨k, hk⟩ := fold_draws (countResidue s.enc.cnt s.enc.lastHw s.enc.modulus) s.enc.modulus s
  exact ⟨_, k, exec_encUpdate hin (Prod.ext rfl hk), hdvd, fold_natAbs_le (countResidue_lt _ _ hm) s⟩

/-- R197: without an initialised encoder the update raises, and with one it answers success when it is complete. -/
theorem exec_encUpdate_raisesPurely (s : State) : RaisesPurely s (exec .encUpdate s) := by
  cases hin : s.enc.inited with
  | false =>
    have hraise : exec .encUpdate s = raise s .uninitialized := if_pos hin
    rw [hraise]
    exact .raise _ rfl
  | true =>
    obtain ⟨d, k, hgo, -⟩ := exec_encUpdate_goesOn hin
    rw [hgo]
    intro t ht r hr hst
    have hpast := hostGoesOn_pastRaising (p := .updateU2 d) rfl nofun rfl t ht
    exact absurd (hpast.st_eq_success hr) hst

/-- R241: an instruction other than `PRT.TICK` that raises has changed nothing. -/
theorem exec_raisesPurely {i : Instr} (s : State) (hprt : i ≠ .prtTick) : RaisesPurely s (exec i s) := by
  cases i with
  | prtTick => exact absurd rfl hprt
  | tckInit fCpu => exact .ite (.raise _ rfl) (.ite (.raise _ rfl) (.complete rfl))
  | tckDelay n => exact .next (releaseHold_unchangedIfRaised rfl)
  | tmrExpired t => exact .complete (timerExpired_responses t s)
  | smpInit base len => exact execSmpInit_raisesPurely base len s
  | smpRdcell j => exact execSmpRdcell_raisesPurely j s
  | smpGetf f => exact execSmpGetf_raisesPurely f s
  | smpClrf f => exact execSmpClrf_raisesPurely f s
  | smpDmaen => exact .ite (.raise _ rfl) (.ite (.complete rfl) (.complete rfl))
  | smpDmadis => exact .ite (.complete rfl) (.ite (.complete rfl) (.raise _ rfl))
  | encUpdate => exact exec_encUpdate_raisesPurely s
  | encRpm nowMs =>
    exact .ite (.raise _ rfl) (.ite (.complete rfl) (.ite (.complete rfl) (.complete (speed_responses ..))))
  | btnAdd b =>
    exact .ite (.raise _ rfl) (.ite (.raise _ rfl) (.ite (.raise _ rfl) (.ite (.raise _ rfl) (.complete rfl))))
  | btnScan => exact execBtnScan_raisesPurely s
  | tckNow | tckElapsed | tmrInit | tmrStart | smpReady | smpClear | motSet | motGet | btnInit | btnMinit =>
    exact .complete rfl
  | smpStart | encInit | encStart | encStop | encReset | encCount | encDir | btnTake | btnPressed =>
    exact .ite (.raise _ rfl) (.complete rfl)
  | evTick => exact .ite (.next (releaseHold_unchangedIfRaised rfl)) .refused
  | evSample v12 => exact fun t ht => .of_no_answer (execEvSample_answersNothing v12 s t ht)
  | evDmairq | evDmate | evEncirq => exact .ite (.event rfl) .refused
  | evQa v1 | evQb v1 => exact .ite (.event rfl) (.ite (.event rfl) (.event rfl))
  | evPin | evReset => exact .event rfl

/-- R180, R182: of what can come of P2, only its arm without an initialised sampler raises. -/
theorem hostGoesOn_protP2_raised {s t : State} {r : Response} (hp : s.inProgress = some .protP2)
    (h : hostGoesOn s = .next t) (hr : t.responses = r :: s.responses) (hst : r.st ≠ .success) :
    r.rsp = 0 ∧ t = { s with inProgress := none, preempt := t.preempt, responses := r :: s.responses } := by
  by_cases hturn : s.preempt.headD false = true
  · obtain rfl := Host.Outcome.next.inj ((hostGoesOn_paused hturn).symm.trans h)
    exact absurd hr.symm (List.cons_ne_self r s.responses)
  have hgo {u : State} (hsub : subStep .protP2 s.turnTaken = .next u) :
      hostGoesOn u = .next t := (hostGoesOn_subStep hp (Bool.eq_false_iff.mpr hturn) hsub).symm.trans h
  cases hbatch : s.smp.batchReady with
  | false =>
    obtain rfl := Host.Outcome.next.inj ((hostGoesOn_done rfl).symm.trans (hgo (subStep_protP2_of_no_batch hbatch)))
    obtain ⟨rfl, -⟩ := List.cons.inj hr
    exact absurd rfl hst
  | true =>
    cases hin : s.smp.inited with
    | false =>
      obtain rfl := Host.Outcome.next.inj
        ((hostGoesOn_done rfl).symm.trans (hgo (subStep_protP2_of_not_inited hbatch hin)))
      obtain ⟨rfl, -⟩ := List.cons.inj hr
      exact ⟨rfl, rfl⟩
    | true =>
      have hrest := hgo (subStep_protP2_of_batch hbatch hin)
      have hpast := hostGoesOn_pastRaising rfl (protNext_ne_protP2 _ _ _) rfl t hrest
      exact absurd (hpast.st_eq_success hr) hst

/-- Settles O13: only `PRT.TICK` writes before it raises, and what it has written then is timer 0. -/
theorem raisingCommandChangesNothing : Obligations.RaisingCommandChangesNothing := by
  intro i s t r h hr hst
  by_cases hprt : i = .prtTick
  · subst hprt
    by_cases hdue : TimerDue 0 s
    · rw [exec_prtTick_of_due hdue] at h
      obtain ⟨hrsp, ht⟩ := hostGoesOn_protP2_raised rfl h hr hst
      refine ⟨hrsp, ?_⟩
      rw [if_pos rfl, ht]
      exact ⟨rfl, fun k hk => s.timer_setTimer_other 0 k _ hk⟩
    · obtain rfl := Host.Outcome.next.inj ((exec_prtTick_of_not_due hdue).symm.trans h)
      obtain ⟨rfl, -⟩ := List.cons.inj hr
      exact absurd rfl hst
  · rw [if_neg hprt]
    exact exec_raisesPurely s hprt t h r hr hst

end Sys2Proof.Machine

/-! PROOFS. The turns inside a sub-stepped command (R249, R181, R199): another agent's step, each sub-step of the host,
and a `PRT.TICK` with one event inside it at any place between P2 and P5. -/

namespace Sys2Proof.Machine

/-! ## Another agent's step -/

/-- R249: on another agent's turn, an event at the head of the trace is taken. -/
theorem step_of_others_turn {s : State} {p : Progress} (hp : s.inProgress = some p)
    (hturn : s.preempt.headD false = true) {w : Word} {rest : List Word} (htrace : s.trace = w :: rest)
    (hw : isEventWord w = true) : step s = runTrace s.turnTaken := by
  have hnext : nextIsEvent s = true := by rw [nextIsEvent, htrace]; exact hw
  have hother : (othersTurn s && nextIsEvent s) = true := by rw [hnext, Bool.and_true]; exact hturn
  rw [step, nextStep, hp]
  exact if_pos hother

/-- R249: the step is the event at the head of the trace, with the turn and the words taken. -/
theorem step_of_decoded_event {s : State} {p : Progress} {i : Instr} {rest : List Word} (hp : s.inProgress = some p)
    (hturn : s.preempt.headD false = true) (hd : decode s.trace = .step i rest) (hevent : issuedByHost i = false) :
    step s = exec i { s.turnTaken with trace := rest } := by
  cases htrace : s.trace with
  | nil =>
    rw [htrace] at hd
    cases hd
  | cons w ws =>
    rw [htrace] at hd
    have hw : isEventWord w = true := by simpa [hevent] using decode_unit hd
    rw [step_of_others_turn hp hturn htrace hw]
    exact runTrace_of_step (s := s.turnTaken) (htrace ▸ hd) (by simp [hevent])

/-- R105: an illegal event word is refused there too. -/
theorem step_of_illegal_event {s : State} {p : Progress} {w : Word} {rest : List Word} (hp : s.inProgress = some p)
    (hturn : s.preempt.headD false = true) (htrace : s.trace = w :: rest) (hw : isEventWord w = true)
    (hno : ∀ r ∈ opcodeTable, r.op = opOf w → w &&& r.reserved ≠ 0) : step s = .refused .illFormedEvent := by
  have hd : decode s.turnTaken.trace = .illegalEvent := by
    rw [State.turnTaken_trace, htrace, decode_of_no_row rest hno]
    exact if_pos hw
  rw [step_of_others_turn hp hturn htrace hw, runTrace, hd]

/-- An outcome that goes on, if it does, with the same command in progress. -/
def KeepsProgress (s : State) (o : Result) : Prop := NextHas (fun t => t.inProgress = s.inProgress) o

theorem KeepsProgress.ite {s : State} {c : Prop} [Decidable c] {a b : Result} (ha : KeepsProgress s a)
    (hb : KeepsProgress s b) : KeepsProgress s (if c then a else b) :=
  NextHas.ite ha hb

theorem releaseHold_inProgress (s : State) : (releaseHold s).inProgress = s.inProgress := by
  rcases releaseHold_cases s with ⟨-, h⟩ | ⟨-, h⟩ <;> rw [h]

theorem execEvSample_keepsProgress (v12 : BitVec 12) (s : State) : KeepsProgress s (execEvSample v12 s) := by
  refine .ite (.ite ?_ (.next rfl)) .refused
  split
  · exact .fault
  · exact .next rfl

/-- R249, R270: of the events only the reset abandons the command in progress. -/
theorem exec_event_keepsProgress {i : Instr} (s : State) (hevent : issuedByHost i = false) (hreset : i ≠ .evReset) :
    KeepsProgress s (exec i s) := by
  cases i with
  | evReset => exact absurd rfl hreset
  | evTick => exact .ite (.next (releaseHold_inProgress _)) .refused
  | evSample v12 => exact execEvSample_keepsProgress v12 s
  | evDmairq | evDmate | evEncirq => exact .ite (.next rfl) .refused
  | evQa v1 | evQb v1 => exact .ite (.next rfl) (.ite (.next rfl) (.next rfl))
  | evPin v1 pin port => exact .next rfl
  | _ => cases hevent

/-! ## The host's own sub-steps -/

/-- The host has the turn, or the agent that has it has no event to take. -/
theorem host_moves {s : State}
    (h : s.preempt.headD false = false ∨ ∀ w rest, s.trace = w :: rest → w.extractLsb' 28 4 ≠ 0xE#4) :
    (othersTurn s && nextIsEvent s) = false := by
  rcases h with hturn | hnone
  · rw [othersTurn, hturn, Bool.false_and]
  · have hnext : nextIsEvent s = false := by
      unfold nextIsEvent
      cases htrace : s.trace with
      | nil => rfl
      | cons w rest => exact decide_eq_false (hnone w rest htrace)
    rw [hnext, Bool.and_false]

section
variable {s : State}

theorem protNext_zero (s : State) : protNext s 0 0 = if s.smp.n = 0 then .protP5 0 else .protRead 0 0 := by
  by_cases hn : s.smp.n = 0
  · rw [if_pos hn, protNext, hn]
    rfl
  · rw [if_neg hn, protNext, if_pos (n_pos_of_ne_zero hn)]

/-- Log 10: a read outside the address space faults. -/
theorem subStep_protRead_outside {i sum : Nat} (h : 0x100000000 ≤ cellAddr s i + 1) :
    subStep (.protRead i sum) s = .fault .addressOutsideMemory := by
  have hread : Memory.read16 s.mem (cellAddr s i) = none := if_neg (Nat.not_lt.mpr h)
  rw [subStep, protRead, hread]

/-- Logs 1 and 9: the average of no cells is a draw. -/
theorem subStep_protP5_of_no_cells {sum : Nat} (hn : s.smp.n = 0) :
    subStep (.protP5 sum) s = .next { s with
      smp := { s.smp with batchReady := false }
      inProgress := some (.protP6 (Config.drawWord s.draws).toNat)
      draws := s.draws + 1 } := by
  have havg : average sum s = ((Config.drawWord s.draws).toNat, (drawWord s).2) := if_pos hn
  rw [subStep, protP5, havg]
  rfl

/-- R180 P6, R102. -/
theorem subStep_protP6 (avg : Nat) (s : State) :
    subStep (.protP6 avg) s = .next ({ s with
      motorEn := if decide (s.cfg.thresh.toNat < avg) then false else s.motorEn
      inProgress := none }.respond .success (BitVec.ofNat 32
        (avg % 4096 * 65536 + (if decide (s.cfg.thresh.toNat < avg) then 2 else 0) + 1))) := by
  rw [subStep, protP6, protectionResponse_eq, complete_eq]

theorem step_host_fault {p : Progress} {r : Fault} (hp : s.inProgress = some p)
    (ht : (othersTurn s && nextIsEvent s) = false) (h : subStep p s.turnTaken = .fault r) : step s = .fault r := by
  rw [step_host hp ht, resumeHost, h]

/-- The last sub-step of a command ends the step. -/
theorem step_host_done {p : Progress} {t : State} (hp : s.inProgress = some p)
    (ht : (othersTurn s && nextIsEvent s) = false) (h : subStep p s.turnTaken = .next t) (hdone : t.inProgress = none) :
    step s = .next t :=
  (step_subStep hp ht h).trans (hostGoesOn_done hdone)

end

/-! ## Reads of a `PRT.TICK` on the host's turns -/

/-- The sum of the first `i` cells, where cell `x` reads as `cell x`. -/
def readSum (cell : Nat → Nat) (i : Nat) : Nat := ((List.range i).map cell).sum

theorem readSum_succ (cell : Nat → Nat) (i : Nat) : readSum cell (i + 1) = readSum cell i + cell i := by
  simp [readSum, List.range_succ]

/-- With the cells as they are in `s`, it is what P3 has after `i` reads. -/
theorem readSum_cellValue (s : State) (i : Nat) : readSum (cellValue s) i = cellSum s i := rfl

theorem readSum_congr {f g : Nat → Nat} {i : Nat} (h : ∀ x < i, f x = g x) : readSum f i = readSum g i :=
  congrArg List.sum (List.map_congr_left fun x hx => h x (List.mem_range.mp hx))

/-- P3: on `j` turns of its own the host reads `j` cells. -/
theorem hostGoesOn_reads_on_turns {s : State} {cell : Nat → Nat} {i j : Nat}
    (hend : s.smp.base.toNat + 2 * s.smp.n.toNat ≤ 0x100000000) (hij : i + j ≤ s.smp.n.toNat)
    (hturns : ∀ x < j, s.preempt[x]?.getD false = false)
    (hcell : ∀ x, i ≤ x → x < i + j → cellValue s x = cell x) :
    hostGoesOn { s with inProgress := some (protNext s i (readSum cell i)) }
      = hostGoesOn { s with
          inProgress := some (protNext s (i + j) (readSum cell (i + j))), preempt := s.preempt.drop j } := by
  induction j with
  | zero => rfl
  | succ j ih =>
    have hlt : i + j < s.smp.n.toNat := hij
    have hread : protNext s (i + j) (readSum cell (i + j)) = .protRead (i + j) (readSum cell (i + j)) := if_pos hlt
    have hturn : (s.preempt.drop j).headD false = false := by
      rw [List.headD_eq_head?_getD, List.head?_drop]
      exact hturns j (Nat.lt_succ_self j)
    rw [ih hlt.le (fun x hx => hturns x (Nat.lt_succ_of_lt hx)) fun x hi hx => hcell x hi (Nat.lt_succ_of_lt hx), hread,
      ← Nat.add_assoc, readSum_succ, ← hcell (i + j) (Nat.le_add_right i j) (Nat.lt_succ_self _), ← List.tail_drop]
    exact hostGoesOn_subStep rfl hturn (subStep_protRead (cellAddr_succ_lt hend hlt))

/-- P3 to P6, from the read of cell `j` on, where no other turn is given away. -/
theorem hostGoesOn_rest_of_reads {s : State} {cell : Nat → Nat} {j : Nat} (hturns : s.preempt = [])
    (hn : s.smp.n ≠ 0) (hend : s.smp.base.toNat + 2 * s.smp.n.toNat ≤ 0x100000000) (hj : j ≤ s.smp.n.toNat)
    (hcell : ∀ x, j ≤ x → x < s.smp.n.toNat → cellValue s x = cell x) :
    hostGoesOn { s with inProgress := some (protNext s j (readSum cell j)) }
      = .next (s.protectedBy (readSum cell s.smp.n.toNat / s.smp.n.toNat)) := by
  obtain ⟨k, hk⟩ := Nat.exists_eq_add_of_le hj
  have hlast : protNext s (j + k) (readSum cell (j + k)) = .protP5 (readSum cell (j + k)) :=
    if_neg (by omega)
  have hdrop : s.preempt.drop k = s.preempt := by rw [hturns, List.drop_nil]
  calc hostGoesOn { s with inProgress := some (protNext s j (readSum cell j)) }
      = hostGoesOn { s with inProgress := some (.protP5 (readSum cell (j + k))) } := by
        rw [hostGoesOn_reads_on_turns hend hk.ge (by simp [hturns]) fun x hjx hx => hcell x hjx (hk ▸ hx), hlast, hdrop]
    _ = .next (s.protectedBy (readSum cell s.smp.n.toNat / s.smp.n.toNat)) := by
        rw [← hk]
        exact hostGoesOn_protP5 hturns hn

/-! ## One event inside a `PRT.TICK` -/

/-- A `PRT.TICK` that will consume a batch stands at the head of the trace with the word `w` after it, and the host has
the turns of P2 and of `j` reads before another agent is given one. -/
structure TurnInsidePass (s : State) (j : Nat) (w : Word) : Prop where
  idle : s.inProgress = none
  free : s.tick.delay.active = false
  trace : s.trace = [0x20000000, w]
  reads_le : j ≤ s.smp.n.toNat
  turns : s.preempt = List.replicate (j + 1) false ++ [true]
  due : TimerDue 0 s
  batch : s.smp.batchReady = true
  inited : s.smp.inited = true
  nonempty : s.smp.n ≠ 0
  ring_end : s.smp.base.toNat + 2 * s.smp.n.toNat ≤ 0x100000000

/-- The state inside a `PRT.TICK` issued in `s` that the event after `j` reads finds, its turn and its word taken. -/
def State.afterReads (s : State) (j : Nat) : State :=
  { s.afterP1 with inProgress := some (protNext s j (cellSum s j)), preempt := [], trace := [] }

namespace TurnInsidePass

variable {s : State} {j : Nat} {w : Word}

/-- P1, P2 and `j` reads, and the turn is another agent's. -/
theorem step_pauses (h : TurnInsidePass s j w) :
    step s = .next { s.afterReads j with preempt := [true], trace := [w] } := by
  have hd : decode s.trace = .step .prtTick [w] :=
    h.trace ▸ (decodesTo_of_encode_eq rfl : DecodesTo [0x20000000] .prtTick) [w]
  have hhost : ∀ x < j, (List.replicate j false ++ [true])[x]?.getD false = false := by
    intro x hx
    simp [List.getElem?_append, hx]
  have htail : s.preempt.tail = List.replicate j false ++ [true] := congrArg List.tail h.turns
  have hdrop : (List.replicate j false ++ [true]).drop j = [true] := by simp
  calc step s
      = exec .prtTick { s with trace := [w] } := stepRunsDecodedInstruction s _ _ h.idle hd fun _ => h.free
    _ = hostGoesOn { s.afterP1 with trace := [w], inProgress := some .protP2 } := exec_prtTick_of_due h.due
    _ = hostGoesOn { s.afterP1 with
          trace := [w], preempt := List.replicate j false ++ [true], inProgress := some (protNext s 0 0) } := by
        refine hostGoesOn_subStep rfl (congrArg (·.headD false) h.turns) ?_
        rw [← htail]
        exact subStep_protP2_of_batch h.batch h.inited
    _ = hostGoesOn { s.afterReads j with preempt := [true], trace := [w] } := by
        have hreads := hostGoesOn_reads_on_turns (cell := cellValue s) (i := 0) (j := j)
          (s := { s.afterP1 with trace := [w], preempt := List.replicate j false ++ [true] })
          h.ring_end (by rw [Nat.zero_add]; exact h.reads_le) hhost fun _ _ _ => rfl
        rw [hdrop, Nat.zero_add] at hreads
        exact hreads
    _ = .next { s.afterReads j with preempt := [true], trace := [w] } := hostGoesOn_paused rfl

/-- The event. -/
theorem step_event {i : Instr} (hw : DecodesTo [w] i) (hevent : issuedByHost i = false) :
    step { s.afterReads j with preempt := [true], trace := [w] } = exec i (s.afterReads j) :=
  step_of_decoded_event rfl rfl (hw []) hevent

/-- The other reads, P5 and P6, where the event has written the sampler and data memory at most and kept the ring. -/
theorem step_resumes {q : Sampler} {m : List Host.Cell} {cell : Nat → Nat} (h : TurnInsidePass s j w)
    (hn : q.n = s.smp.n) (hbase : q.base = s.smp.base) (hbefore : ∀ x < j, cellValue s x = cell x)
    (hafter : ∀ x, j ≤ x → x < s.smp.n.toNat → cellValue { s.afterReads j with smp := q, mem := m } x = cell x) :
    step { s.afterReads j with smp := q, mem := m }
      = .next ({ s.afterReads j with smp := q, mem := m }.protectedBy
          (readSum cell s.smp.n.toNat / s.smp.n.toNat)) := by
  have hsum : readSum cell j = cellSum s j := (readSum_congr hbefore).symm.trans (readSum_cellValue s j)
  have hrest := hostGoesOn_rest_of_reads (s := { s.afterReads j with smp := q, mem := m }) (cell := cell) (j := j) rfl
  simp only [hn, hbase, protNext, hsum] at hrest
  rw [← hostGoesOn_eq_step rfl rfl]
  exact hrest h.nonempty h.ring_end h.reads_le hafter

end TurnInsidePass

/-- R75, R155: the cells after a sample has been written to one of them. -/
theorem cellValue_of_write16 {s t : State} {m : List Host.Cell} {c : Nat} {v : BitVec 12}
    (hm : Memory.write16 s.mem (cellAddr s c) (v.setWidth 16) = some m) (hmem : t.mem = m)
    (hbase : t.smp.base = s.smp.base) (i : Nat) : cellValue t i = if i = c then v.toNat else cellValue s i := by
  have haddr : cellAddr t i = cellAddr s i := by rw [cellAddr, cellAddr, hbase]
  rw [cellValue, haddr, hmem]
  split
  next hi =>
    rw [hi, Memory.byteAt_write16_high hm, Memory.byteAt_write16_low hm, sample_high_byte, sample_low_byte]
    simp only [BitVec.toNat_ofNat]
    omega
  next hi =>
    have hne : cellAddr s i ≠ cellAddr s c ∧ cellAddr s i ≠ cellAddr s c + 1 ∧ cellAddr s i + 1 ≠ cellAddr s c
        ∧ cellAddr s i + 1 ≠ cellAddr s c + 1 := by
      unfold cellAddr
      omega
    obtain ⟨hlow, hlow', hhigh, hhigh'⟩ := hne
    rw [Memory.byteAt_write16_other hm hhigh hhigh', Memory.byteAt_write16_other hm hlow hlow', cellValue]

/-! ## The two interleavings of R181 -/

/-- The pass issued in `s` is over in `t`: its batch is consumed, and it cut and answered by the average of the cells
read. -/
def PassEnds (s : State) (cell : Nat → Nat) (t : State) : Prop :=
  let avg := readSum cell s.smp.n.toNat / s.smp.n.toNat
  let cut := decide (s.cfg.thresh.toNat < avg)
  t.inProgress = none ∧ t.smp.batchReady = false ∧ t.motorEn = (if cut then false else s.motorEn)
    ∧ t.responses = ⟨.success, BitVec.ofNat 32 (avg % 4096 * 65536 + (if cut then 2 else 0) + 1)⟩ :: s.responses

section
variable {s : State} {j : Nat}

/-- R160, R181: a completion served inside the pass is cleared with the batch. -/
theorem TurnInsidePass.dmairq (h : TurnInsidePass s j 0xE2000000) (htcif : s.smp.tcif = true)
    (htcie : s.smp.tcie = true) :
    ∃ t1 t2 t3, step s = .next t1 ∧ step t1 = .next t2 ∧ step t2 = .next t3
      ∧ t2.smp.batchReady = true ∧ t2.smp.tcif = false ∧ t3.smp.tcif = false ∧ PassEnds s (cellValue s) t3 := by
  have hserved : (s.smp.tcif && !s.smp.tcie) = false := by rw [htcie, Bool.not_true, Bool.and_false]
  have hbatch : (s.smp.batchReady || (s.smp.tcif && s.smp.tcie)) = true := by rw [h.batch, Bool.true_or]
  have hirq : exec .evDmairq (s.afterReads j) = _ :=
    exec_evDmairq_of_pending ((Sampler.irqPending_iff s.smp).mpr (.inl ⟨htcif, htcie⟩))
  exact ⟨_, _, _, h.step_pauses, (step_event (decodesTo_of_encode_eq rfl) rfl).trans hirq,
    h.step_resumes (m := s.mem) rfl rfl (fun _ _ => rfl) fun _ _ _ => rfl, hbatch, hserved, hserved, rfl, rfl, rfl, rfl⟩

/-- R155, R181: a sample inside the pass is in the sum if its cell is still to be read. -/
theorem TurnInsidePass.sample {v : BitVec 12} (h : TurnInsidePass s j (0xE1000000#32 ||| place v 0))
    (hon : s.smp.adcOn = true) (hrun : s.smp.adcRun = true) (hdma : s.smp.dmaEn = true)
    (hwidx : s.smp.widx.toNat < s.smp.n.toNat) :
    ∃ t1 t2 t3, step s = .next t1 ∧ step t1 = .next t2 ∧ step t2 = .next t3
      ∧ cellValue t2 s.smp.widx.toNat = v.toNat
      ∧ PassEnds s (fun i => if i = s.smp.widx.toNat ∧ j + 1 ≤ i + 1 then v.toNat else cellValue s i) t3 := by
  obtain ⟨m, hm⟩ := Memory.write16_isSome s.mem (cellAddr s s.smp.widx.toNat) (v.setWidth 16)
    (cellAddr_succ_lt h.ring_end hwidx)
  have hsample : exec (.evSample v) (s.afterReads j) = _ :=
    exec_evSample_of_enabled (s := s.afterReads j) hon hrun hdma hm
  have hcell (i : Nat) : cellValue { s.afterReads j with
      mem := m, smp := { s.smp with adcDr := v.setWidth 16 }.transferred } i
        = if i = s.smp.widx.toNat then v.toNat else cellValue s i :=
    cellValue_of_write16 hm (by rfl) (by rfl) i
  refine ⟨_, _, _, h.step_pauses, (step_event (decodesTo_of_encode_eq rfl) rfl).trans hsample,
    h.step_resumes (m := m) rfl rfl (fun x hx => ?_) (fun x hx _ => ?_), ?_, rfl, rfl, rfl, rfl⟩
  · rw [if_neg (by omega)]
  · refine (hcell x).trans ?_
    simp only [Nat.add_le_add_iff_right, hx, and_true]
  · exact (hcell _).trans (if_pos rfl)

end

/-! ## The statement -/

/-- Settles O8: another agent's turn, then the host's sub-step by sub-step, then the two interleavings of R181. -/
theorem stepInsideSubSteppedCommand : Obligations.StepInsideSubSteppedCommand := by
  refine ⟨fun s p i rest hp hturn hd hevent => step_of_decoded_event hp hturn hd hevent,
    fun s p w rest hp hturn htrace hw hno => step_of_illegal_event hp hturn htrace (decide_eq_true hw) hno,
    fun i s t hevent hreset h => exec_event_keepsProgress s hevent hreset t h, ?_, ?_, ?_, ?_⟩
  · intro s p hp hown h
    have hown := host_moves hown
    cases p with
    | updateU2 d => exact step_subStep hp hown rfl
    | updateU3 d x => exact step_host_done hp hown (subStep_updateU3 d x _) rfl
    | protP2 =>
      refine ⟨fun hbatch => step_host_done hp hown (subStep_protP2_of_no_batch hbatch) rfl,
        fun hbatch hin => step_host_done hp hown (subStep_protP2_of_not_inited hbatch hin) rfl, fun hbatch hin => ?_⟩
      rw [← protNext_zero]
      exact step_subStep hp hown (subStep_protP2_of_batch hbatch hin)
    | protRead i sum =>
      exact ⟨fun hin => step_subStep hp hown (subStep_protRead hin),
        fun hout => step_host_fault hp hown (subStep_protRead_outside hout)⟩
    | protP5 sum =>
      exact ⟨fun hn => step_subStep hp hown (subStep_protP5 hn),
        fun hn => step_subStep hp hown (subStep_protP5_of_no_cells hn)⟩
    | protP6 avg => exact step_host_done hp hown (subStep_protP6 avg _) rfl
  · intro s tm p1 hen hle
    exact exec_prtTick_of_due ⟨hen, hle⟩
  · intro s hin
    obtain ⟨d, k, hgo, hdvd, hd⟩ := exec_encUpdate_goesOn hin
    exact ⟨d, k, hd, Int.emod_eq_zero_of_dvd hdvd, hgo⟩
  · intro s k hidle hfree hk hkn hturns hen hle hbatch hin hn hend endsWith
    obtain ⟨j, rfl⟩ := Nat.exists_eq_add_of_le' hk
    have hpass {w : Word} (htrace : s.trace = [0x20000000, w]) : TurnInsidePass s j w :=
      ⟨hidle, hfree, htrace, Nat.le_of_succ_le_succ hkn, hturns, ⟨hen, hle⟩, hbatch, hin, hn, hend⟩
    exact ⟨fun htrace => (hpass htrace).dmairq, fun v htrace => (hpass htrace).sample⟩

end Sys2Proof.Machine

/-! PROOFS. Reset of the block (70_reset_and_hazards.md): the state `EV.RESET` leaves has every unit off, and what
cannot occur or is refused there is what each instruction does with its unit off. -/

namespace Sys2Proof.Machine

/-! ## The state after a reset -/

/-- R270, R271: the block at its reset values, with the configuration, the memory and what belongs to the run kept. -/
def State.cleared (s : State) : State :=
  { State.reset with
    cfg := s.cfg, mem := s.mem, responses := s.responses, trace := s.trace, preempt := s.preempt, draws := s.draws }

theorem exec_evReset (s : State) : exec .evReset s = .next s.cleared := rfl

/-- R51: a run's first state is a cleared one. -/
theorem State.cleared_reset : State.reset.cleared = State.reset := rfl

/-! ## The inputs of a stopped counter -/

/-- R202: with the counter stopped, input A takes the level and nothing counts, whether the level is new or not. -/
theorem exec_evQa_of_not_counting {s : State} (v : Bool) (h : s.enc.cen = false) :
    exec (.evQa v) s = .next { s with enc := { s.enc with qa := v } } := by
  by_cases hv : v = s.enc.qa
  · subst hv
    exact if_pos rfl
  · exact exec_evQa_of_stopped hv h

/-- R204: and so does input B. -/
theorem exec_evQb_of_not_counting {s : State} (v : Bool) (h : s.enc.cen = false) :
    exec (.evQb v) s = .next { s with enc := { s.enc with qb := v } } := by
  by_cases hv : v = s.enc.qb
  · subst hv
    exact if_pos rfl
  · exact exec_evQb_of_stopped hv h

/-! ## The statements -/

/-- Settles O59: the tick, the stream, its handler, the conversion, the counter and its handler are all off in the
cleared state, and the reads find 0 or an encoder not initialised. -/
theorem evResetClears : Obligations.EvResetClears := by
  intro s
  have htick : s.cleared.tick.systEn = false := rfl
  have hdmairq : s.cleared.smp.irqPending = false := rfl
  have hencirq : s.cleared.enc.uif = false := rfl
  have hstream : s.cleared.smp.dmaEn = false := rfl
  have hadc : (s.cleared.smp.adcOn && s.cleared.smp.adcRun) = false := rfl
  have hcounter : s.cleared.enc.cen = false := rfl
  have hencoder : s.cleared.enc.inited = false := rfl
  obtain ⟨-, -, hdmate⟩ := evDmateStopsStream s.cleared
  obtain ⟨-, -, hcount, -⟩ := encCountAndDir s.cleared
  obtain ⟨hcount, -⟩ := hcount hencoder
  obtain ⟨-, -, -, hmotor⟩ := motSetAndGet false s.cleared
  obtain ⟨-, -, hready, -⟩ := smpReadyAndClear s.cleared
  obtain ⟨-, -, hnow, -⟩ := tckNowAndElapsedRead 0 s.cleared
  exact ⟨decodesTo_of_encode_eq rfl, s.cleared, exec_evReset s, rfl, fun _ => rfl, exec_evTick_of_off htick,
    exec_evDmairq_of_not_pending hdmairq, exec_evEncirq_of_not_pending (.inl hencirq), hdmate (.inr hstream),
    fun v => exec_evSample_of_off v hadc, fun v => exec_evQa_of_not_counting v hcounter,
    fun v => exec_evQb_of_not_counting v hcounter, hmotor, hready, hnow, hcount⟩

/-- Settles O60: clearing the reset state changes nothing, and its configuration is the default one. -/
theorem runStartsInResetState : Obligations.RunStartsInResetState :=
  ⟨(exec_evReset State.reset).trans (congrArg _ State.cleared_reset), rfl⟩

end Sys2Proof.Machine
